-- ==== Sys2Proof/Word.lean ====
section
/-! DEFINITION. The value types of HAMC: bytes, command words, quads, and the parity mode (00_scope.md R14, R15, R19). -/

namespace Sys2Proof

/-- A character or plane byte, an unsigned 8-bit value whose bit 7 is the most significant (R14). -/
abbrev Byte := BitVec 8

/-- A command word, or a word returned by the register read port (R13). -/
abbrev Word := BitVec 32

/-- A HammingQuad in the layout of R15: bit 0 is p1, bit 1 is p2, bit 2 is p4 and bit 3 is p8. -/
abbrev Quad := BitVec 4

/-- ParityMode, "enum {EVEN, ODD}" (R19). MODE is one bit, 0 for EVEN and 1 for ODD (R20). -/
inductive Parity where
  | even
  | odd
deriving DecidableEq, Repr

end Sys2Proof
end

