-- ==== Sys2Proof/Syntax.lean ====
section
/-! DEFINITION. The thirteen commands of HAMC, one constructor per row of the opcode map (30_encoding.md R74), each carrying
exactly the operand fields of its format (R71 to R73). -/

namespace Sys2Proof

/-- A HAMC command. Every operand has the width of its field, so a term of this type is a command the word can carry (R72). -/
inductive Instr where
  /-- NOP, format Z (R173). -/
  | nop
  /-- SETMODE m, format M (R172). -/
  | setMode (m : Parity)
  /-- ENC_BEGIN, format Z (R133). -/
  | encBegin
  /-- ENC_CHAR c, format D (R134). -/
  | encChar (c : Byte)
  /-- ENC_END, format Z (R135). -/
  | encEnd
  /-- DEC_BEGIN nbyte, format L (R153). -/
  | decBegin (nbyte : BitVec 16)
  /-- DEC_CHAR, format Z (R154). -/
  | decChar
  /-- DEC_END, format Z (R155). -/
  | decEnd
  /-- HAM_ENC c, format D (R112). -/
  | hamEnc (c : Byte)
  /-- HAM_DEC Q, c, format QD (R113). -/
  | hamDec (q : Quad) (c : Byte)
  /-- PLANE_WR k, pos, c, format KPD (R170). -/
  | planeWr (k : BitVec 4) (pos : BitVec 16) (c : Byte)
  /-- PLANE_RD k, pos, format KP (R171). -/
  | planeRd (k : BitVec 4) (pos : BitVec 16)
  /-- CLEAR, format Z (R174). -/
  | clear
deriving DecidableEq, Repr

end Sys2Proof
end

