-- ==== Sys2Proof/WellFormed.lean ====
section
/-! DEFINITION. Well-formedness: which operand values fit their fields (30_encoding.md R71, R78), and the check on a command. -/

namespace Sys2Proof

/-- A number fits a `width`-bit field: the check by which an assembler rejects an operand (R78). -/
def fitsField (width n : Nat) : Bool := decide (n < 2 ^ width)

/-- The check on a command: every operand fits its field. The operand types are the fields of R71, so no command fails it:
a plane index of 12 to 15, a position at or beyond B and a length of 0 are well-formed words that fault when they run (R76). -/
def Instr.wellFormed : Instr → Bool
  | .nop => true
  | .setMode m => match m with | .even => fitsField 1 0 | .odd => fitsField 1 1
  | .encBegin => true
  | .encChar c => fitsField 8 c.toNat
  | .encEnd => true
  | .decBegin nbyte => fitsField 16 nbyte.toNat
  | .decChar => true
  | .decEnd => true
  | .hamEnc c => fitsField 8 c.toNat
  | .hamDec q c => fitsField 4 q.toNat && fitsField 8 c.toNat
  | .planeWr k pos c => fitsField 4 k.toNat && fitsField 16 pos.toNat && fitsField 8 c.toNat
  | .planeRd k pos => fitsField 4 k.toNat && fitsField 16 pos.toNat
  | .clear => true

end Sys2Proof
end

