-- ==== Sys2Proof/Decode.lean ====
section
/-! DEFINITION. The command decoder, total on all 2^32 words (30_encoding.md R70 to R77), and after it the encoder and the
opcode map of R74. -/

namespace Sys2Proof

/-- Why a word is illegal (R75). -/
inductive Reject where
  /-- OP is 0xD, 0xE or 0xF (R75, R77). -/
  | reservedOpcode (op : BitVec 4)
  /-- A bit that the format of this opcode reserves as 0 is 1 (R73, R75). -/
  | reservedBits (op : BitVec 4)
deriving DecidableEq, Repr

/-- OP, bits 31 to 28 (R71). -/
def opField (w : Word) : BitVec 4 := w.extractLsb' 28 4

/-- K, bits 27 to 24: the plane index k, or the received quad Q (R71, R72). -/
def kField (w : Word) : BitVec 4 := w.extractLsb' 24 4

/-- POS, bits 23 to 8: the byte position pos, or the plane byte length nbyte (R71, R72). -/
def posField (w : Word) : BitVec 16 := w.extractLsb' 8 16

/-- D, bits 7 to 0: the data byte c; its bit 0 is the parity mode m (R71, R72). -/
def dField (w : Word) : Byte := w.extractLsb' 0 8

/-- A command whose reserved bits are all 0, as `clean` says; otherwise the word is illegal (R75). -/
def acceptIf (clean : Bool) (w : Word) (i : Instr) : Except Reject Instr :=
  if clean then .ok i else .error (.reservedBits (opField w))

/-- Format Z: K, POS and D are reserved (R73). -/
def formatZ (w : Word) (i : Instr) : Except Reject Instr :=
  acceptIf (kField w == 0#4 && posField w == 0#16 && dField w == 0#8) w i

/-- Format D: K and POS are reserved, and D is the byte c (R73). -/
def formatD (w : Word) (i : Byte → Instr) : Except Reject Instr :=
  acceptIf (kField w == 0#4 && posField w == 0#16) w (i (dField w))

/-- Format M: K, POS and D[7:1] are reserved, and D[0] is the mode m, 0 for EVEN and 1 for ODD (R72, R73). -/
def formatM (w : Word) (i : Parity → Instr) : Except Reject Instr :=
  acceptIf (kField w == 0#4 && posField w == 0#16 && (dField w).extractLsb' 1 7 == 0#7) w
    (i (if (dField w).getLsbD 0 then .odd else .even))

/-- Format QD: POS is reserved, K is the quad Q and D the byte c (R73). -/
def formatQD (w : Word) (i : Quad → Byte → Instr) : Except Reject Instr :=
  acceptIf (posField w == 0#16) w (i (kField w) (dField w))

/-- Format L: K and D are reserved, and POS is the length nbyte (R73). -/
def formatL (w : Word) (i : BitVec 16 → Instr) : Except Reject Instr :=
  acceptIf (kField w == 0#4 && dField w == 0#8) w (i (posField w))

/-- Format KP: D is reserved, K is the plane k and POS the position pos (R73). -/
def formatKP (w : Word) (i : BitVec 4 → BitVec 16 → Instr) : Except Reject Instr :=
  acceptIf (dField w == 0#8) w (i (kField w) (posField w))

/-- Format KPD: no bit is reserved (R73). -/
def formatKPD (w : Word) (i : BitVec 4 → BitVec 16 → Byte → Instr) : Except Reject Instr :=
  .ok (i (kField w) (posField w) (dField w))

/-- The decoder: the command a word is, or the reason it is illegal (R74, R75). It is total: every word answers. -/
def decode (w : Word) : Except Reject Instr :=
  match (opField w).toNat with
  | 0x0 => formatZ w .nop
  | 0x1 => formatM w .setMode
  | 0x2 => formatZ w .encBegin
  | 0x3 => formatD w .encChar
  | 0x4 => formatZ w .encEnd
  | 0x5 => formatL w .decBegin
  | 0x6 => formatZ w .decChar
  | 0x7 => formatZ w .decEnd
  | 0x8 => formatD w .hamEnc
  | 0x9 => formatQD w .hamDec
  | 0xA => formatKPD w .planeWr
  | 0xB => formatKP w .planeRd
  | 0xC => formatZ w .clear
  | _ => .error (.reservedOpcode (opField w))

/-- The word of an instruction whose bits are `w`, numbered as spec/opcode_table.json numbers them. A command is one parallel
32-bit word (R56, R70), so the table's bit i is the word's bit i, and bits at or above `nbits` are 0. -/
def tableWord (nbits w : Nat) : Word := BitVec.ofNat 32 (w % 2 ^ nbits)

/-- The instruction the decoder reads from the bits `w` of a row of spec/opcode_table.json. -/
def decodeTableWord (nbits w : Nat) : Option Instr :=
  match decode (tableWord nbits w) with
  | .ok i => some i
  | .error _ => none

/-- Put the four fields together: `{OP, K, POS, D}` (R71). -/
def packWord (op k : BitVec 4) (pos : BitVec 16) (d : Byte) : Word := op ++ k ++ pos ++ d

/-- The mode operand m as the byte D: 0 for EVEN and 1 for ODD (R72). -/
def modeByte : Parity → Byte
  | .even => 0x00#8
  | .odd => 0x01#8

/-- The encoder: the word of a command, from the formats of R73 and the opcodes of R74. -/
def encode : Instr → Word
  | .nop => packWord 0x0#4 0#4 0#16 0#8
  | .setMode m => packWord 0x1#4 0#4 0#16 (modeByte m)
  | .encBegin => packWord 0x2#4 0#4 0#16 0#8
  | .encChar c => packWord 0x3#4 0#4 0#16 c
  | .encEnd => packWord 0x4#4 0#4 0#16 0#8
  | .decBegin nbyte => packWord 0x5#4 0#4 nbyte 0#8
  | .decChar => packWord 0x6#4 0#4 0#16 0#8
  | .decEnd => packWord 0x7#4 0#4 0#16 0#8
  | .hamEnc c => packWord 0x8#4 0#4 0#16 c
  | .hamDec q c => packWord 0x9#4 q 0#16 c
  | .planeWr k pos c => packWord 0xA#4 k pos c
  | .planeRd k pos => packWord 0xB#4 k pos 0#8
  | .clear => packWord 0xC#4 0#4 0#16 0#8

/-- One row of the opcode map (R74): a word is the named command when `w &&& mask = match`. -/
structure OpcodeRow where
  mnemonic : String
  matchBits : Word
  maskBits : Word
deriving DecidableEq, Repr

/-- The row of the opcode map that a command belongs to (R74). -/
def opcodeRow : Instr → OpcodeRow
  | .nop => ⟨"NOP", 0x00000000#32, 0xFFFFFFFF#32⟩
  | .setMode _ => ⟨"SETMODE", 0x10000000#32, 0xFFFFFFFE#32⟩
  | .encBegin => ⟨"ENC_BEGIN", 0x20000000#32, 0xFFFFFFFF#32⟩
  | .encChar _ => ⟨"ENC_CHAR", 0x30000000#32, 0xFFFFFF00#32⟩
  | .encEnd => ⟨"ENC_END", 0x40000000#32, 0xFFFFFFFF#32⟩
  | .decBegin _ => ⟨"DEC_BEGIN", 0x50000000#32, 0xFF0000FF#32⟩
  | .decChar => ⟨"DEC_CHAR", 0x60000000#32, 0xFFFFFFFF#32⟩
  | .decEnd => ⟨"DEC_END", 0x70000000#32, 0xFFFFFFFF#32⟩
  | .hamEnc _ => ⟨"HAM_ENC", 0x80000000#32, 0xFFFFFF00#32⟩
  | .hamDec _ _ => ⟨"HAM_DEC", 0x90000000#32, 0xF0FFFF00#32⟩
  | .planeWr _ _ _ => ⟨"PLANE_WR", 0xA0000000#32, 0xF0000000#32⟩
  | .planeRd _ _ => ⟨"PLANE_RD", 0xB0000000#32, 0xF00000FF#32⟩
  | .clear => ⟨"CLEAR", 0xC0000000#32, 0xFFFFFFFF#32⟩

/-- The thirteen valid rows of the opcode map, in its order (R74). -/
def opcodeMap : List OpcodeRow :=
  [opcodeRow .nop, opcodeRow (.setMode .even), opcodeRow .encBegin, opcodeRow (.encChar 0), opcodeRow .encEnd,
   opcodeRow (.decBegin 0), opcodeRow .decChar, opcodeRow .decEnd, opcodeRow (.hamEnc 0), opcodeRow (.hamDec 0 0),
   opcodeRow (.planeWr 0 0 0), opcodeRow (.planeRd 0 0), opcodeRow .clear]

end Sys2Proof
end

