-- ==== Sys2Proof/Machine/Hamming.lean ====
section
/-! DEFINITION. The combinational functions of the three leaf components: BitExtractor, HammingEncoder and SyndromeDecoder
(40_hamming_datapath.md R100 to R111), and the twelve plane bits of a character (R130, R151). All are pure and total. -/

namespace Sys2Proof.Machine

/-! ### BitExtractor -/

/-- `bitsOf(c)`: the BitVector of a byte, `bits[i] = c[7 - i]`, so `bits[0]` is the MSB (R100). -/
def bitsOf (c : Byte) : Vector Bool 8 := Vector.ofFn fun i => c.getMsbD i.val

/-- `byteOf(bits)`: eight bits packed MSB-first into one byte (R101). -/
def byteOf (bits : Vector Bool 8) : Byte :=
  BitVec.ofBool bits[0] ++ BitVec.ofBool bits[1] ++ BitVec.ofBool bits[2] ++ BitVec.ofBool bits[3] ++
  BitVec.ofBool bits[4] ++ BitVec.ofBool bits[5] ++ BitVec.ofBool bits[6] ++ BitVec.ofBool bits[7]

/-! ### HammingEncoder -/

/-- A quad from its four bits, `[p1, p2, p4, p8]` in bits 0 to 3 (R15). -/
def quadOf (p1 p2 p4 p8 : Bool) : Quad :=
  BitVec.ofBool p8 ++ BitVec.ofBool p4 ++ BitVec.ofBool p2 ++ BitVec.ofBool p1

/-- `s1 = (b0+b1+b3+b4+b6) mod 2` (R103). -/
def checkSum1 (b : Vector Bool 8) : Bool := b[0] ^^ b[1] ^^ b[3] ^^ b[4] ^^ b[6]

/-- `s2 = (b0+b2+b3+b5+b6) mod 2` (R103). -/
def checkSum2 (b : Vector Bool 8) : Bool := b[0] ^^ b[2] ^^ b[3] ^^ b[5] ^^ b[6]

/-- `s4 = (b1+b2+b3+b7) mod 2` (R103). -/
def checkSum4 (b : Vector Bool 8) : Bool := b[1] ^^ b[2] ^^ b[3] ^^ b[7]

/-- `s8 = (b4+b5+b6+b7) mod 2` (R103; 90_conflicts.md C2). -/
def checkSum8 (b : Vector Bool 8) : Bool := b[4] ^^ b[5] ^^ b[6] ^^ b[7]

/-- `S(c)`, the raw syndrome word `{s8, s4, s2, s1}` (R104). -/
def rawSyndrome (c : Byte) : Quad :=
  let b := bitsOf c
  quadOf (checkSum1 b) (checkSum2 b) (checkSum4 b) (checkSum8 b)

/-- What a mode exclusive-ors into the four sums: 0xF under ODD and 0x0 under EVEN (R105). -/
def modeMask : Parity → Quad
  | .even => 0x0#4
  | .odd => 0xF#4

/-- `parityOf(c, m) = S(c) ^ (m == ODD ? 0xF : 0x0)`, the emitted quad (R105). -/
def parityOf (c : Byte) (m : Parity) : Quad := rawSyndrome c ^^^ modeMask m

/-! ### SyndromeDecoder -/

/-- The failing-check mask `F = parityOf(c, m) ^ Q` (R106; 90_conflicts.md C1). -/
def failMask (c : Byte) (q : Quad) (m : Parity) : Quad := parityOf c m ^^^ q

/-- `popcount(v)`, the number of 1 bits (R16). -/
def popcount {w : Nat} (v : BitVec w) : Nat := (List.range w).countP v.getLsbD

/-- The byte mask the correction table exclusive-ors into c: one row for each pair of failing checks (R108). For the ten values
of F that are no pair it is 0, and no row of the table is meant. -/
def flipMask (f : Quad) : Byte :=
  match f.toNat with
  | 0x3 => 0x80#8
  | 0x5 => 0x40#8
  | 0x9 => 0x08#8
  | 0x6 => 0x20#8
  | 0xA => 0x04#8
  | 0xC => 0x01#8
  | _ => 0x00#8

/-- `flagged = (errors == 1 || errors == 3 || errors == 4)` (R109). -/
def flaggedBy (errors : Nat) : Bool := errors == 1 || errors == 3 || errors == 4

/-- What `correct` returns: `(c', F, errors, flagged)` (R110). -/
structure Corrected where
  byte : Byte
  fail : Quad
  errors : Nat
  flagged : Bool
deriving DecidableEq, Repr

/-- `correct(c, Q, m)` (R110): with two failing checks one data bit is flipped, and otherwise the byte is unmodified. -/
def correct (c : Byte) (q : Quad) (m : Parity) : Corrected :=
  let f := failMask c q m
  let errors := popcount f
  { byte := if errors = 2 then c ^^^ flipMask f else c
    fail := f
    errors := errors
    flagged := flaggedBy errors }

/-- `printable(c)`: exactly the bytes 0x20 to 0x7E (R111). -/
def printable (c : Byte) : Bool := decide (0x20 ≤ c.toNat) && decide (c.toNat ≤ 0x7E)

/-! ### The plane bits of a character -/

/-- `planeBits(c, m)`: planes 0 to 7 carry the data bits, MSB first, and planes 8 to 11 the parity bits p1, p2, p4, p8
(R130). -/
def planeBits (c : Byte) (m : Parity) : Vector Bool 12 :=
  Vector.ofFn fun k => if k.val < 8 then c.getMsbD k.val else (parityOf c m).getLsbD (k.val - 8)

/-- The character a slot's twelve bits carry, `byteOf(g[0..7])` (R151). -/
def slotByte (g : Vector Bool 12) : Byte := byteOf #v[g[0], g[1], g[2], g[3], g[4], g[5], g[6], g[7]]

/-- The quad a slot's twelve bits carry, `{g[11], g[10], g[9], g[8]}` (R151). -/
def slotQuad (g : Vector Bool 12) : Quad := quadOf g[8] g[9] g[10] g[11]

end Sys2Proof.Machine
end

