-- ==== Sys2Proof/Config.lean ====
section
/-! DEFINITION. What an implementation of HAMC fixes: the one OPEN parameter MAX_N of the block (00_scope.md R11, decision D3). -/

namespace Sys2Proof

/-- How far the implementation's MAX_N lies below the greatest value R11 allows. R11 gives no number, so this has no body:
nothing in Lean can prove a value of it (log entry 1). -/
opaque Config.headroom : Fin 524280

/-- MAX_N, the OPEN parameter of R11. Every value from 1 to 524280 is one value of `Config.headroom`, and no other is. -/
def Config.maxN : Nat := (524279 - Config.headroom.val) + 1

end Sys2Proof
end

