-- ==== Sys2Proof/Machine/State.lean ====
section
/-! DEFINITION. The state of HAMC as plain data (10_state.md R20 to R38), the reasons a step can stop, and the state after
power-on reset (70_reset_and_hazards.md R220, R221). -/

namespace Sys2Proof.Machine

/-- PHASE (R20): the two-bit register whose values 0 to 3 are these four, in order. -/
inductive Phase where
  | idle
  | encoding
  | decoding
  | fault
deriving DecidableEq, Repr

/-- ERR (R190): the codes 0 to 6, in order. Codes 7 to 15 are never produced, so they are no values of this type. -/
inductive ErrCode where
  | none
  | illegalCommand
  | sequence
  | planeRange
  | emptyInput
  | sizeExceeded
  | decodeOverrun
deriving DecidableEq, Repr

/-- What the one host does to the block between two reads: it sends a command word on the command port (R22, R62), or it
resets the block (R220, R221). -/
inductive HostEvent where
  /-- A 32-bit word on the command port (R4, R70). -/
  | command (w : Word)
  /-- A reset after power-on: the registers reset and the plane buffers stay (R221). -/
  | reset
deriving DecidableEq, Repr

/-- The plane buffers as listed bytes: the key of `PLANE[k][pos]` is `k` and `pos` written as one number (see `planeAddr`).
A byte that is not listed has never been written since power-on (R36). -/
abbrev Memory := List Host.Cell

/-- Everything the spec gives the machine (R20, R28, R32), and the host's pending input. -/
structure State where
  /-- MODE, 1 bit (R20). -/
  mode : Parity
  /-- PHASE, 2 bits (R20). -/
  phase : Phase
  /-- ERR, 4 bits (R20, R190). -/
  err : ErrCode
  /-- FLAG_ANY, 1 bit (R24). -/
  flagAny : Bool
  /-- ACC[0..11], 8 bits each (R30). -/
  acc : Vector Byte 12
  /-- ECNT, 3 bits (R20). -/
  ecnt : BitVec 3
  /-- N, 20 bits (R20). -/
  n : BitVec 20
  /-- NBYTE, 16 bits (R33). -/
  nbyte : BitVec 16
  /-- DPOS, 20 bits (R20). -/
  dpos : BitVec 20
  /-- RES, 32 bits (R27). -/
  res : BitVec 32
  /-- PLANE[0..11][0..B-1], each byte with its written or never-written state (R32, R36). -/
  plane : Memory
  /-- MAX_N, the parameter the constant registers MAXN and PBYTES are wired to (R11, R28). The model takes it as an argument
  by holding it here: no command and no reset changes it (log entry 1). -/
  maxN : Nat
  /-- What the host is still to do, oldest first. The model's own field: the spec has one host that delivers command words one
  at a time (R22, R62), and nothing in the block fetches them (log entry 2). -/
  port : List HostEvent
deriving DecidableEq, Repr

/-- The reasons the MODEL stops. HAMC's own faults (R190) are not here: they are next states in the FAULT phase (R194). -/
inductive Fault where
  /-- DEC_CHAR or PLANE_RD read plane byte `(k, pos)`, which nothing has written since power-on: a model fault by R36, R221 and
  U1. SAFE: the hardware goes on with some byte, and the model claims nothing of such a run. -/
  | neverWritten (k pos : Nat)
  /-- ENC_CHAR, ENC_END or DEC_CHAR would reach a position `pos >= B`, which R52 says cannot happen: no state that meets
  `Safety.Invariant` raises it. SAFE: it stops only in states no run reaches. -/
  | noSuchLocation (pos : Nat)
deriving DecidableEq, Repr

/-- The reasons the model has no meaning for a command. -/
inductive Refusal where
  /-- Raised by an arm of `exec` whose instruction has no meaning yet. SAFE: no arm raises it now. -/
  | notModelled (mnemonic : String)
deriving DecidableEq, Repr

/-- What a command or a step answers. -/
abbrev Result := Host.Outcome State Fault Refusal

/-- The machine after power-on reset with the parameter MAX_N (R220, R221): every register 0, MODE EVEN, PHASE IDLE, and every
plane byte never-written. The host has sent nothing yet. -/
def State.powerOn (maxN : Nat) : State where
  mode := .even
  phase := .idle
  err := .none
  flagAny := false
  acc := Vector.replicate 12 0#8
  ecnt := 0#3
  n := 0#20
  nbyte := 0#16
  dpos := 0#20
  res := 0#32
  plane := []
  maxN := maxN
  port := []

/-- The machine right after power-on reset, with the implementation's MAX_N (R11, R220, R221). -/
def State.reset : State := State.powerOn Config.maxN

end Sys2Proof.Machine
end

