-- ==== Sys2Proof/Machine/Ops.lean ====
section
/-! DEFINITION. The shared operations: the parameter B, the plane buffers, fault entry, reset, the phase check that every
command passes first, and the taking of the host's next input. -/

namespace Sys2Proof.Machine

/-! ### The parameter B -/

/-- `ceil(x / 8)`, which is `(x + 7) / 8` (R16; `ceilDiv8_eq` in Laws). Written by cases so that it is seen to be positive
for a positive x whose value is not known. -/
def ceilDiv8 : Nat → Nat
  | 0 => 0
  | x + 1 => x / 8 + 1

/-- `B = ceil(MAX_N / 8)`, the bytes of each plane buffer (R12). -/
def planeBytes (s : State) : Nat := ceilDiv8 s.maxN

/-! ### The plane buffer space -/

/-- The planes 0 to 11 (R10). -/
def planeIndices : List (Fin 12) := List.finRange 12

/-- The key of location `(k, pos)` in the listed memory: the plane index (4 bits) above the position (16 bits) (R50). -/
def planeAddr (k pos : Nat) : Nat := k * 65536 + pos

/-- The byte listed at an address, or none for a byte that was never written (R36). -/
def Memory.byteAt : Memory → Nat → Option Byte
  | [], _ => none
  | (b, x) :: m, a => if a = b then some x else Memory.byteAt m a

/-- Write one byte, keeping the list sorted and without repeats. An unlisted byte reads as no value, so no written byte is ever
dropped from the list. -/
def Memory.write : Memory → Nat → Byte → Memory
  | [], a, v => [(a, v)]
  | (b, x) :: m, a, v =>
    if a < b then (a, v) :: (b, x) :: m
    else if a = b then (a, v) :: m
    else (b, x) :: Memory.write m a v

/-- The canonical form: addresses strictly rising. (No entry can equal what an unlisted address reads as, because that is no
value.) -/
abbrev Memory.wf (m : Memory) : Prop := (m.map Prod.fst).Pairwise (· < ·)

/-- `MemRead((k, pos), 1)` (R52): the byte of plane k at pos, or none where it was never written (R36). -/
def readPlane (s : State) (k pos : Nat) : Option Byte := s.plane.byteAt (planeAddr k pos)

/-- `MemWrite((k, pos), 1, v)` (R52). -/
def writePlane (k pos : Nat) (v : Byte) (s : State) : State :=
  { s with plane := s.plane.write (planeAddr k pos) v }

/-- Write one byte to each plane of `ks` at one position. -/
def Memory.writeGroup (pos : Nat) (bytes : Vector Byte 12) : List (Fin 12) → Memory → Memory
  | [], m => m
  | k :: ks, m => Memory.writeGroup pos bytes ks (m.write (planeAddr k.val pos) bytes[k])

/-- The first plane whose byte at `pos` was never written, in the order k = 0 to 11 in which a group is read (R150). -/
def firstUnwritten (s : State) (pos : Nat) : Option (Fin 12) :=
  planeIndices.find? (fun k => (readPlane s k.val pos).isNone)

/-- The whole group at `pos`: the twelve bytes `PLANE[k][pos]` (R58, R150). It stops on a byte that was never written (R36),
and on a position that does not exist (R52). The 0 below is never read: it stands behind the check that every byte is
written. -/
def readGroup (s : State) (pos : Nat) : Except Fault (Vector Byte 12) :=
  if pos < planeBytes s then
    match firstUnwritten s pos with
    | some k => .error (.neverWritten k.val pos)
    | none => .ok (Vector.ofFn fun k => (readPlane s k.val pos).getD 0#8)
  else .error (.noSuchLocation pos)

/-! ### Fault entry, and the return from FAULT -/

/-- Fault entry, `raise Fault(code)`: PHASE becomes FAULT and ERR the code, and nothing else changes (R194). -/
def raiseFault (code : ErrCode) (s : State) : State := { s with phase := .fault, err := code }

/-- Every register at its reset value. The plane buffers, each byte's written or never-written state, and the parameter stay
(R174, R220, R221). CLEAR and reset are the only returns from FAULT (R196). -/
def resetRegisters (s : State) : State :=
  { s with
    mode := .even
    phase := .idle
    err := .none
    flagAny := false
    acc := Vector.replicate 12 0#8
    ecnt := 0#3
    n := 0#20
    nbyte := 0#16
    dpos := 0#20
    res := 0#32 }

/-! ### The checks before a command's own effect -/

/-- What happens to every command but CLEAR before its own effect: in FAULT the word has no effect (R195); in a phase in which
the command is not legal it raises SEQUENCE (R191 check 2, R192); otherwise `run` is its answer. -/
def inPhases (allowed : List Phase) (s : State) (run : Result) : Result :=
  if s.phase = .fault then .next s
  else if s.phase ∈ allowed then run
  else .next (raiseFault .sequence s)

/-- An illegal word: no effect in FAULT (R195), and ILLEGAL_COMMAND in every other phase (R75, R191 check 1). -/
def illegalWord (s : State) : Result :=
  if s.phase = .fault then .next s else .next (raiseFault .illegalCommand s)

/-! ### The host's input -/

/-- What the host does next, if anything (R62). -/
def nextEvent (s : State) : Option HostEvent := s.port.head?

/-- The state with that input taken: a command is accepted once (R22). -/
def popEvent (s : State) : State := { s with port := s.port.tail }

/-- The state in which the host sends the word `w` next. -/
def sendWord (w : Word) (s : State) : State := { s with port := .command w :: s.port }

/-- A reset after power-on (R220, R221). -/
def hostReset (s : State) : Result := .next (resetRegisters s)

end Sys2Proof.Machine
end

