-- ==== Sys2Proof/Machine/Flags.lean ====
section
/-! DEFINITION. The result register and the flags: the layout of RES (10_state.md R27), the per-character flag and the sticky
flag FLAG_ANY (R23, R24). HAMC has no arithmetic condition codes (R25). -/

namespace Sys2Proof.Machine

/-- RES from its fields: `{0, RPRINT, RFLAG, RERRS, RFAIL, RQUAD, RBYTE}`, bits 31 to 21 reading 0 (R27). -/
def packRes (print flag : Bool) (errors : Nat) (fail quad : Quad) (byte : Byte) : BitVec 32 :=
  0#11 ++ BitVec.ofBool print ++ BitVec.ofBool flag ++ BitVec.ofNat 3 errors ++ fail ++ quad ++ byte

/-- RES after HAM_ENC: the byte, its quad and its printability, and no failing check (R112). -/
def encodedRes (c : Byte) (m : Parity) : BitVec 32 :=
  packRes (printable c) false 0 0#4 (parityOf c m) c

/-- RES after HAM_DEC and DEC_CHAR: the corrected byte, the received quad, and what the decoder found (R113, R154). -/
def decodedRes (r : Corrected) (q : Quad) : BitVec 32 :=
  packRes (printable r.byte) r.flagged r.errors r.fail q r.byte

/-- RES after PLANE_RD: the byte, zero-extended (R171). -/
def byteRes (b : Byte) : BitVec 32 := b.setWidth 32

/-- Write RES, which each result-producing command replaces in full (R27, R227). -/
def setRes (v : BitVec 32) (s : State) : State := { s with res := v }

/-- The sticky flag after a decoded character, `FLAG_ANY | flagged` (R24). -/
def stickyFlag (flag : Bool) (s : State) : State := { s with flagAny := s.flagAny || flag }

end Sys2Proof.Machine
end

