-- ==== Sys2Proof/Machine/Operands.lean ====
section
/-! DEFINITION. The operand forms: a location `(k, pos)` with its range check (R191), a plane byte length, and the slot a decode
position names (R54, R150). -/

namespace Sys2Proof.Machine

/-- The range check of PLANE_WR and PLANE_RD: `k >= 12 or pos >= B` raises PLANE_RANGE (R191 check 3). -/
def locationInRange (s : State) (k : BitVec 4) (pos : BitVec 16) : Bool :=
  decide (k.toNat < 12) && decide (pos.toNat < planeBytes s)

/-- The operand check of DEC_BEGIN: EMPTY_INPUT when nbyte is 0, and otherwise PLANE_RANGE when `nbyte > B` (R191 check 3).
ERR's code NONE stands for no fault. -/
def lengthFault (s : State) (nbyte : BitVec 16) : ErrCode :=
  if nbyte = 0#16 then .emptyInput
  else if planeBytes s < nbyte.toNat then .planeRange
  else .none

/-- The byte position of slot i, `i >> 3` (R54, R150). -/
def slotPos (i : Nat) : Nat := i / 8

/-- The bit of slot i in its plane byte, counted from the MSB: `i mod 8`, which is bit `7 - (i & 7)` (R54, R150). -/
def slotBit (i : Nat) : Nat := i % 8

/-- Slot i of the planes: the twelve bits `g[k] = MemRead((k, i >> 3), 1)[7 - (i & 7)]` (R150). -/
def readSlot (s : State) (i : Nat) : Except Fault (Vector Bool 12) :=
  match readGroup s (slotPos i) with
  | .error f => .error f
  | .ok bytes => .ok (Vector.ofFn fun k => bytes[k].getMsbD (slotBit i))

end Sys2Proof.Machine
end

