-- ==== Sys2Proof/Machine/Buffer.lean ====
section
/-! DEFINITION. The host's access to the plane buffers: PLANE_WR and PLANE_RD (43_buffer_and_control.md section 1). -/

namespace Sys2Proof.Machine

/-- PLANE_RD's effect at a location that exists: the byte into RES. Reading a byte never written since power-on is a model
fault (R171, R36). -/
def fetchPlane (k pos : Nat) (s : State) : Result :=
  match readPlane s k pos with
  | none => .fault (.neverWritten k pos)
  | some b => .next (setRes (byteRes b) s)

/-- PLANE_WR: writes one byte of one plane buffer, in IDLE only; PLANE_RANGE outside the buffers (R170). -/
def execPlaneWr (k : BitVec 4) (pos : BitVec 16) (c : Byte) (s : State) : Result :=
  inPhases [.idle] s
    (if locationInRange s k pos then .next (writePlane k.toNat pos.toNat c s)
     else .next (raiseFault .planeRange s))

/-- PLANE_RD: reads one byte of one plane buffer into RES, in IDLE only; PLANE_RANGE outside the buffers (R171). -/
def execPlaneRd (k : BitVec 4) (pos : BitVec 16) (s : State) : Result :=
  inPhases [.idle] s
    (if locationInRange s k pos then fetchPlane k.toNat pos.toNat s
     else .next (raiseFault .planeRange s))

end Sys2Proof.Machine
end

