-- ==== Sys2Proof/Machine/Control.lean ====
section
/-! DEFINITION. The control commands: NOP, SETMODE and CLEAR (43_buffer_and_control.md section 2). -/

namespace Sys2Proof.Machine

/-- NOP: no state changes, in any phase (R173). -/
def execNop (s : State) : Result := inPhases [.idle, .encoding, .decoding] s (.next s)

/-- MODE <- m (R172). -/
def setMode (m : Parity) (s : State) : State := { s with mode := m }

/-- SETMODE: sets the parity mode, in IDLE only (R172). -/
def execSetMode (m : Parity) (s : State) : Result := inPhases [.idle] s (.next (setMode m s))

/-- CLEAR: every register to its reset value and the plane buffers as they are, in every phase, FAULT included (R174). -/
def execClear (s : State) : Result := .next (resetRegisters s)

end Sys2Proof.Machine
end

