-- ==== Sys2Proof/Machine/Datapath.lean ====
section
/-! DEFINITION. The two commands that expose the datapath: HAM_ENC and HAM_DEC (40_hamming_datapath.md section 4). -/

namespace Sys2Proof.Machine

/-- HAM_ENC: the HammingQuad of one byte under the current mode, into RES and nowhere else (R112). -/
def execHamEnc (c : Byte) (s : State) : Result :=
  inPhases [.idle, .encoding, .decoding] s (.next (setRes (encodedRes c s.mode) s))

/-- HAM_DEC: the SyndromeDecoder on one received byte and quad under the current mode, into RES and nowhere else: FLAG_ANY is
unchanged (R113, R24). -/
def execHamDec (q : Quad) (c : Byte) (s : State) : Result :=
  inPhases [.idle, .encoding, .decoding] s (.next (setRes (decodedRes (correct c q s.mode) q) s))

end Sys2Proof.Machine
end

