-- ==== Sys2Proof/Machine/Packer.lean ====
section
/-! DEFINITION. PlanePacker, the encode pass: ENC_BEGIN, ENC_CHAR and ENC_END (41_plane_packer.md section 3). -/

namespace Sys2Proof.Machine

/-- The accumulators with nothing packed. -/
def emptyAcc : Vector Byte 12 := Vector.replicate 12 0#8

/-- One character shifted in: `ACC[k] <- ((ACC[k] << 1) | g[k])[7:0]` for every plane (R134). -/
def shiftIn (acc : Vector Byte 12) (g : Vector Bool 12) : Vector Byte 12 :=
  Vector.ofFn fun k => (acc[k] <<< 1) ||| (BitVec.ofBool g[k]).setWidth 8

/-- The partial group left-aligned, zeros shifted in: `(ACC[k] << (8 - ECNT))[7:0]` for every plane (R135). -/
def leftAlign (acc : Vector Byte 12) (ecnt : BitVec 3) : Vector Byte 12 :=
  Vector.ofFn fun k => acc[k] <<< (8 - ecnt.toNat)

/-- ENC_BEGIN's effect: an encode pass with nothing packed; the plane buffers are not cleared (R133, R36). -/
def beginEncode (s : State) : State :=
  { s with phase := .encoding, n := 0#20, ecnt := 0#3, nbyte := 0#16, acc := emptyAcc }

/-- Forget the group: every ACC and ECNT become 0 (R134, R135). -/
def emptyGroup (s : State) : State := { s with acc := emptyAcc, ecnt := 0#3 }

/-- Write a group's twelve bytes at position NBYTE and advance NBYTE (R134, R135). NBYTE is always below B where this runs
(R134); a state in which it is not is one no run reaches, and the location does not exist (R52). -/
def storeGroup (bytes : Vector Byte 12) (s : State) : Result :=
  if s.nbyte.toNat < planeBytes s then
    .next { s with plane := Memory.writeGroup s.nbyte.toNat bytes planeIndices s.plane, nbyte := s.nbyte + 1#16 }
  else .fault (.noSuchLocation s.nbyte.toNat)

/-- ENC_CHAR's effect within the bound: the character joins the group, N counts it, and a group of eight is stored (R134). -/
def packChar (c : Byte) (s : State) : Result :=
  let acc := shiftIn s.acc (planeBits c s.mode)
  if s.ecnt = 7#3 then storeGroup acc { emptyGroup s with n := s.n + 1#20 }
  else .next { s with acc := acc, n := s.n + 1#20, ecnt := s.ecnt + 1#3 }

/-- ENC_END's effect: a pending partial group is stored left-aligned, the group is forgotten, and PHASE is IDLE (R135). -/
def finishEncode (s : State) : Result :=
  let done : State := { emptyGroup s with phase := .idle }
  if s.ecnt = 0#3 then .next done
  else storeGroup (leftAlign s.acc s.ecnt) done

/-- ENC_BEGIN: starts an encode pass, in IDLE only (R133). -/
def execEncBegin (s : State) : Result := inPhases [.idle] s (.next (beginEncode s))

/-- ENC_CHAR: packs one message character, in ENCODING only; SIZE_EXCEEDED when `N == MAX_N` before the command (R134). -/
def execEncChar (c : Byte) (s : State) : Result :=
  inPhases [.encoding] s
    (if s.n.toNat = s.maxN then .next (raiseFault .sizeExceeded s) else packChar c s)

/-- ENC_END: ends an encode pass and stores the final partial group, in ENCODING only (R135). -/
def execEncEnd (s : State) : Result := inPhases [.encoding] s (finishEncode s)

end Sys2Proof.Machine
end

