-- ==== Sys2Proof/Machine/Unpacker.lean ====
section
/-! DEFINITION. PlaneUnpacker, the decode pass: DEC_BEGIN, DEC_CHAR and DEC_END (42_plane_unpacker.md section 2). -/

namespace Sys2Proof.Machine

/-- DEC_BEGIN's effect: a decode pass over nbyte bytes per plane, at slot 0, with no character flagged yet (R153). -/
def beginDecode (nbyte : BitVec 16) (s : State) : State :=
  { s with nbyte := nbyte, dpos := 0#20, flagAny := false, phase := .decoding }

/-- DPOS <- DPOS + 1 (R154). -/
def nextSlot (s : State) : State := { s with dpos := s.dpos + 1#20 }

/-- DEC_END's effect (R155). -/
def endDecode (s : State) : State := { s with phase := .idle }

/-- What a decoded slot writes: RES, FLAG_ANY and DPOS (R154). -/
def deliverSlot (g : Vector Bool 12) (s : State) : State :=
  let r := correct (slotByte g) (slotQuad g) s.mode
  nextSlot (stickyFlag r.flagged (setRes (decodedRes r (slotQuad g)) s))

/-- DEC_CHAR's effect on a slot of the pass. A slot that reads a never-written byte is a model fault (R36, R153). -/
def decodeSlot (s : State) : Result :=
  match readSlot s s.dpos.toNat with
  | .error f => .fault f
  | .ok g => .next (deliverSlot g s)

/-- DEC_BEGIN: starts a decode pass, in IDLE only; EMPTY_INPUT for a length of 0, PLANE_RANGE for one above B (R153). -/
def execDecBegin (nbyte : BitVec 16) (s : State) : Result :=
  inPhases [.idle] s
    (if lengthFault s nbyte = .none then .next (beginDecode nbyte s)
     else .next (raiseFault (lengthFault s nbyte) s))

/-- DEC_CHAR: decodes and corrects the character of slot DPOS, in DECODING only; DECODE_OVERRUN when `DPOS == 8 * NBYTE`
before the command (R154). -/
def execDecChar (s : State) : Result :=
  inPhases [.decoding] s
    (if s.dpos.toNat = 8 * s.nbyte.toNat then .next (raiseFault .decodeOverrun s) else decodeSlot s)

/-- DEC_END: ends a decode pass at any DPOS, in DECODING only (R155). -/
def execDecEnd (s : State) : Result := inPhases [.decoding] s (.next (endDecode s))

end Sys2Proof.Machine
end

