-- ==== Sys2Proof/Machine/Dispatch.lean ====
section
/-! DEFINITION. The dispatch of a command to its meaning, one arm per row of the opcode map (30_encoding.md R74). -/

namespace Sys2Proof.Machine

/-- Execute one command (R74). -/
def exec (i : Instr) (s : State) : Host.Outcome State Fault Refusal :=
  match i with
  | .nop => Sys2Proof.Machine.execNop s
  | .setMode m => Sys2Proof.Machine.execSetMode m s
  | .encBegin => Sys2Proof.Machine.execEncBegin s
  | .encChar c => Sys2Proof.Machine.execEncChar c s
  | .encEnd => Sys2Proof.Machine.execEncEnd s
  | .decBegin nbyte => Sys2Proof.Machine.execDecBegin nbyte s
  | .decChar => Sys2Proof.Machine.execDecChar s
  | .decEnd => Sys2Proof.Machine.execDecEnd s
  | .hamEnc c => Sys2Proof.Machine.execHamEnc c s
  | .hamDec q c => Sys2Proof.Machine.execHamDec q c s
  | .planeWr k pos c => Sys2Proof.Machine.execPlaneWr k pos c s
  | .planeRd k pos => Sys2Proof.Machine.execPlaneRd k pos s
  | .clear => Sys2Proof.Machine.execClear s

end Sys2Proof.Machine
end

