-- ==== Sys2Proof/Machine/Step.lean ====
section
/-! DEFINITION. One step of the machine: the block takes the host's next input and completes it (20_memory.md R62). -/

namespace Sys2Proof.Machine

/-- One step. The block accepts the host's next command and completes it before the next one (R4, R62); an illegal word is
answered as R75 and R195 say; a reset resets the registers (R220); between inputs the block holds its state (R205). -/
def step (s : State) : Host.Outcome State Fault Refusal :=
  match nextEvent s with
  | none => .next s
  | some .reset => hostReset (popEvent s)
  | some (.command w) =>
    match decode w with
    | .ok i => exec i (popEvent s)
    | .error _ => illegalWord (popEvent s)

/-- `s` with the instruction whose bits are `w` (numbered as spec/opcode_table.json numbers them) sent by the host next, so
that `step` accepts and runs exactly it. HAMC fetches nothing: commands arrive on the command port (R64; log entry 2). -/
def State.withFetchWord (s : State) (nbits w : Nat) : State := sendWord (tableWord nbits w) s

end Sys2Proof.Machine
end

