-- ==== Sys2Proof/Machine/Assembler.lean ====
section
/-! DEFINITION. The assembler (30_encoding.md R78, R79): one command or pseudo-instruction per line, as characters, into command
words. It is no part of a step: it says which words a line of the spec's programs stands for. -/

namespace Sys2Proof.Machine

/-! ### Tokens -/

/-- The tokens of a line (R78). -/
inductive AsmToken where
  /-- A mnemonic, or `even` or `odd`. -/
  | word (cs : List Char)
  /-- A number, decimal or hexadecimal. -/
  | num (n : Nat)
  /-- A character literal `'c'`, meaning the character's ASCII code. -/
  | chr (code : Nat)
  /-- A string literal `"s"`, as the codes of its characters. -/
  | str (codes : List Nat)
  | comma
deriving DecidableEq, Repr

/-- A decimal digit's value. -/
def decDigit (c : Char) : Option Nat :=
  if '0'.toNat ≤ c.toNat ∧ c.toNat ≤ '9'.toNat then some (c.toNat - '0'.toNat) else none

/-- A hexadecimal digit's value, in either case. -/
def hexDigit (c : Char) : Option Nat :=
  if '0'.toNat ≤ c.toNat ∧ c.toNat ≤ '9'.toNat then some (c.toNat - '0'.toNat)
  else if 'a'.toNat ≤ c.toNat ∧ c.toNat ≤ 'f'.toNat then some (c.toNat - 'a'.toNat + 10)
  else if 'A'.toNat ≤ c.toNat ∧ c.toNat ≤ 'F'.toNat then some (c.toNat - 'A'.toNat + 10)
  else none

/-- A lower-case letter or a dot: what a mnemonic is made of (R78). -/
def isMnemonicChar (c : Char) : Bool :=
  (decide ('a'.toNat ≤ c.toNat) && decide (c.toNat ≤ 'z'.toNat)) || c == '.'

/-- A character that can stand in a number. -/
def isNumberChar (c : Char) : Bool := (hexDigit c).isSome || c == 'x'

/-- The number whose digits are `ds`, most significant first, after `acc`; no digit at all is no number. -/
def digitsValue (digit : Char → Option Nat) (base : Nat) : Nat → List Char → Option Nat
  | acc, [] => some acc
  | acc, c :: cs =>
    match digit c with
    | some d => digitsValue digit base (acc * base + d) cs
    | none => none

/-- A number: hexadecimal with a `0x` prefix, and otherwise decimal (R78). -/
def numberValue : List Char → Option Nat
  | '0' :: 'x' :: d :: ds => digitsValue hexDigit 16 0 (d :: ds)
  | d :: ds => digitsValue decDigit 10 0 (d :: ds)
  | [] => none

/-- An ASCII code (R78: a character literal means the character's ASCII code). -/
def asciiCode (c : Char) : Option Nat := if c.toNat < 128 then some c.toNat else none

/-- The ASCII codes of a string's characters (R79: one byte each). -/
def asciiCodes : List Char → Option (List Nat)
  | [] => some []
  | c :: cs =>
    match asciiCode c, asciiCodes cs with
    | some n, some ns => some (n :: ns)
    | _, _ => none

/-- The tokens of a line, or none where it is no line of R78. Spaces and tabs separate tokens, and a `;` outside a literal
starts a comment. The first argument is fuel: the line's length is enough, since every token takes a character. -/
def tokens : Nat → List Char → Option (List AsmToken)
  | _, [] => some []
  | 0, _ :: _ => none
  | fuel + 1, c :: cs =>
    if c = ';' then some []
    else if c = ' ' ∨ c = '\t' then tokens fuel cs
    else if c = ',' then (tokens fuel cs).map (AsmToken.comma :: ·)
    else if c = '\'' then
      match cs with
      | x :: q :: rest =>
        if q = '\'' then
          match asciiCode x with
          | some n => (tokens fuel rest).map (AsmToken.chr n :: ·)
          | none => none
        else none
      | _ => none
    else if c = '"' then
      match cs.dropWhile (· ≠ '"'), asciiCodes (cs.takeWhile (· ≠ '"')) with
      | _ :: rest, some ns => (tokens fuel rest).map (AsmToken.str ns :: ·)
      | _, _ => none
    else if (decDigit c).isSome then
      match numberValue (c :: cs.takeWhile isNumberChar) with
      | some n => (tokens fuel (cs.dropWhile isNumberChar)).map (AsmToken.num n :: ·)
      | none => none
    else if isMnemonicChar c then
      (tokens fuel (cs.dropWhile isMnemonicChar)).map (AsmToken.word (c :: cs.takeWhile isMnemonicChar) :: ·)
    else none

/-- The operands after a mnemonic: separated by commas, and none for a command without operands (R78). -/
def operandList : List AsmToken → Option (List AsmToken)
  | [] => some []
  | .comma :: _ => none
  | t :: .comma :: t' :: rest => (operandList (t' :: rest)).map (t :: ·)
  | [t] => some [t]
  | _ => none

/-! ### Commands and pseudo-instructions -/

/-- A number operand in a field of `width` bits, rejected where it does not fit (R78). -/
def fieldOperand (width : Nat) : AsmToken → Option (BitVec width)
  | .num n => if fitsField width n then some (BitVec.ofNat width n) else none
  | _ => none

/-- A byte operand: a number, or a character literal (R78). -/
def byteOperand : AsmToken → Option Byte
  | .num n => if fitsField 8 n then some (BitVec.ofNat 8 n) else none
  | .chr n => if fitsField 8 n then some (BitVec.ofNat 8 n) else none
  | _ => none

/-- SETMODE's operand: even, odd, 0 or 1, and no other (R78). -/
def modeOperand : AsmToken → Option Parity
  | .word cs => if cs = "even".toList then some .even else if cs = "odd".toList then some .odd else none
  | .num n => if n = 0 then some .even else if n = 1 then some .odd else none
  | _ => none

/-- The bytes of a list of operands. -/
def byteOperands : List AsmToken → Option (List Byte)
  | [] => some []
  | t :: ts =>
    match byteOperand t, byteOperands ts with
    | some b, some bs => some (b :: bs)
    | _, _ => none

/-- `plane.load`'s expansion from position `pos` on: one `plane.wr` per byte, each at a position that fits its field (R79). -/
def loadFrom (k : BitVec 4) (pos : Nat) : List Byte → Option (List Instr)
  | [] => some []
  | b :: bs =>
    if fitsField 16 pos then (loadFrom k (pos + 1) bs).map (.planeWr k (BitVec.ofNat 16 pos) b :: ·) else none

/-- `plane.dump k, nbyte`: `plane.rd k, 0` up to `plane.rd k, nbyte - 1` (R79). -/
def dumpPlane (k : BitVec 4) (nbyte : BitVec 16) : List Instr :=
  (List.range nbyte.toNat).map fun pos => .planeRd k (BitVec.ofNat 16 pos)

/-- `dec.run nbyte`: `dec.begin nbyte`, `dec.char` repeated `8 * nbyte` times, `dec.end` (R79). -/
def decodeRun (nbyte : BitVec 16) : List Instr :=
  .decBegin nbyte :: (List.replicate (8 * nbyte.toNat) .decChar ++ [.decEnd])

/-- `enc.str "s"`: one `enc.char` per byte of s (R79). -/
def encodeString (codes : List Nat) : List Instr := codes.map fun n => .encChar (BitVec.ofNat 8 n)

/-- `enc.msg "s"`: `enc.begin`, `enc.str "s"`, `enc.end` (R79). -/
def encodeMessage (codes : List Nat) : List Instr := .encBegin :: (encodeString codes ++ [.encEnd])

/-- The commands without operands (R78). -/
def plainCommand (name : List Char) : Option Instr :=
  if name = "nop".toList then some .nop
  else if name = "enc.begin".toList then some .encBegin
  else if name = "enc.end".toList then some .encEnd
  else if name = "dec.char".toList then some .decChar
  else if name = "dec.end".toList then some .decEnd
  else if name = "clear".toList then some .clear
  else none

/-- The commands and pseudo-instructions of one operand (R78, R79). -/
def unaryCommand (name : List Char) (a : AsmToken) : Option (List Instr) :=
  if name = "setmode".toList then (modeOperand a).map fun m => [.setMode m]
  else if name = "enc.char".toList then (byteOperand a).map fun c => [.encChar c]
  else if name = "dec.begin".toList then (fieldOperand 16 a).map fun n => [.decBegin n]
  else if name = "ham.enc".toList then (byteOperand a).map fun c => [.hamEnc c]
  else if name = "dec.run".toList then (fieldOperand 16 a).map decodeRun
  else
    match a with
    | .str codes =>
      if name = "enc.str".toList then some (encodeString codes)
      else if name = "enc.msg".toList then some (encodeMessage codes)
      else none
    | _ => none

/-- The commands and pseudo-instructions of two operands (R78, R79), `plane.load` with one byte apart. -/
def binaryCommand (name : List Char) (a b : AsmToken) : Option (List Instr) :=
  if name = "ham.dec".toList then
    match byteOperand a, fieldOperand 4 b with
    | some c, some q => some [.hamDec q c]
    | _, _ => none
  else if name = "plane.rd".toList then
    match fieldOperand 4 a, fieldOperand 16 b with
    | some k, some pos => some [.planeRd k pos]
    | _, _ => none
  else if name = "plane.dump".toList then
    match fieldOperand 4 a, fieldOperand 16 b with
    | some k, some nbyte => some (dumpPlane k nbyte)
    | _, _ => none
  else none

/-- `plane.wr k, pos, c` (R78). -/
def planeWrite (a b c : AsmToken) : Option (List Instr) :=
  match fieldOperand 4 a, fieldOperand 16 b, byteOperand c with
  | some k, some pos, some v => some [.planeWr k pos v]
  | _, _, _ => none

/-- `plane.load k, b0, b1, ..., bj` (R79). -/
def planeLoad (a : AsmToken) (bytes : List AsmToken) : Option (List Instr) :=
  match fieldOperand 4 a, byteOperands bytes with
  | some k, some bs => loadFrom k 0 bs
  | _, _ => none

/-- The commands a mnemonic with its operands stands for, in order (R78, R79). -/
def expand (name : List Char) : List AsmToken → Option (List Instr)
  | [] => (plainCommand name).map fun i => [i]
  | [a] => unaryCommand name a
  | a :: b :: rest =>
    if name = "plane.load".toList then planeLoad a (b :: rest)
    else
      match rest with
      | [] => binaryCommand name a b
      | [c] => if name = "plane.wr".toList then planeWrite a b c else none
      | _ => none

/-- The commands of one line; an empty line or a comment is none of them (R78, R79). -/
def assembleLine (line : List Char) : Option (List Instr) :=
  match tokens line.length line with
  | some [] => some []
  | some (.word name :: rest) =>
    match operandList rest with
    | some operands => expand name operands
    | none => none
  | _ => none

/-- The words of one line (R78). -/
def assembleWords (line : List Char) : Option (List Word) := (assembleLine line).map (·.map encode)

end Sys2Proof.Machine
end

