-- ==== Sys2Proof/Machine/ReadPort.lean ====
section
/-! DEFINITION. The register read port (10_state.md R26 to R29): a 5-bit address and 32-bit data. A read has no side effect and
may happen in any phase, so it is a function of the state and no step. -/

namespace Sys2Proof.Machine

/-- MODE as its bit: 0 for EVEN and 1 for ODD (R20). -/
def modeBit : Parity → Bool
  | .even => false
  | .odd => true

/-- PHASE as its two bits (R20). -/
def phaseBits : Phase → BitVec 2
  | .idle => 0#2
  | .encoding => 1#2
  | .decoding => 2#2
  | .fault => 3#2

/-- ERR as its four bits (R190). -/
def errBits : ErrCode → BitVec 4
  | .none => 0#4
  | .illegalCommand => 1#4
  | .sequence => 2#4
  | .planeRange => 3#4
  | .emptyInput => 4#4
  | .sizeExceeded => 5#4
  | .decodeOverrun => 6#4

/-- STATUS: `{0, ERR, FLAG_ANY, MODE, PHASE}` (R26). -/
def statusWord (s : State) : BitVec 32 :=
  0#24 ++ errBits s.err ++ BitVec.ofBool s.flagAny ++ BitVec.ofBool (modeBit s.mode) ++ phaseBits s.phase

/-- MAXN: `[19:0] = MAX_N` and `[31:20] = 0` (R28). -/
def maxnWord (s : State) : BitVec 32 := (BitVec.ofNat 20 s.maxN).setWidth 32

/-- PBYTES: `[15:0] = B` and `[31:16] = 0` (R28). -/
def pbytesWord (s : State) : BitVec 32 := (BitVec.ofNat 16 (planeBytes s)).setWidth 32

/-- The word the read port returns for an address (R29). The reserved addresses read 0 (R60, U10). -/
def readPort (s : State) (a : BitVec 5) : BitVec 32 :=
  match a.toNat with
  | 0x00 => statusWord s
  | 0x01 => s.res
  | 0x02 => s.n.setWidth 32
  | 0x03 => s.nbyte.setWidth 32
  | 0x04 => s.dpos.setWidth 32
  | 0x05 => s.ecnt.setWidth 32
  | 0x06 => maxnWord s
  | 0x07 => pbytesWord s
  | n => if 0x10 ≤ n then ((s.acc[n - 0x10]?).getD 0#8).setWidth 32 else 0#32

end Sys2Proof.Machine
end

