-- ==== Sys2Proof/Machine/HostProtocol.lean ====
section
/-! DEFINITION. The host's side of the interface: the output filter (00_scope.md R6, 42_plane_unpacker.md R156), the command
sequences of the encode and decode procedures (70_reset_and_hazards.md R224, R225), and a host that keeps its duties (R232).
The acts of opening files, reading standard input and printing are the host's own and are no part of the model (R7, R8): here
stand the bytes they give and take. No step reads any of this (log entry 12). -/

namespace Sys2Proof.Machine

/-- What the host prints after a DEC_CHAR: RES.RBYTE exactly when RES.RPRINT is 1 (R156). -/
def printedByte (res : BitVec 32) : Option Byte :=
  if res.getLsbD 20 then some (res.extractLsb' 0 8) else none

/-- What the host reads of FLAG_ANY in STATUS: at the end of a decode pass, whether the warning line is due (R24, R156; that
the pass has ended is `decodeOutput`'s to say). -/
def warningDue (s : State) : Bool := (readPort s 0#5).getLsbD 3

/-- The commands of an encode pass: SETMODE when the mode differs from the block's, and then the message (R224 steps 1 to 4).
The final newline is already dropped. -/
def encodeProcedure (current m : Parity) (message : List Byte) : List Instr :=
  (if m = current then [] else [.setMode m]) ++ [.encBegin] ++ message.map .encChar ++ [.encEnd]

/-- The positions 0 to `count - 1` as POS operands. -/
def positions (count : Nat) : List (BitVec 16) := (List.range count).map (BitVec.ofNat 16)

/-- The planes 0 to 11 as K operands. -/
def planeOperands : List (BitVec 4) := (List.range 12).map (BitVec.ofNat 4)

/-- The commands that read the planes after an encode pass: PLANE_RD of each position below NBYTE of each plane (R224 step 6,
R230). -/
def dumpProcedure (nbyte : Nat) : List Instr :=
  planeOperands.flatMap fun k => (positions nbyte).map fun pos => .planeRd k pos

/-- The commands that load one plane file: PLANE_WR of each of its bytes from position 0 on (R225 step 3). -/
def loadPlane (k : BitVec 4) (pos : Nat) : List Byte → List Instr
  | [] => []
  | b :: bs => .planeWr k (BitVec.ofNat 16 pos) b :: loadPlane k (pos + 1) bs

/-- The commands that load the plane files, plane 0 first (R225 step 3). -/
def loadPlanes (k : Nat) : List (List Byte) → List Instr
  | [] => []
  | f :: fs => loadPlane (BitVec.ofNat 4 k) 0 f ++ loadPlanes (k + 1) fs

/-- The commands of a decode pass after its loads: DEC_BEGIN, one DEC_CHAR for each of the `8 * nbyte` slots, and DEC_END (R225
steps 4 to 6). -/
def decodePass (nbyte : Nat) : List Instr :=
  [.decBegin (BitVec.ofNat 16 nbyte)] ++ List.replicate (8 * nbyte) .decChar ++ [.decEnd]

/-- The commands of a decode whose twelve files are all read: SETMODE, the plane loads below plane 0's length, and the pass (R225
steps 1 to 6). -/
def decodeProcedure (m : Parity) (planes : List (List Byte)) : List Instr :=
  let nbyte := (planes.headD []).length
  [.setMode m] ++ loadPlanes 0 (planes.map (·.take nbyte)) ++ decodePass nbyte

/-! ### A host that keeps its duties (R232): what it sends -/

/-- Why a host that keeps its duties ends a run itself (R198, R232). -/
inductive HostError where
  /-- The parity option is neither "even" nor "odd": the usage error. -/
  | usage
  /-- A plane file is missing or unreadable: the fatal I/O error. -/
  | io
  /-- The message is longer than MAX_N, or plane 0's file has more bytes than the POS field has positions: a host that keeps its
  duties has no move there (decision D25). -/
  | overBound
deriving DecidableEq, Repr

/-- What a host that keeps its duties sends in a run that does not fault, and why it then ends the run itself, if it does. -/
structure HostPlan where
  commands : List Instr
  stop : Option HostError
deriving DecidableEq, Repr

/-- The parity option, case-sensitive: `even`, `odd`, and no other value (R232 parity option). -/
def resolveParity (text : List Char) : Option Parity :=
  if text = "even".toList then some .even else if text = "odd".toList then some .odd else none

/-- The message of an input: all but its final byte, the assumed newline (R232 message input). -/
def messageOf (input : List Byte) : List Byte := input.dropLast

/-- The host reads STATUS and sees PHASE FAULT (R195, R232 fault). -/
def faultSeen (s : State) : Bool := (readPort s 0x00#5).extractLsb' 0 2 == 3#2

/-- What the host sends before a new pass: CLEAR after a fault, and nothing otherwise (R232 fault). -/
def passOpening (s : State) : List Instr := if faultSeen s then [.clear] else []

/-- The mode the block has once that is sent: EVEN after CLEAR (R174), and otherwise the MODE of STATUS (R26). -/
def openingMode (s : State) : Parity :=
  if faultSeen s then .even else if (readPort s 0x00#5).getLsbD 2 then .odd else .even

/-- One encode run from the parity option and the bytes of standard input. The option is checked before any command is sent,
and at most MAX_N characters are, which the host reads from MAXN (R224, R232). -/
def hostEncode (s : State) (option : List Char) (input : List Byte) : HostPlan :=
  match resolveParity option with
  | none => ⟨[], some .usage⟩
  | some m =>
    if (readPort s 0x06#5).toNat < (messageOf input).length then ⟨[], some .overBound⟩
    else ⟨passOpening s ++ encodeProcedure (openingMode s) m (messageOf input), none⟩

/-- The bytes of the files before the first one that is missing or unreadable. -/
def readableFiles : List (Option (List Byte)) → List (List Byte)
  | some f :: rest => f :: readableFiles rest
  | _ => []

/-- One decode run from the parity option and the contents of the plane files, plane 0 first, none for a file that is missing or
unreadable (R225, R232 decode input). SETMODE comes before any file is read, and each file is read as its plane is loaded: the run
stops at the first file that cannot be, and before any load where that is plane 0's. Of a plane 0 longer than the POS field
reaches, the bytes up to the last position are sent. -/
def hostDecode (s : State) (option : List Char) (files : Vector (Option (List Byte)) 12) : HostPlan :=
  match resolveParity option with
  | none => ⟨[], some .usage⟩
  | some m =>
    match files[0] with
    | none => ⟨passOpening s ++ [.setMode m], some .io⟩
    | some f =>
      if fitsField 16 f.length then
        let planes := readableFiles files.toList
        if planes.length = 12 then ⟨passOpening s ++ decodeProcedure m planes, none⟩
        else ⟨passOpening s ++ [.setMode m] ++ loadPlanes 0 (planes.map (·.take f.length)), some .io⟩
      else ⟨passOpening s ++ [.setMode m] ++ loadPlane 0#4 0 (f.take 65536), some .overBound⟩

/-! ### A host that keeps its duties (R232): what it reads, writes and prints -/

/-- What is left when the host has sent the commands of a run: the values of RES that it read, whether a fault ended the run, and
the block's state, where STATUS shows the fault's code. -/
structure HostRecord where
  reads : List (BitVec 32)
  faulted : Bool
  final : State
deriving DecidableEq, Repr

/-- What the host reads once a command has completed: RES after DEC_CHAR and PLANE_RD, before it sends the next command (R156,
R224 step 6, R227). -/
def resReads (i : Instr) (t : State) : List (BitVec 32) :=
  match i with
  | .decChar | .planeRd _ _ => [readPort t 0x01#5]
  | _ => []

/-- The host sends the commands of a run one by one, reads RES where it must, and reads STATUS after each: a fault is fatal for
the run, so nothing is sent after it and nothing is tried again (R232 fault). -/
def hostRun : List Instr → State → Host.Outcome HostRecord Fault Refusal
  | [], s => .next ⟨[], false, s⟩
  | i :: rest, s =>
    match exec i s with
    | .next t =>
      if faultSeen t then .next ⟨[], true, t⟩
      else
        match hostRun rest t with
        | .next r => .next { r with reads := resReads i t ++ r.reads }
        | .fault f => .fault f
        | .refused c => .refused c
    | .fault f => .fault f
    | .refused c => .refused c

/-- The run reached the end of its pass: neither the host nor a fault ended it before. -/
def passEnded (plan : HostPlan) (r : HostRecord) : Bool := plan.stop.isNone && !r.faulted

/-- Why the host ended the run itself, where no fault did before. -/
def hostStop (plan : HostPlan) (r : HostRecord) : Option HostError := if r.faulted then none else plan.stop

/-- The output of a decode run: the printable characters of the RES values read after each DEC_CHAR, in order, and whether the
warning line follows them, once: at the end of the pass, and so never after a fault or a stop of the host's (R156, R232). -/
def decodeOutput (plan : HostPlan) (r : HostRecord) : List Byte × Bool :=
  (r.reads.filterMap printedByte, passEnded plan r && warningDue r.final)

/-- What a decode run gives: the characters printed, whether the warning line follows, the host's own stop, whether a fault ended
the run, and the block's state. -/
structure DecodeReport where
  printed : List Byte
  warning : Bool
  stop : Option HostError
  faulted : Bool
  final : State
deriving DecidableEq, Repr

/-- A whole decode run: what `hostDecode` says is sent, RES read after each DEC_CHAR, and the output (R225, R232). -/
def decodeRunReport (s : State) (option : List Char) (files : Vector (Option (List Byte)) 12) :
    Host.Outcome DecodeReport Fault Refusal :=
  let plan := hostDecode s option files
  match hostRun plan.commands s with
  | .next r => .next ⟨(decodeOutput plan r).1, (decodeOutput plan r).2, hostStop plan r, r.faulted, r.final⟩
  | .fault f => .fault f
  | .refused c => .refused c

/-- The host reads STATUS and sees PHASE IDLE, the one phase in which the planes can be read (R26, R192). -/
def idleSeen (s : State) : Bool := (readPort s 0x00#5).extractLsb' 0 2 == 0#2

/-- All the values of a list, or none where one is missing. -/
def allSome {α : Type} : List (Option α) → Option (List α)
  | [] => some []
  | none :: _ => none
  | some a :: rest => (allSome rest).map (a :: ·)

/-- The bytes of plane k's file after an encode run that left the block in `s`: exactly the NBYTE bytes of the plane, and no file
after a fault or before ENC_END (R224 step 6, R229, R230, R232 encode output). -/
def planeFile (s : State) (k : Fin 12) : Option (List Byte) :=
  if idleSeen s then allSome ((List.range (readPort s 0x03#5).toNat).map fun pos => readPlane s k.val pos) else none

/-- Plane k's part of the RES values that `dumpProcedure nbyte` reads: RES[7:0] of its `nbyte` PLANE_RD commands (R224 step 6). -/
def dumpedFile (nbyte : Nat) (reads : List (BitVec 32)) (k : Nat) : List Byte :=
  ((reads.drop (k * nbyte)).take nbyte).map fun res => res.extractLsb' 0 8

/-- What an encode run gives: the twelve files' bytes where it writes them, the host's own stop, whether a fault ended the run,
and the block's state. -/
structure EncodeReport where
  files : Option (List (List Byte))
  stop : Option HostError
  faulted : Bool
  final : State
deriving DecidableEq, Repr

/-- A whole encode run: what `hostEncode` says is sent; then, at the end of the pass and not otherwise, NBYTE is read and each
byte of the planes below it, and the files are written where no fault occurred (R224, R229, R232). -/
def encodeRunReport (s : State) (option : List Char) (input : List Byte) : Host.Outcome EncodeReport Fault Refusal :=
  let plan := hostEncode s option input
  match hostRun plan.commands s with
  | .next r =>
    if passEnded plan r then
      let nbyte := (readPort r.final 0x03#5).toNat
      match hostRun (dumpProcedure nbyte) r.final with
      | .next d =>
        .next ⟨if d.faulted then none else some ((List.range 12).map (dumpedFile nbyte d.reads)), none, d.faulted, d.final⟩
      | .fault f => .fault f
      | .refused c => .refused c
    else .next ⟨none, hostStop plan r, r.faulted, r.final⟩
  | .fault f => .fault f
  | .refused c => .refused c

/-- The name of plane k's file, `<prefix>_<planeIndex>.hamming` (R232, last row). -/
def planeFileName (stem : List Char) (k : Fin 12) : List Char := stem ++ '_' :: (Nat.toDigits 10 k.val ++ ".hamming".toList)

/-- The file names' stem where the host chooses none (R232, last row). -/
def defaultStem : List Char := "file".toList

end Sys2Proof.Machine
end

