-- ==== Sys2Proof/Safety.lean ====
section
/-! DEFINITION. The terms in which claims about HAMC are made: the reset registers, the phase table and the check order of
60_exceptions.md, the invariant of the reachable states, and what it means that the planes hold a message. -/

namespace Sys2Proof.Safety

open Sys2Proof.Machine

/-! ### Reset and the phase table -/

/-- Every register at the reset value of R220. -/
structure AtReset (s : State) : Prop where
  mode : s.mode = .even
  phase : s.phase = .idle
  err : s.err = .none
  flagAny : s.flagAny = false
  acc : ∀ k : Fin 12, s.acc[k] = 0x00#8
  ecnt : s.ecnt = 0#3
  n : s.n = 0#20
  nbyte : s.nbyte = 0#16
  dpos : s.dpos = 0#20
  res : s.res = 0x00000000#32

/-- A word that, sent in any phase outside FAULT, raises ILLEGAL_COMMAND and does nothing else (R75, R191 check 1). -/
def RaisesIllegal (w : Word) : Prop :=
  ∀ (s : State) (rest : List HostEvent), s.phase ≠ .fault → s.port = .command w :: rest →
    step s = .next { s with port := rest, phase := .fault, err := .illegalCommand }

/-- The phase table of R192 for the phases outside FAULT, one row per command: the phases marked `yes`. -/
def legalPhases : Instr → List Phase
  | .nop => [.idle, .encoding, .decoding]
  | .setMode _ => [.idle]
  | .encBegin => [.idle]
  | .encChar _ => [.encoding]
  | .encEnd => [.encoding]
  | .decBegin _ => [.idle]
  | .decChar => [.decoding]
  | .decEnd => [.decoding]
  | .hamEnc _ => [.idle, .encoding, .decoding]
  | .hamDec _ _ => [.idle, .encoding, .decoding]
  | .planeWr _ _ _ => [.idle]
  | .planeRd _ _ => [.idle]
  | .clear => [.idle, .encoding, .decoding]

/-- The operand and capacity checks of R191 (checks 3 and 4) for a command that is legal in its phase; NONE where all pass. -/
def operandFault : Instr → State → ErrCode
  | .planeWr k pos _, s => if 12 ≤ k.toNat ∨ (s.maxN + 7) / 8 ≤ pos.toNat then .planeRange else .none
  | .planeRd k pos, s => if 12 ≤ k.toNat ∨ (s.maxN + 7) / 8 ≤ pos.toNat then .planeRange else .none
  | .decBegin nbyte, s =>
    if nbyte.toNat = 0 then .emptyInput else if (s.maxN + 7) / 8 < nbyte.toNat then .planeRange else .none
  | .encChar _, s => if s.n.toNat = s.maxN then .sizeExceeded else .none
  | .decChar, s => if s.dpos.toNat = 8 * s.nbyte.toNat then .decodeOverrun else .none
  | .nop, _ => .none
  | .setMode _, _ => .none
  | .encBegin, _ => .none
  | .encEnd, _ => .none
  | .decEnd, _ => .none
  | .hamEnc _, _ => .none
  | .hamDec _ _, _ => .none
  | .clear, _ => .none

/-- The first check of R191 that a valid command fails outside FAULT; NONE where all pass. -/
def firstFault (i : Instr) (s : State) : ErrCode :=
  if s.phase ∈ legalPhases i then operandFault i s else .sequence

/-! ### The invariant -/

/-- What holds in every state the machine reaches. -/
structure Invariant (s : State) : Prop where
  /-- MAX_N is a value R11 allows. -/
  param : 1 ≤ s.maxN ∧ s.maxN ≤ 524280
  /-- The plane memory is in its canonical form, the model's choice (log entry 7). -/
  memWf : Memory.wf s.plane
  /-- Every listed byte is one of the `12 × B` locations of R50. -/
  memIn : ∀ x ∈ s.plane, x.1 / 65536 < 12 ∧ x.1 % 65536 < planeBytes s
  /-- N does not pass its limit (R22). -/
  nBound : s.n.toNat ≤ s.maxN
  /-- NBYTE does not pass B (R12, R33). -/
  nbyteBound : s.nbyte.toNat ≤ planeBytes s
  /-- DPOS does not pass the last slot of the buffers (R22). -/
  dposBound : s.dpos.toNat ≤ 8 * planeBytes s
  /-- R31, while PHASE is ENCODING. -/
  encCount : s.phase = .encoding → s.n.toNat = 8 * s.nbyte.toNat + s.ecnt.toNat
  /-- R30 and R31, while PHASE is ENCODING. -/
  encAcc : s.phase = .encoding → ∀ k : Fin 12, s.acc[k].toNat < 2 ^ s.ecnt.toNat
  /-- The completed groups of an encode pass are written (R134, R136). -/
  encWritten : s.phase = .encoding → ∀ k : Fin 12, ∀ pos < s.nbyte.toNat, (readPlane s k.val pos).isSome
  /-- Nothing is packed outside an encode pass (R31), but for what a fault leaves in place (R194). -/
  groupEmpty : s.phase = .idle ∨ s.phase = .decoding → s.ecnt = 0#3 ∧ ∀ k : Fin 12, s.acc[k] = 0x00#8
  /-- A decode pass has at least one byte per plane and is at one of its slots or at its end (R153, R154). -/
  decPos : s.phase = .decoding → 1 ≤ s.nbyte.toNat ∧ s.dpos.toNat ≤ 8 * s.nbyte.toNat
  /-- A fault code is recorded exactly in FAULT (R190, R194, R196). -/
  errPhase : s.err = .none ↔ s.phase ≠ .fault
  /-- RES[31:21] reads 0 (R27). -/
  resHigh : s.res.extractLsb' 21 11 = 0#11
  /-- RES.RERRS counts the checks RES.RFAIL marks (R27). -/
  resErrs : (s.res.extractLsb' 16 3).toNat = popcount (s.res.extractLsb' 12 4)
  /-- RES.RFLAG is 1 exactly for 1, 3 or 4 failing checks (R23). -/
  resFlag : s.res.getLsbD 19 = true ↔ (s.res.extractLsb' 16 3).toNat ∈ [1, 3, 4]

/-! ### The packed layout -/

/-- The bit of slot i of plane k when the planes hold `message` under mode m; 0 in a padding slot (R130, R132, R157). -/
def slotOf (message : List Byte) (m : Parity) (k : Fin 12) (i : Nat) : Bool :=
  match message[i]? with
  | some c => (planeBits c m)[k]
  | none => false

/-- The byte R131 gives for `PLANE[k][pos]`: slot `8·pos + j` in bit `7 - j`, and 0 in the padding slots. -/
def packedByte (message : List Byte) (m : Parity) (k : Fin 12) (pos : Nat) : Byte :=
  byteOf (Vector.ofFn fun j => slotOf message m k (8 * pos + j.val))

/-- The planes hold `message`, packed under mode m, in positions 0 to `count - 1` (R131). -/
def PlanesHold (message : List Byte) (m : Parity) (count : Nat) (s : State) : Prop :=
  ∀ k : Fin 12, ∀ pos < count, readPlane s k.val pos = some (packedByte message m k pos)

/-- An encode pass that has taken exactly the characters of `message`: the completed groups are in the planes, and the partial
group is in ACC with its earliest character most significant (R30, R131, R134). -/
structure Packing (message : List Byte) (s : State) : Prop where
  phase : s.phase = .encoding
  bound : s.maxN ≤ 524280 ∧ message.length ≤ s.maxN
  count : s.n.toNat = message.length
  groups : s.nbyte.toNat = message.length / 8
  pending : s.ecnt.toNat = message.length % 8
  planes : PlanesHold message s.mode (message.length / 8) s
  group : ∀ k : Fin 12, s.acc[k] = packedByte message s.mode k (message.length / 8) >>> (8 - message.length % 8)

end Sys2Proof.Safety
end

