-- ==== Sys2Proof/Certificates/Slice0/Obligations.lean ====
section
/-! DEFINITION. The statements for the provers: what HAMC does, from the numbered rules of spec/. Each docstring names the rules
it formalises. `ceil(MAX_N / 8)` is written `(s.maxN + 7) / 8`, as R16 writes it. -/

open Sys2Proof Sys2Proof.Machine Sys2Proof.Safety

/-! ### Reset -/

/-- R220: power-on reset, a later reset and CLEAR give every register its reset value and leave the parameter, MAXN and PBYTES
are the parameter's, and STATUS reads 0x00000000. That the parameter is a field of the state, and that `State.reset` takes it
from `Config`, is the model's form of R11 (log entry 1). -/
def Obligations.ResetLeavesEveryRegister : Prop :=
  AtReset State.reset ∧ State.reset.maxN = Config.maxN ∧ 1 ≤ Config.maxN ∧ Config.maxN ≤ 524280 ∧
  (∀ maxN : Nat, AtReset (State.powerOn maxN) ∧ (State.powerOn maxN).maxN = maxN) ∧
  (∀ (s : State) (rest : List HostEvent), s.port = .reset :: rest →
    ∃ t, step s = .next t ∧ AtReset t ∧ t.maxN = s.maxN ∧ t.port = rest) ∧
  (∀ s : State, ∃ t, exec .clear s = .next t ∧ AtReset t ∧ t.maxN = s.maxN) ∧
  (∀ maxN : Nat, 1 ≤ maxN → maxN ≤ 524280 → (readPort (State.powerOn maxN) 0x06#5).toNat = maxN ∧
    (readPort (State.powerOn maxN) 0x07#5).toNat = (maxN + 7) / 8) ∧
  (∀ s : State, AtReset s → readPort s 0x00#5 = 0x00000000#32)

/-- R221: every plane byte is never-written after power-on; a later reset and CLEAR leave the buffers; and a read of a
never-written byte is a model fault, by PLANE_RD and by DEC_CHAR. (Which of several unwritten planes DEC_CHAR's stop names is
left open here: log entry 5.) -/
def Obligations.NeverWrittenBytesFault : Prop :=
  (∀ a : Nat, State.reset.plane.byteAt a = none) ∧
  (∀ (s : State) (rest : List HostEvent), s.port = .reset :: rest → ∃ t, step s = .next t ∧ t.plane = s.plane) ∧
  (∀ s : State, ∃ t, exec .clear s = .next t ∧ t.plane = s.plane) ∧
  (∀ (s : State) (k : BitVec 4) (pos : BitVec 16), s.phase = .idle → k.toNat < 12 → pos.toNat < (s.maxN + 7) / 8 →
    readPlane s k.toNat pos.toNat = none → exec (.planeRd k pos) s = .fault (.neverWritten k.toNat pos.toNat)) ∧
  (∀ s : State, s.phase = .decoding → s.dpos.toNat ≠ 8 * s.nbyte.toNat → s.dpos.toNat / 8 < (s.maxN + 7) / 8 →
    (∃ k : Fin 12, readPlane s k.val (s.dpos.toNat / 8) = none) →
    ∃ k : Fin 12, readPlane s k.val (s.dpos.toNat / 8) = none ∧
      exec .decChar s = .fault (.neverWritten k.val (s.dpos.toNat / 8)))

/-- The invariant holds at power-on reset, for every MAX_N that R11 allows (the memory list's form is log entry 7's). -/
def Obligations.ResetMeetsInvariant : Prop :=
  Invariant State.reset ∧ ∀ maxN : Nat, 1 ≤ maxN → maxN ≤ 524280 → Invariant (State.powerOn maxN)

/-! ### Encoding -/

/-- R71 to R74: decoding the word of a well-formed command gives it back, with every operand at every value of its field. -/
def Obligations.DecodeOfEncode : Prop :=
  ∀ i : Instr, i.wellFormed = true → decode (encode i) = .ok i

/-- R71 to R75: a word that decodes is the word of the command it decodes to, so no two words are one command and no bit of a
valid word is dropped. -/
def Obligations.EncodeOfDecode : Prop :=
  ∀ (w : Word) (i : Instr), decode w = .ok i → encode i = w

/-- R74: a word is the command of a row of the opcode map exactly when `w & mask = match`. -/
def Obligations.DecodeFollowsOpcodeMap : Prop :=
  (∀ (w : Word) (i : Instr), decode w = .ok i → w &&& (opcodeRow i).maskBits = (opcodeRow i).matchBits) ∧
  (∀ (w : Word) (r : OpcodeRow), r ∈ opcodeMap → w &&& r.maskBits = r.matchBits →
    ∃ i : Instr, decode w = .ok i ∧ opcodeRow i = r)

/-- R75: a word is illegal exactly when no row of the map with its OP matches it, every word with OP 0xD to 0xF is; an illegal
word raises ILLEGAL_COMMAND, and in FAULT it has no effect. -/
def Obligations.IllegalWordsAreTheRest : Prop :=
  (∀ w : Word, (∃ i, decode w = .ok i) ↔
    (opField w).toNat ≤ 12 ∧
      ∃ r ∈ opcodeMap, opField r.matchBits = opField w ∧ w &&& r.maskBits = r.matchBits) ∧
  (∀ w : Word, 13 ≤ (opField w).toNat → ∃ e, decode w = .error e) ∧
  (∀ (s : State) (w : Word) (rest : List HostEvent) (e : Reject), s.port = .command w :: rest → decode w = .error e →
    (s.phase ≠ .fault → step s = .next { s with port := rest, phase := .fault, err := .illegalCommand }) ∧
    (s.phase = .fault → step s = .next { s with port := rest }))

/-- Words written out from 95_test_vectors.md section 5 decode to the commands they stand for, or are illegal. -/
def Obligations.SampleWordsDecode : Prop :=
  decode 0x00000000#32 = .ok .nop ∧ decode 0x10000001#32 = .ok (.setMode .odd) ∧ decode 0x20000000#32 = .ok .encBegin ∧
  decode 0x30000041#32 = .ok (.encChar 0x41#8) ∧ decode 0x40000000#32 = .ok .encEnd ∧
  decode 0x50000300#32 = .ok (.decBegin 3#16) ∧ decode 0x60000000#32 = .ok .decChar ∧ decode 0x70000000#32 = .ok .decEnd ∧
  decode 0x80000041#32 = .ok (.hamEnc 0x41#8) ∧ decode 0x9F0000FF#32 = .ok (.hamDec 0xF#4 0xFF#8) ∧
  decode 0xA1000080#32 = .ok (.planeWr 1#4 0#16 0x80#8) ∧ decode 0xBF000000#32 = .ok (.planeRd 15#4 0#16) ∧
  decode 0xC0000000#32 = .ok .clear ∧ decode 0x10000002#32 = .error (.reservedBits 0x1#4) ∧
  decode 0xFFFFFFFF#32 = .error (.reservedOpcode 0xF#4)

/-! ### The step -/

/-- A step runs the decoded command: `step` is `exec` of it on the state with the word taken off the command port, and adds
nothing else. A reset event is the reset, and between inputs the state is held (R205). The list of inputs is the model's own
(log entries 2 and 3). -/
def Obligations.StepRunsDecodedCommand : Prop :=
  (∀ (s : State) (w : Word) (rest : List HostEvent) (i : Instr), s.port = .command w :: rest → decode w = .ok i →
    step s = exec i { s with port := rest }) ∧
  (∀ (s : State) (rest : List HostEvent), s.port = .reset :: rest →
    step s = .next (resetRegisters { s with port := rest })) ∧
  (∀ s : State, s.port = [] → step s = .next s)

/-- No command and no step is refused: every command of the opcode map has its meaning. -/
def Obligations.NothingIsRefused : Prop :=
  (∀ (i : Instr) (s : State) (r : Refusal), exec i s ≠ .refused r) ∧ (∀ (s : State) (r : Refusal), step s ≠ .refused r)

/-! ### Faults and phases -/

/-- R195: in FAULT a word has no effect unless it is exactly CLEAR, valid or illegal alike; ERR keeps its code; STATUS shows
both. -/
def Obligations.FaultPhaseHoldsUntilClear : Prop :=
  (∀ (s : State) (w : Word) (rest : List HostEvent), s.phase = .fault → s.port = .command w :: rest → w ≠ 0xC0000000#32 →
    step s = .next { s with port := rest }) ∧
  (∀ (s : State) (rest : List HostEvent), s.phase = .fault → s.port = .command 0xC0000000#32 :: rest →
    ∃ t, step s = .next t ∧ AtReset t) ∧
  (∀ s : State, s.phase = .fault →
    (readPort s 0x00#5).extractLsb' 0 2 = 3#2 ∧ (readPort s 0x00#5).extractLsb' 4 4 = errBits s.err)

/-- R174: CLEAR gives every register its reset value in every phase and leaves every plane byte as it is. Any other word with its
OP is illegal outside FAULT, and in FAULT it has no effect. -/
def Obligations.ClearKeepsPlanes : Prop :=
  decode 0xC0000000#32 = .ok .clear ∧
  (∀ w : Word, opField w = 0xC#4 → w ≠ 0xC0000000#32 → RaisesIllegal w ∧
    ∀ (s : State) (rest : List HostEvent), s.phase = .fault → s.port = .command w :: rest →
      step s = .next { s with port := rest }) ∧
  ∀ s : State, ∃ t, exec .clear s = .next t ∧ AtReset t ∧ t.maxN = s.maxN ∧ t.port = s.port ∧ t.plane = s.plane ∧
    ∀ a : Nat, t.plane.byteAt a = s.plane.byteAt a

/-- R192: the phase table. A command that is not legal in a phase outside FAULT raises SEQUENCE and does nothing else; in FAULT
only CLEAR runs; CLEAR runs in every phase; a command that is legal never raises SEQUENCE. -/
def Obligations.PhaseTableDecidesLegality : Prop :=
  (∀ (i : Instr) (s : State), s.phase ≠ .fault → s.phase ∉ legalPhases i →
    exec i s = .next { s with phase := .fault, err := .sequence }) ∧
  (∀ (i : Instr) (s : State), s.phase = .fault → i ≠ .clear → exec i s = .next s) ∧
  (∀ s : State, ∃ t, exec .clear s = .next t ∧ AtReset t) ∧
  (∀ (i : Instr) (s t : State), s.phase ∈ legalPhases i → exec i s = .next t → t.err = .sequence → s.err = .sequence)

/-- R193: PHASE changes only by the transitions listed there. -/
def Obligations.PhaseChangesOnlyAsListed : Prop :=
  ∀ s t : State, step s = .next t → t.phase = s.phase ∨
    ∃ (e : HostEvent) (rest : List HostEvent), s.port = e :: rest ∧
      ((e = .command 0x20000000#32 ∧ s.phase = .idle ∧ t.phase = .encoding) ∨
       (e = .command 0x40000000#32 ∧ s.phase = .encoding ∧ t.phase = .idle) ∨
       ((∃ nbyte : BitVec 16, e = .command (encode (.decBegin nbyte))) ∧ s.phase = .idle ∧ t.phase = .decoding) ∨
       (e = .command 0x70000000#32 ∧ s.phase = .decoding ∧ t.phase = .idle) ∨
       ((∃ w : Word, e = .command w) ∧ s.phase ≠ .fault ∧ t.phase = .fault ∧ t.err ≠ .none) ∨
       (e = .command 0xC0000000#32 ∧ t.phase = .idle) ∨
       (e = .reset ∧ t.phase = .idle))

/-- R194: a step that enters FAULT writes PHASE and ERR and nothing else: every other register and every plane byte keeps its
value. -/
def Obligations.FaultEntryIsPrecise : Prop :=
  ∀ s t : State, step s = .next t → s.phase ≠ .fault → t.phase = .fault →
    t.err ≠ .none ∧ t = { s with port := s.port.tail, phase := .fault, err := t.err }

/-- R191: the checks and their order. Outside FAULT an illegal word raises ILLEGAL_COMMAND; a valid command raises the first
fault of the phase check, the operand checks and the capacity checks, and has no other effect; and where all pass it enters no
FAULT. -/
def Obligations.ChecksRunInOrder : Prop :=
  ∀ (s : State) (w : Word) (rest : List HostEvent), s.phase ≠ .fault → s.port = .command w :: rest →
    ((∀ r ∈ opcodeMap, w &&& r.maskBits ≠ r.matchBits) →
      step s = .next { s with port := rest, phase := .fault, err := .illegalCommand }) ∧
    (∀ i : Instr, encode i = w → firstFault i s ≠ .none →
      step s = .next { s with port := rest, phase := .fault, err := firstFault i s }) ∧
    (∀ (i : Instr) (t : State), encode i = w → firstFault i s = .none → step s = .next t → t.phase ≠ .fault)

/-! ### The datapath -/

/-- R100 and R102: bitsOf numbers the bits from the MSB, and byteOf is its inverse. -/
def Obligations.BitExtractorInverse : Prop :=
  (∀ (c : Byte) (i : Fin 8), (bitsOf c)[i] = c.getLsbD (7 - i.val)) ∧
  (∀ c : Byte, byteOf (bitsOf c) = c) ∧ (∀ v : Vector Bool 8, bitsOf (byteOf v) = v) ∧
  bitsOf 0x41#8 = #v[false, true, false, false, false, false, false, true]

/-- R104: the four check sums as masks over the byte, and S(c) as the exclusive or of the column masks of the set bits. -/
def Obligations.CheckSumsAsMasks : Prop :=
  ∀ c : Byte,
    ((rawSyndrome c).getLsbD 0 = true ↔ popcount (c &&& 0xDA#8) % 2 = 1) ∧
    ((rawSyndrome c).getLsbD 1 = true ↔ popcount (c &&& 0xB6#8) % 2 = 1) ∧
    ((rawSyndrome c).getLsbD 2 = true ↔ popcount (c &&& 0x71#8) % 2 = 1) ∧
    ((rawSyndrome c).getLsbD 3 = true ↔ popcount (c &&& 0x0F#8) % 2 = 1) ∧
    rawSyndrome c =
      (if c.getLsbD 7 then 0x3#4 else 0#4) ^^^ (if c.getLsbD 6 then 0x5#4 else 0#4) ^^^
      (if c.getLsbD 5 then 0x6#4 else 0#4) ^^^ (if c.getLsbD 4 then 0x7#4 else 0#4) ^^^
      (if c.getLsbD 3 then 0x9#4 else 0#4) ^^^ (if c.getLsbD 2 then 0xA#4 else 0#4) ^^^
      (if c.getLsbD 1 then 0xB#4 else 0#4) ^^^ (if c.getLsbD 0 then 0xC#4 else 0#4)

/-- R103 and R105: the four sums of a byte, in the layout of S, and the emitted quad `[p1, p2, p4, p8]`: the sums under EVEN and
their inverses under ODD. -/
def Obligations.ParityEmission : Prop :=
  ∀ c : Byte,
    let b := fun i : Nat => c.getLsbD (7 - i)
    let s := rawSyndrome c
    s.getLsbD 0 = (b 0 ^^ b 1 ^^ b 3 ^^ b 4 ^^ b 6) ∧ s.getLsbD 1 = (b 0 ^^ b 2 ^^ b 3 ^^ b 5 ^^ b 6) ∧
    s.getLsbD 2 = (b 1 ^^ b 2 ^^ b 3 ^^ b 7) ∧ s.getLsbD 3 = (b 4 ^^ b 5 ^^ b 6 ^^ b 7) ∧
    (∀ j : Fin 4, (parityOf c .even).getLsbD j.val = s.getLsbD j.val) ∧
    (∀ j : Fin 4, (parityOf c .odd).getLsbD j.val = !s.getLsbD j.val)

/-- R106 to R110: what `correct` returns: the failing checks, their count, the correction table and the flag. -/
def Obligations.CorrectionFollowsTable : Prop :=
  ∀ (c : Byte) (q : Quad) (m : Parity),
    let r := correct c q m
    (∀ j : Nat, r.fail.getLsbD j = true ↔ (parityOf c m).getLsbD j ≠ q.getLsbD j) ∧
    r.errors = popcount r.fail ∧ r.errors ≤ 4 ∧
    (r.errors = 2 ↔ r.fail.toNat ∈ [0x3, 0x5, 0x9, 0x6, 0xA, 0xC]) ∧
    (r.fail = 0x3#4 → r.byte = c ^^^ 0x80#8) ∧ (r.fail = 0x5#4 → r.byte = c ^^^ 0x40#8) ∧
    (r.fail = 0x9#4 → r.byte = c ^^^ 0x08#8) ∧ (r.fail = 0x6#4 → r.byte = c ^^^ 0x20#8) ∧
    (r.fail = 0xA#4 → r.byte = c ^^^ 0x04#8) ∧ (r.fail = 0xC#4 → r.byte = c ^^^ 0x01#8) ∧
    (r.errors ≠ 2 → r.byte = c) ∧
    (r.flagged = true ↔ r.errors = 1 ∨ r.errors = 3 ∨ r.errors = 4)

/-- R114: the laws of the datapath. -/
def Obligations.CleanCharacterLaws : Prop :=
  (∀ c : Byte, parityOf c .odd = parityOf c .even ^^^ 0xF#4) ∧
  (∀ c d : Byte, rawSyndrome (c ^^^ d) = rawSyndrome c ^^^ rawSyndrome d) ∧ rawSyndrome 0x00#8 = 0x0#4 ∧
  (∀ (c : Byte) (m : Parity), correct c (parityOf c m) m = ⟨c, 0x0#4, 0, false⟩)

/-- R115: the outcome of each single-bit error, whatever the byte and the mode. -/
def Obligations.SingleBitErrors : Prop :=
  ∀ (c : Byte) (m : Parity),
    let q := parityOf c m
    (∀ p ∈ [((0x80#8 : Byte), (0x3#4 : Quad)), (0x40#8, 0x5#4), (0x20#8, 0x6#4), (0x08#8, 0x9#4), (0x04#8, 0xA#4),
        (0x01#8, 0xC#4)], correct (c ^^^ p.1) q m = ⟨c, p.2, 2, false⟩) ∧
    (∀ p ∈ [((0x10#8 : Byte), (0x7#4 : Quad)), (0x02#8, 0xB#4)],
      correct (c ^^^ p.1) q m = ⟨c ^^^ p.1, p.2, 3, true⟩) ∧
    (∀ e ∈ [(0x1#4 : Quad), 0x2#4, 0x4#4, 0x8#4], correct c (q ^^^ e) m = ⟨c, e, 1, true⟩)

/-- R116: the twelve column masks are distinct and not zero, and a two-bit error, the flip of two of the twelve positions of a
code word, is never taken for a clean character. It is either flagged and output unmodified, or changed into a byte that is not the original. -/
def Obligations.TwoBitErrors : Prop :=
  ∀ (c : Byte) (m : Parity) (i j : Fin 12), i < j →
    let data := fun p : Fin 12 => if p.val < 8 then 0x80#8 >>> p.val else 0x00#8
    let check := fun p : Fin 12 => if p.val < 8 then 0x0#4 else 0x1#4 <<< (p.val - 8)
    let received := c ^^^ data i ^^^ data j
    let r := correct received (parityOf c m ^^^ check i ^^^ check j) m
    let column := fun p : Fin 12 => rawSyndrome (data p) ^^^ check p
    column i ≠ 0x0#4 ∧ column j ≠ 0x0#4 ∧ column i ≠ column j ∧
    r.fail ≠ 0x0#4 ∧ r.errors ∈ [1, 2, 3, 4] ∧
    (r.errors = 2 → r.flagged = false ∧ r.byte ≠ c ∧ r.byte ≠ received ∧ popcount (r.byte ^^^ c) ≤ 3) ∧
    (r.errors ≠ 2 → r.flagged = true ∧ r.byte = received)

/-- R117: decoding under the other mode complements F, so an uncorrupted character is flagged and output unmodified, and a
corruption of weight 2 is unflagged with a wrong bit flipped. -/
def Obligations.ModeMismatch : Prop :=
  ∀ (c : Byte) (q : Quad) (m m' : Parity), m ≠ m' →
    failMask c q m' = 0xF#4 ^^^ failMask c q m ∧
    correct c (parityOf c m) m' = ⟨c, 0xF#4, 4, true⟩ ∧
    ((correct c q m).errors = 2 → (correct c q m').errors = 2 ∧ (correct c q m').flagged = false ∧
      (correct c q m').byte ≠ (correct c q m).byte ∧ (correct c q m').byte ≠ c)

/-- R130: the twelve plane bits of a character, and R151: a slot's bits give the character and the quad back. -/
def Obligations.PlaneBitsOfCharacter : Prop :=
  ∀ (c : Byte) (m : Parity),
    (∀ k : Fin 12, k.val < 8 → (planeBits c m)[k] = c.getLsbD (7 - k.val)) ∧
    (∀ k : Fin 12, 8 ≤ k.val → (planeBits c m)[k] = (parityOf c m).getLsbD (k.val - 8)) ∧
    slotByte (planeBits c m) = c ∧ slotQuad (planeBits c m) = parityOf c m

/-! ### HAM_ENC and HAM_DEC -/

/-- R112: HAM_ENC completes outside FAULT, writes RES as its fields say, and changes nothing else; in FAULT it has no effect; a
word with one of its reserved bits set is illegal. -/
def Obligations.HamEncWritesQuad : Prop :=
  (∀ c : Byte, decode (0x80000000#32 ||| c.setWidth 32) = .ok (.hamEnc c)) ∧
  (∀ w : Word, opField w = 0x8#4 → w.extractLsb' 8 20 ≠ 0#20 → RaisesIllegal w) ∧
  (∀ (s : State) (c : Byte), s.phase = .fault → exec (.hamEnc c) s = .next s) ∧
  ∀ (s : State) (c : Byte), s.phase ≠ .fault → ∃ t, exec (.hamEnc c) s = .next t ∧ t = { s with res := t.res } ∧
    t.res.extractLsb' 0 8 = c ∧ t.res.extractLsb' 8 4 = parityOf c s.mode ∧ t.res.extractLsb' 12 4 = 0x0#4 ∧
    t.res.extractLsb' 16 3 = 0#3 ∧ t.res.getLsbD 19 = false ∧ t.res.getLsbD 20 = printable c ∧
    t.res.extractLsb' 21 11 = 0#11

/-- R113: HAM_DEC completes outside FAULT for every quad, writes RES as its fields say, and changes nothing else: FLAG_ANY is
unchanged. In FAULT it has no effect; a word with one of its reserved bits set is illegal. -/
def Obligations.HamDecWritesCorrection : Prop :=
  (∀ (q : Quad) (c : Byte),
    decode (0x90000000#32 ||| q.setWidth 32 <<< 24 ||| c.setWidth 32) = .ok (.hamDec q c)) ∧
  (∀ w : Word, opField w = 0x9#4 → w.extractLsb' 8 16 ≠ 0#16 → RaisesIllegal w) ∧
  (∀ (s : State) (q : Quad) (c : Byte), s.phase = .fault → exec (.hamDec q c) s = .next s) ∧
  ∀ (s : State) (q : Quad) (c : Byte), s.phase ≠ .fault →
    let r := correct c q s.mode
    ∃ t, exec (.hamDec q c) s = .next t ∧ t = { s with res := t.res } ∧
      t.res.extractLsb' 0 8 = r.byte ∧ t.res.extractLsb' 8 4 = q ∧ t.res.extractLsb' 12 4 = r.fail ∧
      (t.res.extractLsb' 16 3).toNat = r.errors ∧ t.res.getLsbD 19 = r.flagged ∧
      t.res.getLsbD 20 = printable r.byte ∧ t.res.extractLsb' 21 11 = 0#11

/-! ### Control -/

/-- R173: NOP completes in every phase and changes nothing; any other word with its OP is illegal. -/
def Obligations.NopChangesNothing : Prop :=
  decode 0x00000000#32 = .ok .nop ∧ (∀ w : Word, opField w = 0x0#4 → w ≠ 0x00000000#32 → RaisesIllegal w) ∧
  ∀ s : State, exec .nop s = .next s

/-- R172: SETMODE completes in IDLE, writes MODE and nothing else; it raises SEQUENCE in a pass; a word with one of
its reserved bits set is illegal. -/
def Obligations.SetModeWritesMode : Prop :=
  decode 0x10000000#32 = .ok (.setMode .even) ∧ decode 0x10000001#32 = .ok (.setMode .odd) ∧
  (∀ w : Word, opField w = 0x1#4 → w.extractLsb' 1 27 ≠ 0#27 → RaisesIllegal w) ∧
  ∀ (s : State) (m : Parity),
    (s.phase = .idle → exec (.setMode m) s = .next { s with mode := m }) ∧
    (s.phase = .encoding ∨ s.phase = .decoding →
      exec (.setMode m) s = .next { s with phase := .fault, err := .sequence })

/-! ### The encode pass -/

/-- R133: ENC_BEGIN completes in IDLE and writes PHASE, N, ECNT, NBYTE and ACC, and nothing else; it raises SEQUENCE in a
pass; any other word with its OP is illegal. -/
def Obligations.EncBeginStartsPass : Prop :=
  decode 0x20000000#32 = .ok .encBegin ∧ (∀ w : Word, opField w = 0x2#4 → w ≠ 0x20000000#32 → RaisesIllegal w) ∧
  ∀ s : State,
    (s.phase = .idle → ∃ t, exec .encBegin s = .next t ∧ (∀ k : Fin 12, t.acc[k] = 0x00#8) ∧
      t = { s with phase := .encoding, n := 0#20, ecnt := 0#3, nbyte := 0#16, acc := t.acc }) ∧
    (s.phase = .encoding ∨ s.phase = .decoding →
      exec .encBegin s = .next { s with phase := .fault, err := .sequence })

/-- R134: ENC_CHAR in ENCODING. At the bound it raises SIZE_EXCEEDED; below it a character joins the group, and the eighth one
writes the group's twelve bytes at NBYTE. Nothing else changes, and no other byte of memory does. (`NBYTE < B` where a group is
written holds wherever the invariant does.) It raises SEQUENCE in IDLE and DECODING; a word with one of its reserved bits set is
illegal. -/
def Obligations.EncCharPacksCharacter : Prop :=
  (∀ c : Byte, decode (0x30000000#32 ||| c.setWidth 32) = .ok (.encChar c)) ∧
  (∀ w : Word, opField w = 0x3#4 → w.extractLsb' 8 20 ≠ 0#20 → RaisesIllegal w) ∧
  (∀ (s : State) (c : Byte), s.phase = .idle ∨ s.phase = .decoding →
    exec (.encChar c) s = .next { s with phase := .fault, err := .sequence }) ∧
  ∀ (s : State) (c : Byte), s.phase = .encoding →
    let shifted := fun k : Fin 12 => (s.acc[k] <<< 1) ||| (if (planeBits c s.mode)[k] then 0x01#8 else 0x00#8)
    (s.n.toNat = s.maxN → exec (.encChar c) s = .next { s with phase := .fault, err := .sizeExceeded }) ∧
    (s.n.toNat ≠ s.maxN → s.ecnt ≠ 7#3 → ∃ t, exec (.encChar c) s = .next t ∧
      t = { s with acc := t.acc, n := s.n + 1#20, ecnt := s.ecnt + 1#3 } ∧ ∀ k : Fin 12, t.acc[k] = shifted k) ∧
    (s.n.toNat ≠ s.maxN → s.ecnt = 7#3 → s.nbyte.toNat < (s.maxN + 7) / 8 → ∃ t, exec (.encChar c) s = .next t ∧
      t = { s with acc := t.acc, n := s.n + 1#20, ecnt := 0#3, nbyte := s.nbyte + 1#16, plane := t.plane } ∧
      (∀ k : Fin 12, t.acc[k] = 0x00#8) ∧
      (∀ k : Fin 12, readPlane t k.val s.nbyte.toNat = some (shifted k)) ∧
      (∀ a : Nat, (∀ k : Fin 12, a ≠ planeAddr k.val s.nbyte.toNat) → t.plane.byteAt a = s.plane.byteAt a))

/-- R135: ENC_END in ENCODING. A pending partial group is written left-aligned at NBYTE; the group is forgotten and PHASE is
IDLE. Nothing else changes, and no other byte of memory does. It raises SEQUENCE in IDLE and DECODING; any other word with its OP
is illegal. -/
def Obligations.EncEndStoresPartialGroup : Prop :=
  decode 0x40000000#32 = .ok .encEnd ∧ (∀ w : Word, opField w = 0x4#4 → w ≠ 0x40000000#32 → RaisesIllegal w) ∧
  (∀ s : State, s.phase = .idle ∨ s.phase = .decoding →
    exec .encEnd s = .next { s with phase := .fault, err := .sequence }) ∧
  ∀ s : State, s.phase = .encoding →
    (s.ecnt = 0#3 → ∃ t, exec .encEnd s = .next t ∧ t = { s with acc := t.acc, phase := .idle } ∧
      ∀ k : Fin 12, t.acc[k] = 0x00#8) ∧
    (s.ecnt ≠ 0#3 → s.nbyte.toNat < (s.maxN + 7) / 8 → ∃ t, exec .encEnd s = .next t ∧
      t = { s with acc := t.acc, ecnt := 0#3, nbyte := s.nbyte + 1#16, phase := .idle, plane := t.plane } ∧
      (∀ k : Fin 12, t.acc[k] = 0x00#8) ∧
      (∀ k : Fin 12, readPlane t k.val s.nbyte.toNat = some (s.acc[k] <<< (8 - s.ecnt.toNat))) ∧
      (∀ a : Nat, (∀ k : Fin 12, a ≠ planeAddr k.val s.nbyte.toNat) → t.plane.byteAt a = s.plane.byteAt a))

/-- R133: ENC_BEGIN starts the packing of the empty message. -/
def Obligations.EncBeginPacksEmptyMessage : Prop :=
  ∀ s : State, s.phase = .idle → s.maxN ≤ 524280 →
    ∃ t, exec .encBegin s = .next t ∧ Packing [] t ∧ t.mode = s.mode

/-- R131 and R134: ENC_CHAR takes a packing of a message to the packing of that message with the character appended, for every
message below the bound. -/
def Obligations.EncCharExtendsPacking : Prop :=
  ∀ (s : State) (message : List Byte) (c : Byte), Packing message s → message.length < s.maxN →
    ∃ t, exec (.encChar c) s = .next t ∧ Packing (message ++ [c]) t ∧ t.mode = s.mode

/-- R131, R132 and R135: ENC_END leaves the planes holding the message, `ceil(N / 8)` bytes each, in the layout of R131. -/
def Obligations.EncEndLeavesPackedPlanes : Prop :=
  ∀ (s : State) (message : List Byte), Packing message s →
    ∃ t, exec .encEnd s = .next t ∧ t.phase = .idle ∧ t.nbyte.toNat = (message.length + 7) / 8 ∧
      t.n.toNat = message.length ∧ t.mode = s.mode ∧ PlanesHold message s.mode ((message.length + 7) / 8) t

/-- R31 and R136: after ENC_END `NBYTE = ceil(N / 8)`, ECNT and every ACC are 0, and every byte below NBYTE of every plane is
written. -/
def Obligations.EncEndLeavesWholeBytes : Prop :=
  ∀ s t : State, Invariant s → s.phase = .encoding → exec .encEnd s = .next t →
    t.phase = .idle ∧ t.n = s.n ∧ t.nbyte.toNat = (t.n.toNat + 7) / 8 ∧ t.ecnt = 0#3 ∧ (∀ k : Fin 12, t.acc[k] = 0x00#8) ∧
    ∀ k : Fin 12, ∀ pos < t.nbyte.toNat, (readPlane t k.val pos).isSome

/-- R55 and R132: with `r = N mod 8` not 0, bits `7 - r` down to 0 of the final byte of every plane are 0. -/
def Obligations.PaddingBitsAreZero : Prop :=
  ∀ s : State, Invariant s → s.phase = .encoding → s.n.toNat % 8 ≠ 0 →
    ∃ t, exec .encEnd s = .next t ∧ ∀ k : Fin 12, ∃ b, readPlane t k.val (s.n.toNat / 8) = some b ∧
      ∀ j < 8 - s.n.toNat % 8, b.getLsbD j = false

/-! ### The decode pass -/

/-- R153: DEC_BEGIN in IDLE. It raises EMPTY_INPUT for length 0 and PLANE_RANGE for a length above B; otherwise it writes NBYTE,
DPOS, FLAG_ANY and PHASE and nothing else. It raises SEQUENCE in a pass; a word with one of its reserved bits set is illegal. -/
def Obligations.DecBeginStartsPass : Prop :=
  (∀ nbyte : BitVec 16, decode (0x50000000#32 ||| nbyte.setWidth 32 <<< 8) = .ok (.decBegin nbyte)) ∧
  (∀ w : Word, opField w = 0x5#4 → w.extractLsb' 24 4 ≠ 0#4 ∨ w.extractLsb' 0 8 ≠ 0#8 → RaisesIllegal w) ∧
  ∀ (s : State) (nbyte : BitVec 16),
    (s.phase = .idle → nbyte.toNat = 0 → exec (.decBegin nbyte) s = .next { s with phase := .fault, err := .emptyInput }) ∧
    (s.phase = .idle → (s.maxN + 7) / 8 < nbyte.toNat →
      exec (.decBegin nbyte) s = .next { s with phase := .fault, err := .planeRange }) ∧
    (s.phase = .idle → 1 ≤ nbyte.toNat → nbyte.toNat ≤ (s.maxN + 7) / 8 →
      exec (.decBegin nbyte) s = .next { s with nbyte := nbyte, dpos := 0#20, flagAny := false, phase := .decoding }) ∧
    (s.phase = .encoding ∨ s.phase = .decoding →
      exec (.decBegin nbyte) s = .next { s with phase := .fault, err := .sequence })

/-- R150, R151 and R154: DEC_CHAR in DECODING. Past the last slot it raises DECODE_OVERRUN. On a slot whose twelve bytes are
written it reads the slot's bits, writes RES, ORs the flag into FLAG_ANY and advances DPOS, and changes nothing else. It raises
SEQUENCE in IDLE and ENCODING; any other word with its OP is illegal. -/
def Obligations.DecCharDecodesSlot : Prop :=
  decode 0x60000000#32 = .ok .decChar ∧ (∀ w : Word, opField w = 0x6#4 → w ≠ 0x60000000#32 → RaisesIllegal w) ∧
  (∀ s : State, s.phase = .idle ∨ s.phase = .encoding →
    exec .decChar s = .next { s with phase := .fault, err := .sequence }) ∧
  ∀ s : State, s.phase = .decoding →
    (s.dpos.toNat = 8 * s.nbyte.toNat → exec .decChar s = .next { s with phase := .fault, err := .decodeOverrun }) ∧
    (∀ (bytes : Vector Byte 12) (c : Byte) (q : Quad), s.dpos.toNat ≠ 8 * s.nbyte.toNat →
      s.dpos.toNat / 8 < (s.maxN + 7) / 8 →
      (∀ k : Fin 12, readPlane s k.val (s.dpos.toNat / 8) = some bytes[k]) →
      (∀ k : Fin 12, k.val < 8 → c.getLsbD (7 - k.val) = bytes[k].getLsbD (7 - s.dpos.toNat % 8)) →
      (∀ k : Fin 12, 8 ≤ k.val → q.getLsbD (k.val - 8) = bytes[k].getLsbD (7 - s.dpos.toNat % 8)) →
      let r := correct c q s.mode
      ∃ t, exec .decChar s = .next t ∧
        t = { s with res := t.res, flagAny := s.flagAny || r.flagged, dpos := s.dpos + 1#20 } ∧
        t.res.extractLsb' 0 8 = r.byte ∧ t.res.extractLsb' 8 4 = q ∧ t.res.extractLsb' 12 4 = r.fail ∧
        (t.res.extractLsb' 16 3).toNat = r.errors ∧ t.res.getLsbD 19 = r.flagged ∧
        t.res.getLsbD 20 = printable r.byte ∧ t.res.extractLsb' 21 11 = 0#11)

/-- R155: DEC_END completes in DECODING at any DPOS, writes PHASE and nothing else; it raises SEQUENCE in the other phases
outside FAULT; any other word with its OP is illegal. -/
def Obligations.DecEndEndsPass : Prop :=
  decode 0x70000000#32 = .ok .decEnd ∧ (∀ w : Word, opField w = 0x7#4 → w ≠ 0x70000000#32 → RaisesIllegal w) ∧
  ∀ s : State,
    (s.phase = .decoding → exec .decEnd s = .next { s with phase := .idle }) ∧
    (s.phase = .idle ∨ s.phase = .encoding → exec .decEnd s = .next { s with phase := .fault, err := .sequence })

/-- The per-slot core of R158: with the planes holding a message under the block's mode, DEC_CHAR at one of the message's slots
gives that character back, unflagged, and leaves FLAG_ANY as it was. The printable range is R111's, which the spec takes from
general knowledge (GK1, log entry 9). -/
def Obligations.DecCharRecoversMessage : Prop :=
  ∀ (s : State) (message : List Byte) (c : Byte), s.phase = .decoding → message.length ≤ s.maxN →
    s.nbyte.toNat = (message.length + 7) / 8 → PlanesHold message s.mode s.nbyte.toNat s →
    message[s.dpos.toNat]? = some c →
    ∃ t, exec .decChar s = .next t ∧ t.dpos = s.dpos + 1#20 ∧ t.flagAny = s.flagAny ∧ t.res.extractLsb' 0 8 = c ∧
      t.res.getLsbD 19 = false ∧
      printedByte t.res = (if 0x20 ≤ c.toNat ∧ c.toNat ≤ 0x7E then some c else none)

/-- R157: a padding slot decodes to 0x00 and is not printed; under EVEN it is unflagged, and under ODD all four checks fail, it
is flagged, FLAG_ANY becomes 1, and the host's warning is due. -/
def Obligations.PaddingSlotsUnderEachMode : Prop :=
  ∀ (s : State) (message : List Byte), s.phase = .decoding → message.length ≤ s.maxN →
    s.nbyte.toNat = (message.length + 7) / 8 → PlanesHold message s.mode s.nbyte.toNat s →
    message.length ≤ s.dpos.toNat → s.dpos.toNat < 8 * s.nbyte.toNat →
    ∃ t, exec .decChar s = .next t ∧ t.dpos = s.dpos + 1#20 ∧ printedByte t.res = none ∧
      (s.mode = .even → t.res = 0x00000000#32 ∧ t.flagAny = s.flagAny) ∧
      (s.mode = .odd → t.res = 0x000CF000#32 ∧ t.flagAny = true ∧ warningDue t = true)

/-! ### The flags and RES -/

/-- R24: who writes FLAG_ANY, and what the host warns by. -/
def Obligations.FlagAnyIsSticky : Prop :=
  (∀ (i : Instr) (s t : State), exec i s = .next t → t.flagAny = s.flagAny ∨
    ((∃ nbyte, i = .decBegin nbyte) ∧ t.flagAny = false) ∨ (i = .clear ∧ t.flagAny = false) ∨
    (i = .decChar ∧ t.flagAny = true ∧ t.res.getLsbD 19 = true)) ∧
  (∀ s t : State, s.phase = .decoding → exec .decChar s = .next t → t.phase = .decoding →
    t.flagAny = (s.flagAny || t.res.getLsbD 19)) ∧
  (∀ (s t : State) (nbyte : BitVec 16), exec (.decBegin nbyte) s = .next t → t.phase = .decoding → s.phase = .idle →
    t.flagAny = false) ∧
  (∀ s t : State, exec .clear s = .next t → t.flagAny = false) ∧
  (∀ (s t : State) (rest : List HostEvent), s.port = .reset :: rest → step s = .next t → t.flagAny = false) ∧
  (∀ s : State, warningDue s = s.flagAny)

/-- R27: only HAM_ENC, HAM_DEC, DEC_CHAR and PLANE_RD write a result into RES; CLEAR and reset write 0; every other command
leaves it. -/
def Obligations.ResHasFourWriters : Prop :=
  (∀ (i : Instr) (s t : State), exec i s = .next t → t.res = s.res ∨ (∃ c, i = .hamEnc c) ∨ (∃ q c, i = .hamDec q c) ∨
    i = .decChar ∨ (∃ k pos, i = .planeRd k pos) ∨ (i = .clear ∧ t.res = 0x00000000#32)) ∧
  (∀ (s t : State) (rest : List HostEvent), s.port = .reset :: rest → step s = .next t → t.res = 0x00000000#32)

/-! ### The plane buffers -/

/-- R170: PLANE_WR in IDLE. Outside the buffers it raises PLANE_RANGE; at a location that exists it writes that byte and
nothing else. It raises SEQUENCE in a pass; every word with its OP is valid. -/
def Obligations.PlaneWrWritesOneByte : Prop :=
  (∀ (k : BitVec 4) (pos : BitVec 16) (c : Byte),
    decode (0xA0000000#32 ||| k.setWidth 32 <<< 24 ||| pos.setWidth 32 <<< 8 ||| c.setWidth 32) = .ok (.planeWr k pos c)) ∧
  (∀ w : Word, opField w = 0xA#4 → ∃ k pos c, decode w = .ok (.planeWr k pos c)) ∧
  ∀ (s : State) (k : BitVec 4) (pos : BitVec 16) (c : Byte),
    (s.phase = .idle → 12 ≤ k.toNat ∨ (s.maxN + 7) / 8 ≤ pos.toNat →
      exec (.planeWr k pos c) s = .next { s with phase := .fault, err := .planeRange }) ∧
    (s.phase = .idle → k.toNat < 12 → pos.toNat < (s.maxN + 7) / 8 → ∃ t, exec (.planeWr k pos c) s = .next t ∧
      t = { s with plane := t.plane } ∧ readPlane t k.toNat pos.toNat = some c ∧
      ∀ a : Nat, a ≠ planeAddr k.toNat pos.toNat → t.plane.byteAt a = s.plane.byteAt a) ∧
    (s.phase = .encoding ∨ s.phase = .decoding →
      exec (.planeWr k pos c) s = .next { s with phase := .fault, err := .sequence })

/-- R171: PLANE_RD in IDLE. Outside the buffers it raises PLANE_RANGE; at a written location it puts the byte in RES, zero
extended, and changes nothing else; at a location nothing has written since power-on it is a model fault. It raises SEQUENCE in a pass; a word with one of its reserved bits set is illegal. -/
def Obligations.PlaneRdReadsOneByte : Prop :=
  (∀ (k : BitVec 4) (pos : BitVec 16),
    decode (0xB0000000#32 ||| k.setWidth 32 <<< 24 ||| pos.setWidth 32 <<< 8) = .ok (.planeRd k pos)) ∧
  (∀ w : Word, opField w = 0xB#4 → w.extractLsb' 0 8 ≠ 0#8 → RaisesIllegal w) ∧
  ∀ (s : State) (k : BitVec 4) (pos : BitVec 16),
    (s.phase = .idle → 12 ≤ k.toNat ∨ (s.maxN + 7) / 8 ≤ pos.toNat →
      exec (.planeRd k pos) s = .next { s with phase := .fault, err := .planeRange }) ∧
    (∀ b : Byte, s.phase = .idle → k.toNat < 12 → pos.toNat < (s.maxN + 7) / 8 →
      readPlane s k.toNat pos.toNat = some b →
      ∃ t, exec (.planeRd k pos) s = .next t ∧ t = { s with res := t.res } ∧ t.res.extractLsb' 0 8 = b ∧
        t.res.extractLsb' 8 24 = 0#24) ∧
    (s.phase = .idle → k.toNat < 12 → pos.toNat < (s.maxN + 7) / 8 → readPlane s k.toNat pos.toNat = none →
      exec (.planeRd k pos) s = .fault (.neverWritten k.toNat pos.toNat)) ∧
    (s.phase = .encoding ∨ s.phase = .decoding →
      exec (.planeRd k pos) s = .next { s with phase := .fault, err := .sequence })

/-! ### Frames -/

/-- R20, R21: which registers each command leaves as they were, when it answers a next state. CLEAR is not among them: it writes
every register (R174). -/
def Obligations.RegisterFrame : Prop :=
  ∀ (i : Instr) (s t : State), exec i s = .next t → i ≠ .clear →
    ((∀ m, i ≠ .setMode m) → t.mode = s.mode) ∧
    (t.err = s.err ∨ (s.phase ≠ .fault ∧ t.phase = .fault)) ∧
    ((∀ c, i ≠ .encChar c) → i ≠ .encBegin → i ≠ .encEnd → t.acc = s.acc ∧ t.ecnt = s.ecnt) ∧
    ((∀ c, i ≠ .encChar c) → i ≠ .encBegin → t.n = s.n) ∧
    ((∀ c, i ≠ .encChar c) → i ≠ .encBegin → i ≠ .encEnd → (∀ nbyte, i ≠ .decBegin nbyte) → t.nbyte = s.nbyte) ∧
    (i ≠ .decChar → (∀ nbyte, i ≠ .decBegin nbyte) → t.dpos = s.dpos ∧ t.flagAny = s.flagAny) ∧
    ((∀ c, i ≠ .hamEnc c) → (∀ q c, i ≠ .hamDec q c) → i ≠ .decChar → (∀ k pos, i ≠ .planeRd k pos) → t.res = s.res) ∧
    t.maxN = s.maxN ∧ t.port = s.port

/-- R58: which bytes of memory a command may change: PLANE_WR one byte, ENC_CHAR and ENC_END the twelve bytes at NBYTE; every
other byte reads as before, and every other command leaves every byte. -/
def Obligations.MemoryFrame : Prop :=
  ∀ (i : Instr) (s t : State), exec i s = .next t →
    (∀ (k : BitVec 4) (pos : BitVec 16) (c : Byte), i = .planeWr k pos c →
      ∀ a : Nat, a ≠ planeAddr k.toNat pos.toNat → t.plane.byteAt a = s.plane.byteAt a) ∧
    ((i = .encEnd ∨ ∃ c, i = .encChar c) →
      ∀ a : Nat, (∀ k : Fin 12, a ≠ planeAddr k.val s.nbyte.toNat) → t.plane.byteAt a = s.plane.byteAt a) ∧
    ((∀ k pos c, i ≠ .planeWr k pos c) → i ≠ .encEnd → (∀ c, i ≠ .encChar c) →
      ∀ a : Nat, t.plane.byteAt a = s.plane.byteAt a)

/-- R22: N and DPOS move by exactly 1 or start again, and do not pass their limits. -/
def Obligations.CountersAdvanceByOne : Prop :=
  ∀ (i : Instr) (s t : State), Invariant s → exec i s = .next t →
    (t.n = s.n ∨ ((i = .encBegin ∨ i = .clear) ∧ t.n = 0#20) ∨
      ((∃ c, i = .encChar c) ∧ t.n.toNat = s.n.toNat + 1 ∧ t.n.toNat ≤ s.maxN)) ∧
    (t.dpos = s.dpos ∨ ((i = .clear ∨ ∃ nbyte, i = .decBegin nbyte) ∧ t.dpos = 0#20) ∨
      (i = .decChar ∧ t.dpos.toNat = s.dpos.toNat + 1 ∧ t.dpos.toNat ≤ 8 * s.nbyte.toNat))

/-! ### The read port -/

/-- R26: the fields of STATUS, and R190: ERR shows no code above 6. -/
def Obligations.StatusFields : Prop :=
  ∀ s : State,
    let w := readPort s 0x00#5
    (s.phase = .idle ↔ w.extractLsb' 0 2 = 0#2) ∧ (s.phase = .encoding ↔ w.extractLsb' 0 2 = 1#2) ∧
    (s.phase = .decoding ↔ w.extractLsb' 0 2 = 2#2) ∧ (s.phase = .fault ↔ w.extractLsb' 0 2 = 3#2) ∧
    (s.mode = .odd ↔ w.getLsbD 2 = true) ∧ w.getLsbD 3 = s.flagAny ∧
    (s.err = .none ↔ (w.extractLsb' 4 4).toNat = 0) ∧ (s.err = .illegalCommand ↔ (w.extractLsb' 4 4).toNat = 1) ∧
    (s.err = .sequence ↔ (w.extractLsb' 4 4).toNat = 2) ∧ (s.err = .planeRange ↔ (w.extractLsb' 4 4).toNat = 3) ∧
    (s.err = .emptyInput ↔ (w.extractLsb' 4 4).toNat = 4) ∧ (s.err = .sizeExceeded ↔ (w.extractLsb' 4 4).toNat = 5) ∧
    (s.err = .decodeOverrun ↔ (w.extractLsb' 4 4).toNat = 6) ∧ (w.extractLsb' 4 4).toNat ≤ 6 ∧
    w.extractLsb' 8 24 = 0#24

/-- R29: the map of the read port over all 32 addresses. -/
def Obligations.ReadPortMap : Prop :=
  ∀ s : State,
    readPort s 0x00#5 = statusWord s ∧ readPort s 0x01#5 = s.res ∧
    (readPort s 0x02#5).toNat = s.n.toNat ∧ (readPort s 0x03#5).toNat = s.nbyte.toNat ∧
    (readPort s 0x04#5).toNat = s.dpos.toNat ∧ (readPort s 0x05#5).toNat = s.ecnt.toNat ∧
    readPort s 0x06#5 = maxnWord s ∧ readPort s 0x07#5 = pbytesWord s ∧
    (∀ a : BitVec 5, 0x08 ≤ a.toNat → a.toNat ≤ 0x0F → readPort s a = 0x00000000#32) ∧
    (∀ k : Fin 12, (readPort s (BitVec.ofNat 5 (0x10 + k.val))).toNat = s.acc[k].toNat) ∧
    (∀ a : BitVec 5, 0x1C ≤ a.toNat → readPort s a = 0x00000000#32)

/-- R28: MAXN and PBYTES read MAX_N and B, and no step changes them. -/
def Obligations.ParameterRegistersAreConstant : Prop :=
  (∀ s : State, 1 ≤ s.maxN → s.maxN ≤ 524280 →
    (readPort s 0x06#5).toNat = s.maxN ∧ (readPort s 0x07#5).toNat = (s.maxN + 7) / 8) ∧
  (∀ s t : State, step s = .next t →
    t.maxN = s.maxN ∧ readPort t 0x06#5 = readPort s 0x06#5 ∧ readPort t 0x07#5 = readPort s 0x07#5)

/-- R156: what the host prints after a decoded character: the byte exactly when it is printable. The range is R111's, which the
spec takes from general knowledge (GK1, log entry 9). -/
def Obligations.OutputFilterPrintsPrintable : Prop :=
  ∀ (r : Corrected) (q : Quad),
    printedByte (decodedRes r q) = if 0x20 ≤ r.byte.toNat ∧ r.byte.toNat ≤ 0x7E then some r.byte else none

/-! ### Invariants -/

/-- The invariant is kept by every step, from every state that meets it: the counters, the accumulators, the buffers, ERR and
RES of R20 to R36 stay as the rules say, and the memory list stays in the model's canonical form (log entry 7). -/
def Obligations.StepKeepsInvariant : Prop :=
  ∀ s t : State, Invariant s → step s = .next t → Invariant t

/-- Every step keeps the plane memory in its canonical form, from every state whatever. The form, a list with strictly rising
addresses, is the model's choice (log entry 7). -/
def Obligations.StepKeepsMemoryCanonical : Prop :=
  ∀ s t : State, Memory.wf s.plane → step s = .next t → Memory.wf t.plane

/-- R36, R52, U1: from a state that meets the invariant the model stops only where DEC_CHAR or PLANE_RD reads a byte that was
never written; no access leaves the plane buffer space. -/
def Obligations.OnlyNeverWrittenReadsStop : Prop :=
  ∀ (s : State) (f : Fault), Invariant s → step s = .fault f →
    ∃ k pos : Nat, f = .neverWritten k pos ∧ k < 12 ∧ pos < (s.maxN + 7) / 8 ∧ readPlane s k pos = none ∧
      ∃ rest : List HostEvent, s.port = .command 0x60000000#32 :: rest ∨
        ∃ p : BitVec 16, s.port = .command (encode (.planeRd (BitVec.ofNat 4 k) p)) :: rest ∧ p.toNat = pos

/-- Progress: from a state that meets the invariant, a command outside FAULT that passes every check of R191 runs to a next
state and enters no FAULT, but for a DEC_CHAR or PLANE_RD whose bytes are not all written. -/
def Obligations.CheckedCommandsComplete : Prop :=
  ∀ (i : Instr) (s : State), Invariant s → s.phase ≠ .fault → firstFault i s = .none →
    (∀ k pos, i = .planeRd k pos → (readPlane s k.toNat pos.toNat).isSome) →
    (i = .decChar → ∀ k : Fin 12, (readPlane s k.val (s.dpos.toNat / 8)).isSome) →
    ∃ t, exec i s = .next t ∧ t.phase ≠ .fault ∧ t.err = .none

/-! ### The assembler -/

/-- R78: the word of each line of the syntax table, for every operand that fits its field, and the operands an assembler
rejects: every operand of every command that is not of its form or does not fit its field, and every operand of `setmode` but
the four. How a line splits into tokens is not stated here (log entry 10). -/
def Obligations.AssemblerWords : Prop :=
  let words := fun (name : String) (operands : List AsmToken) => (expand name.toList operands).map (·.map encode)
  let byteFits := fun a : AsmToken => ∃ c < 256, a = .num c ∨ a = .chr c
  let fieldFits := fun (width : Nat) (a : AsmToken) => ∃ n < 2 ^ width, a = .num n
  words "nop" [] = some [0x00000000#32] ∧
  words "setmode" [.word "even".toList] = some [0x10000000#32] ∧ words "setmode" [.word "odd".toList] = some [0x10000001#32] ∧
  words "setmode" [.num 0] = some [0x10000000#32] ∧ words "setmode" [.num 1] = some [0x10000001#32] ∧
  words "enc.begin" [] = some [0x20000000#32] ∧ words "enc.end" [] = some [0x40000000#32] ∧
  words "dec.char" [] = some [0x60000000#32] ∧ words "dec.end" [] = some [0x70000000#32] ∧
  words "clear" [] = some [0xC0000000#32] ∧
  (∀ c < 256, ∀ a ∈ [AsmToken.num c, AsmToken.chr c],
    words "enc.char" [a] = some [0x30000000#32 ||| BitVec.ofNat 32 c] ∧
    words "ham.enc" [a] = some [0x80000000#32 ||| BitVec.ofNat 32 c] ∧
    (∀ q < 16, words "ham.dec" [a, .num q] =
      some [0x90000000#32 ||| BitVec.ofNat 32 q <<< 24 ||| BitVec.ofNat 32 c]) ∧
    (∀ k < 16, ∀ pos < 65536, words "plane.wr" [.num k, .num pos, a] =
      some [0xA0000000#32 ||| BitVec.ofNat 32 k <<< 24 ||| BitVec.ofNat 32 pos <<< 8 ||| BitVec.ofNat 32 c])) ∧
  (∀ nbyte < 65536, words "dec.begin" [.num nbyte] = some [0x50000000#32 ||| BitVec.ofNat 32 nbyte <<< 8]) ∧
  (∀ k < 16, ∀ pos < 65536, words "plane.rd" [.num k, .num pos] =
    some [0xB0000000#32 ||| BitVec.ofNat 32 k <<< 24 ||| BitVec.ofNat 32 pos <<< 8]) ∧
  (∀ a : AsmToken, ¬ byteFits a → words "enc.char" [a] = none ∧ words "ham.enc" [a] = none) ∧
  (∀ a b : AsmToken, ¬ byteFits a ∨ ¬ fieldFits 4 b → words "ham.dec" [a, b] = none) ∧
  (∀ a b c : AsmToken, ¬ fieldFits 4 a ∨ ¬ fieldFits 16 b ∨ ¬ byteFits c → words "plane.wr" [a, b, c] = none) ∧
  (∀ a b : AsmToken, ¬ fieldFits 4 a ∨ ¬ fieldFits 16 b → words "plane.rd" [a, b] = none) ∧
  (∀ a : AsmToken, ¬ fieldFits 16 a → words "dec.begin" [a] = none) ∧
  (∀ operands : List AsmToken,
    operands ∉ [[.word "even".toList], [.word "odd".toList], [.num 0], [.num 1]] → words "setmode" operands = none)

/-- R79: the expansions of the pseudo-instructions. A byte of `plane.load` is a number or a character literal (R78). -/
def Obligations.PseudoInstructionExpansions : Prop :=
  (∀ codes : List Nat, expand "enc.str".toList [.str codes] = some (codes.map fun n => .encChar (BitVec.ofNat 8 n)) ∧
    expand "enc.msg".toList [.str codes] =
      some ([.encBegin] ++ (codes.map fun n => .encChar (BitVec.ofNat 8 n)) ++ [.encEnd])) ∧
  (∀ n < 65536, expand "dec.run".toList [.num n] =
    some ([.decBegin (BitVec.ofNat 16 n)] ++ List.replicate (8 * n) .decChar ++ [.decEnd])) ∧
  (∀ k < 16, ∀ n < 65536, expand "plane.dump".toList [.num k, .num n] =
    some ((List.range n).map fun pos => .planeRd (BitVec.ofNat 4 k) (BitVec.ofNat 16 pos))) ∧
  (∀ (k : Nat) (operands : List AsmToken) (bytes : List Byte), k < 16 → 1 ≤ bytes.length → bytes.length ≤ 65536 →
    List.Forall₂ (fun a (b : Byte) => a = .num b.toNat ∨ a = .chr b.toNat) operands bytes →
    expand "plane.load".toList (.num k :: operands) =
      some (bytes.zipIdx.map fun p => .planeWr (BitVec.ofNat 4 k) (BitVec.ofNat 16 p.2) p.1))

/-! ### The host -/

/-- R232, with R156, R224, R225, R229 and R230: what a host that keeps its duties sends, reads, writes and prints. It rejects
every parity option but the two; it sends at most MAX_N characters and not the final byte; it sends CLEAR first after a fault and
nothing more once a run has faulted; a decode sends SETMODE and then stops where plane 0's file cannot be read, and at a later file
that cannot; RES is read after each DEC_CHAR, its printable bytes are the output, and the warning follows only at the end of the
pass; it writes NBYTE bytes of each plane, and no file after a fault or before ENC_END. (The functions are the model's form of these
duties, log entry 12.) -/
def Obligations.HostKeepsItsDuties : Prop :=
  let opening := fun s : State => if s.phase = .fault then [Instr.clear] else []
  let loads := fun (planes : List (List Byte)) (nbyte : Nat) => planes.zipIdx.flatMap fun f =>
    (f.1.take nbyte).zipIdx.map fun p => Instr.planeWr (BitVec.ofNat 4 f.2) (BitVec.ofNat 16 p.2) p.1
  (∀ (text : List Char) (m : Parity),
    resolveParity text = some m ↔ (text = "even".toList ∧ m = .even) ∨ (text = "odd".toList ∧ m = .odd)) ∧
  (∀ (s : State) (text : List Char), text ≠ "even".toList → text ≠ "odd".toList →
    (∀ input, hostEncode s text input = ⟨[], some .usage⟩) ∧ ∀ files, hostDecode s text files = ⟨[], some .usage⟩) ∧
  (∀ (s : State) (text : List Char) (m : Parity) (input : List Byte), resolveParity text = some m →
    hostEncode s text input =
      if input.dropLast.length ≤ (readPort s 0x06#5).toNat then
        ⟨opening s ++ (if m = (if s.phase = .fault then .even else s.mode) then [] else [.setMode m]) ++
          [.encBegin] ++ input.dropLast.map .encChar ++ [.encEnd], none⟩
      else ⟨[], some .overBound⟩) ∧
  (∀ (s : State) (text : List Char) (m : Parity) (files : Vector (Option (List Byte)) 12), resolveParity text = some m →
    files[0] = none → hostDecode s text files = ⟨opening s ++ [.setMode m], some .io⟩) ∧
  (∀ (s : State) (text : List Char) (m : Parity) (file : List Byte) (planes : List (List Byte))
      (files : Vector (Option (List Byte)) 12) (rest : List (Option (List Byte))),
    resolveParity text = some m → files.toList = (file :: planes).map some ++ none :: rest → file.length ≤ 65535 →
    hostDecode s text files = ⟨opening s ++ [.setMode m] ++ loads (file :: planes) file.length, some .io⟩) ∧
  (∀ (s : State) (text : List Char) (m : Parity) (file : List Byte) (files : Vector (Option (List Byte)) 12),
    resolveParity text = some m → files[0] = some file → 65535 < file.length →
    hostDecode s text files = ⟨opening s ++ [.setMode m] ++ loads [file] 65536, some .overBound⟩) ∧
  (∀ (s : State) (text : List Char) (m : Parity) (planes : Vector (List Byte) 12),
    resolveParity text = some m → planes[0].length ≤ 65535 →
    hostDecode s text (planes.map some) = ⟨opening s ++ [.setMode m] ++ loads planes.toList planes[0].length ++
      [.decBegin (BitVec.ofNat 16 planes[0].length)] ++ List.replicate (8 * planes[0].length) .decChar ++ [.decEnd], none⟩) ∧
  (∀ s : State, hostRun [] s = .next ⟨[], false, s⟩) ∧
  (∀ (i : Instr) (rest : List Instr) (s t : State), exec i s = .next t → t.phase = .fault →
    hostRun (i :: rest) s = .next ⟨[], true, t⟩) ∧
  (∀ (i : Instr) (rest : List Instr) (s t : State) (r : HostRecord), exec i s = .next t → t.phase ≠ .fault →
    hostRun rest t = .next r → ∃ reads, hostRun (i :: rest) s = .next ⟨reads ++ r.reads, r.faulted, r.final⟩ ∧
      (i = .decChar ∨ (∃ k pos, i = .planeRd k pos) → reads = [t.res]) ∧
      (i ≠ .decChar → (∀ k pos, i ≠ .planeRd k pos) → reads = [])) ∧
  (∀ (s : State) (text : List Char) (files : Vector (Option (List Byte)) 12) (r : HostRecord),
    hostRun (hostDecode s text files).commands s = .next r →
    ∃ report, decodeRunReport s text files = .next report ∧ report.final = r.final ∧ report.faulted = r.faulted ∧
      report.printed = r.reads.filterMap printedByte ∧
      (report.warning = true ↔ (hostDecode s text files).stop = none ∧ r.faulted = false ∧ r.final.flagAny = true)) ∧
  (∀ (s : State) (text : List Char) (input : List Byte) (r : HostRecord),
    hostRun (hostEncode s text input).commands s = .next r → (hostEncode s text input).stop ≠ none ∨ r.faulted = true →
    ∃ report, encodeRunReport s text input = .next report ∧ report.files = none ∧ report.final = r.final) ∧
  (∀ (s : State) (text : List Char) (input : List Byte) (r d : HostRecord),
    hostRun (hostEncode s text input).commands s = .next r → (hostEncode s text input).stop = none → r.faulted = false →
    hostRun (dumpProcedure r.final.nbyte.toNat) r.final = .next d → d.faulted = false →
    ∃ report, encodeRunReport s text input = .next report ∧ report.final = d.final ∧
      report.files = some ((List.range 12).map (dumpedFile r.final.nbyte.toNat d.reads))) ∧
  (∀ (s : State) (k : Fin 12), s.phase ≠ .idle → planeFile s k = none) ∧
  (∀ (s : State) (k : Fin 12) (bytes : List Byte), s.phase = .idle →
    (planeFile s k = some bytes ↔ bytes.length = s.nbyte.toNat ∧
      ∀ pos < s.nbyte.toNat, readPlane s k.val pos = bytes[pos]?)) ∧
  (∀ s : State, s.phase = .idle → s.nbyte.toNat ≤ (s.maxN + 7) / 8 →
    (∀ k : Fin 12, ∀ pos < s.nbyte.toNat, (readPlane s k.val pos).isSome) →
    ∃ d, hostRun (dumpProcedure s.nbyte.toNat) s = .next d ∧ d.faulted = false ∧
      ∀ k : Fin 12, planeFile s k = some (dumpedFile s.nbyte.toNat d.reads k.val))
end

