-- ==== Sys2Proof/Laws/Decode.lean ====
section
/-! SUPPORT. The fields of a command word: each field of a packed word is what was packed, and a word is its fields packed. -/

namespace Sys2Proof

/-- The bits of a packed word, field by field (R71). -/
theorem getLsbD_packWord (op k : BitVec 4) (pos : BitVec 16) (d : Byte) (i : Nat) :
    (packWord op k pos d).getLsbD i =
      if i < 8 then d.getLsbD i else if i < 24 then pos.getLsbD (i - 8)
      else if i < 28 then k.getLsbD (i - 24) else op.getLsbD (i - 28) := by
  change BitVec.getLsbD (op ++ k ++ pos ++ d) i = _
  simp only [BitVec.getLsbD_append]
  by_cases h1 : i < 8
  · simp [h1]
  · by_cases h2 : i < 24
    · simp [h1, h2, show i - 8 < 16 by omega]
    · by_cases h3 : i < 28
      · simp [h1, h2, h3, show ¬i - 8 < 16 by omega, show i - 8 - 16 = i - 24 by omega, show i - 24 < 4 by omega]
      · simp [h1, h2, h3, show ¬i - 8 < 16 by omega, show ¬i - 8 - 16 < 4 by omega, show i - 8 - 16 - 4 = i - 28 by omega]

@[simp] theorem opField_packWord (op k : BitVec 4) (pos : BitVec 16) (d : Byte) : opField (packWord op k pos d) = op := by
  ext i hi
  simp only [opField, BitVec.getElem_extractLsb', getLsbD_packWord]
  simp [show ¬28 + i < 8 by omega, show ¬28 + i < 24 by omega, show ¬28 + i < 28 by omega, BitVec.getLsbD_eq_getElem hi]

@[simp] theorem kField_packWord (op k : BitVec 4) (pos : BitVec 16) (d : Byte) : kField (packWord op k pos d) = k := by
  ext i hi
  simp only [kField, BitVec.getElem_extractLsb', getLsbD_packWord]
  simp [show ¬24 + i < 8 by omega, show ¬24 + i < 24 by omega, show 24 + i < 28 by omega, BitVec.getLsbD_eq_getElem hi]

@[simp] theorem posField_packWord (op k : BitVec 4) (pos : BitVec 16) (d : Byte) :
    posField (packWord op k pos d) = pos := by
  ext i hi
  simp only [posField, BitVec.getElem_extractLsb', getLsbD_packWord]
  simp [show ¬8 + i < 8 by omega, show 8 + i < 24 by omega, BitVec.getLsbD_eq_getElem hi]

@[simp] theorem dField_packWord (op k : BitVec 4) (pos : BitVec 16) (d : Byte) : dField (packWord op k pos d) = d := by
  ext i hi
  simp only [dField, BitVec.getElem_extractLsb', getLsbD_packWord]
  simp [hi]

/-- A word is its four fields (R71). -/
theorem packWord_fields (w : Word) : packWord (opField w) (kField w) (posField w) (dField w) = w := by
  apply BitVec.eq_of_getLsbD_eq
  intro i hi
  simp only [getLsbD_packWord, opField, kField, posField, dField, BitVec.getLsbD_extractLsb']
  by_cases h1 : i < 8
  · simp [h1]
  · by_cases h2 : i < 24
    · simp [h1, h2, show i - 8 < 16 by omega, show 8 + (i - 8) = i by omega]
    · by_cases h3 : i < 28
      · simp [h1, h2, h3, show i - 24 < 4 by omega, show 24 + (i - 24) = i by omega]
      · simp [h1, h2, h3, show i - 28 < 4 by omega, show 28 + (i - 28) = i by omega]

/-- The bitwise and of two packed words, field by field. -/
theorem packWord_and (op op' k k' : BitVec 4) (pos pos' : BitVec 16) (d d' : Byte) :
    packWord op k pos d &&& packWord op' k' pos' d' =
      packWord (op &&& op') (k &&& k') (pos &&& pos') (d &&& d') := by
  apply BitVec.eq_of_getLsbD_eq
  intro i hi
  simp only [BitVec.getLsbD_and, getLsbD_packWord]
  split
  · rfl
  · split
    · rfl
    · split <;> rfl

/-- Two packed words are equal exactly when their fields are. -/
theorem packWord_inj {op op' k k' : BitVec 4} {pos pos' : BitVec 16} {d d' : Byte} :
    packWord op k pos d = packWord op' k' pos' d' ↔ op = op' ∧ k = k' ∧ pos = pos' ∧ d = d' := by
  constructor
  · intro h
    refine ⟨?_, ?_, ?_, ?_⟩
    · simpa using congrArg opField h
    · simpa using congrArg kField h
    · simpa using congrArg posField h
    · simpa using congrArg dField h
  · rintro ⟨rfl, rfl, rfl, rfl⟩
    rfl

end Sys2Proof
end

