-- ==== Sys2Proof/Laws/Memory.lean ====
section
/-! SUPPORT. The plane memory: what a read gives after a write, and that every memory operation keeps the canonical form. -/

namespace Sys2Proof.Machine

/-- Two planes at one position, or two positions of one plane, never share an address (R50). -/
theorem planeAddr_inj {k k' pos pos' : Nat} (h : pos < 65536) (h' : pos' < 65536) :
    planeAddr k pos = planeAddr k' pos' ↔ k = k' ∧ pos = pos' := by
  unfold planeAddr; omega

theorem planeAddr_left_inj {k k' pos : Nat} : planeAddr k pos = planeAddr k' pos ↔ k = k' := by
  unfold planeAddr; omega

theorem planeAddr_div {k pos : Nat} (h : pos < 65536) : planeAddr k pos / 65536 = k := by
  unfold planeAddr; omega

theorem planeAddr_mod {k pos : Nat} (h : pos < 65536) : planeAddr k pos % 65536 = pos := by
  unfold planeAddr; omega

@[simp] theorem byteAt_nil (a : Nat) : Memory.byteAt [] a = none := rfl

/-- A read of the address just written gives the byte written. -/
@[simp] theorem byteAt_write_self (m : Memory) (a : Nat) (v : Byte) : (m.write a v).byteAt a = some v := by
  induction m with
  | nil => simp [Memory.write, Memory.byteAt]
  | cons x m ih =>
    obtain ⟨b, y⟩ := x
    simp only [Memory.write]
    split
    · simp [Memory.byteAt]
    · split
      · simp [Memory.byteAt]
      · simp_all [Memory.byteAt]

/-- A read of any other address gives what it gave before. -/
theorem byteAt_write_of_ne (m : Memory) {a b : Nat} (v : Byte) (h : b ≠ a) : (m.write a v).byteAt b = m.byteAt b := by
  induction m with
  | nil => simp [Memory.write, Memory.byteAt, h]
  | cons x m ih =>
    obtain ⟨c, y⟩ := x
    simp only [Memory.write]
    split
    · simp [Memory.byteAt, h]
    · split
      · rename_i hac
        subst hac
        simp [Memory.byteAt, h]
      · simp [Memory.byteAt, ih]

/-- What a write can leave listed: the byte written, or a byte listed before. -/
theorem mem_write {m : Memory} {a : Nat} {v : Byte} {x : Host.Cell} (h : x ∈ m.write a v) : x = (a, v) ∨ x ∈ m := by
  induction m with
  | nil => simpa [Memory.write] using h
  | cons y m ih =>
    obtain ⟨b, z⟩ := y
    simp only [Memory.write] at h
    split at h
    · simpa using h
    · split at h
      · simp only [List.mem_cons] at h
        rcases h with h | h
        · exact .inl h
        · exact .inr (List.mem_cons_of_mem _ h)
      · simp only [List.mem_cons] at h
        rcases h with h | h
        · exact .inr (h ▸ List.mem_cons_self)
        · rcases ih h with h | h
          · exact .inl h
          · exact .inr (List.mem_cons_of_mem _ h)

/-- The head's address lies below every other address, and the tail is canonical. -/
theorem wf_cons {b : Nat} {y : Byte} {m : Memory} : Memory.wf ((b, y) :: m) ↔ (∀ x ∈ m, b < x.1) ∧ Memory.wf m := by
  simp [Memory.wf]

/-- A write keeps the canonical form. -/
theorem write_wf {m : Memory} (a : Nat) (v : Byte) (h : Memory.wf m) : Memory.wf (m.write a v) := by
  induction m with
  | nil => simp [Memory.write, Memory.wf]
  | cons y m ih =>
    obtain ⟨b, z⟩ := y
    obtain ⟨hb, hm⟩ := wf_cons.1 h
    simp only [Memory.write]
    split
    · rename_i hab
      refine wf_cons.2 ⟨?_, h⟩
      intro x hx
      rcases List.mem_cons.1 hx with rfl | hx
      · exact hab
      · exact hab.trans (hb x hx)
    · split
      · rename_i hab
        subst hab
        exact wf_cons.2 ⟨hb, hm⟩
      · refine wf_cons.2 ⟨fun x hx => ?_, ih hm⟩
        rcases mem_write hx with rfl | hx
        · simp only; omega
        · exact hb x hx

/-- A group write leaves every address outside its planes' bytes. -/
theorem byteAt_writeGroup_of_ne (pos : Nat) (bytes : Vector Byte 12) (ks : List (Fin 12)) (m : Memory) {a : Nat}
    (h : ∀ k ∈ ks, a ≠ planeAddr k.val pos) : (Memory.writeGroup pos bytes ks m).byteAt a = m.byteAt a := by
  induction ks generalizing m with
  | nil => rfl
  | cons k ks ih =>
    simp only [Memory.writeGroup]
    rw [ih _ fun j hj => h j (List.mem_cons_of_mem _ hj), byteAt_write_of_ne _ _ (h k List.mem_cons_self)]

/-- A group write leaves each of its planes' bytes at the position. -/
theorem byteAt_writeGroup_self (pos : Nat) (bytes : Vector Byte 12) (ks : List (Fin 12)) (m : Memory) (hks : ks.Nodup)
    {k : Fin 12} (h : k ∈ ks) : (Memory.writeGroup pos bytes ks m).byteAt (planeAddr k.val pos) = some bytes[k] := by
  induction ks generalizing m with
  | nil => simp at h
  | cons j ks ih =>
    simp only [Memory.writeGroup]
    obtain ⟨hj, hks⟩ := List.nodup_cons.1 hks
    rcases List.mem_cons.1 h with rfl | h
    · rw [byteAt_writeGroup_of_ne, byteAt_write_self]
      intro i hi heq
      exact hj (by rwa [Fin.ext (planeAddr_left_inj.1 heq)])
    · exact ih _ hks h

/-- A group write keeps the canonical form. -/
theorem writeGroup_wf (pos : Nat) (bytes : Vector Byte 12) (ks : List (Fin 12)) {m : Memory} (h : Memory.wf m) :
    Memory.wf (Memory.writeGroup pos bytes ks m) := by
  induction ks generalizing m with
  | nil => exact h
  | cons k ks ih => exact ih (write_wf _ _ h)

/-- What a group write can leave listed: a byte of one of its planes at the position, or a byte listed before. -/
theorem mem_writeGroup {pos : Nat} {bytes : Vector Byte 12} {ks : List (Fin 12)} {m : Memory} {x : Host.Cell}
    (h : x ∈ Memory.writeGroup pos bytes ks m) : (∃ k ∈ ks, x.1 = planeAddr k.val pos) ∨ x ∈ m := by
  induction ks generalizing m with
  | nil => exact .inr h
  | cons k ks ih =>
    rcases ih h with ⟨j, hj, hx⟩ | hx
    · exact .inl ⟨j, List.mem_cons_of_mem _ hj, hx⟩
    · rcases mem_write hx with rfl | hx
      · exact .inl ⟨k, List.mem_cons_self, rfl⟩
      · exact .inr hx

theorem mem_planeIndices (k : Fin 12) : k ∈ planeIndices := List.mem_finRange k

theorem planeIndices_nodup : planeIndices.Nodup := List.nodup_finRange 12

/-- The empty memory of power-on is canonical. -/
theorem powerOn_plane_wf (maxN : Nat) : Memory.wf (State.powerOn maxN).plane := by simp [State.powerOn, Memory.wf]

end Sys2Proof.Machine
end

