-- ==== Sys2Proof/Laws/State.lean ====
section
/-! SUPPORT. One lemma per field of State for each update of it: what the update leaves in that field. -/

namespace Sys2Proof.Machine

/-! Fault entry (R194). -/

@[simp] theorem raiseFault_mode (code : ErrCode) (s : State) : (raiseFault code s).mode = s.mode := rfl
@[simp] theorem raiseFault_phase (code : ErrCode) (s : State) : (raiseFault code s).phase = .fault := rfl
@[simp] theorem raiseFault_err (code : ErrCode) (s : State) : (raiseFault code s).err = code := rfl
@[simp] theorem raiseFault_flagAny (code : ErrCode) (s : State) : (raiseFault code s).flagAny = s.flagAny := rfl
@[simp] theorem raiseFault_acc (code : ErrCode) (s : State) : (raiseFault code s).acc = s.acc := rfl
@[simp] theorem raiseFault_ecnt (code : ErrCode) (s : State) : (raiseFault code s).ecnt = s.ecnt := rfl
@[simp] theorem raiseFault_n (code : ErrCode) (s : State) : (raiseFault code s).n = s.n := rfl
@[simp] theorem raiseFault_nbyte (code : ErrCode) (s : State) : (raiseFault code s).nbyte = s.nbyte := rfl
@[simp] theorem raiseFault_dpos (code : ErrCode) (s : State) : (raiseFault code s).dpos = s.dpos := rfl
@[simp] theorem raiseFault_res (code : ErrCode) (s : State) : (raiseFault code s).res = s.res := rfl
@[simp] theorem raiseFault_plane (code : ErrCode) (s : State) : (raiseFault code s).plane = s.plane := rfl
@[simp] theorem raiseFault_maxN (code : ErrCode) (s : State) : (raiseFault code s).maxN = s.maxN := rfl
@[simp] theorem raiseFault_port (code : ErrCode) (s : State) : (raiseFault code s).port = s.port := rfl

/-! CLEAR and reset (R174, R220). -/

@[simp] theorem resetRegisters_mode (s : State) : (resetRegisters s).mode = .even := rfl
@[simp] theorem resetRegisters_phase (s : State) : (resetRegisters s).phase = .idle := rfl
@[simp] theorem resetRegisters_err (s : State) : (resetRegisters s).err = .none := rfl
@[simp] theorem resetRegisters_flagAny (s : State) : (resetRegisters s).flagAny = false := rfl
@[simp] theorem resetRegisters_acc (s : State) : (resetRegisters s).acc = Vector.replicate 12 0#8 := rfl
@[simp] theorem resetRegisters_ecnt (s : State) : (resetRegisters s).ecnt = 0#3 := rfl
@[simp] theorem resetRegisters_n (s : State) : (resetRegisters s).n = 0#20 := rfl
@[simp] theorem resetRegisters_nbyte (s : State) : (resetRegisters s).nbyte = 0#16 := rfl
@[simp] theorem resetRegisters_dpos (s : State) : (resetRegisters s).dpos = 0#20 := rfl
@[simp] theorem resetRegisters_res (s : State) : (resetRegisters s).res = 0#32 := rfl
@[simp] theorem resetRegisters_plane (s : State) : (resetRegisters s).plane = s.plane := rfl
@[simp] theorem resetRegisters_maxN (s : State) : (resetRegisters s).maxN = s.maxN := rfl
@[simp] theorem resetRegisters_port (s : State) : (resetRegisters s).port = s.port := rfl

/-! Taking the host's next input. -/

@[simp] theorem popEvent_mode (s : State) : (popEvent s).mode = s.mode := rfl
@[simp] theorem popEvent_phase (s : State) : (popEvent s).phase = s.phase := rfl
@[simp] theorem popEvent_err (s : State) : (popEvent s).err = s.err := rfl
@[simp] theorem popEvent_flagAny (s : State) : (popEvent s).flagAny = s.flagAny := rfl
@[simp] theorem popEvent_acc (s : State) : (popEvent s).acc = s.acc := rfl
@[simp] theorem popEvent_ecnt (s : State) : (popEvent s).ecnt = s.ecnt := rfl
@[simp] theorem popEvent_n (s : State) : (popEvent s).n = s.n := rfl
@[simp] theorem popEvent_nbyte (s : State) : (popEvent s).nbyte = s.nbyte := rfl
@[simp] theorem popEvent_dpos (s : State) : (popEvent s).dpos = s.dpos := rfl
@[simp] theorem popEvent_res (s : State) : (popEvent s).res = s.res := rfl
@[simp] theorem popEvent_plane (s : State) : (popEvent s).plane = s.plane := rfl
@[simp] theorem popEvent_maxN (s : State) : (popEvent s).maxN = s.maxN := rfl
@[simp] theorem popEvent_port (s : State) : (popEvent s).port = s.port.tail := rfl

/-! The host sends a word. -/

@[simp] theorem sendWord_mode (w : Word) (s : State) : (sendWord w s).mode = s.mode := rfl
@[simp] theorem sendWord_phase (w : Word) (s : State) : (sendWord w s).phase = s.phase := rfl
@[simp] theorem sendWord_err (w : Word) (s : State) : (sendWord w s).err = s.err := rfl
@[simp] theorem sendWord_flagAny (w : Word) (s : State) : (sendWord w s).flagAny = s.flagAny := rfl
@[simp] theorem sendWord_acc (w : Word) (s : State) : (sendWord w s).acc = s.acc := rfl
@[simp] theorem sendWord_ecnt (w : Word) (s : State) : (sendWord w s).ecnt = s.ecnt := rfl
@[simp] theorem sendWord_n (w : Word) (s : State) : (sendWord w s).n = s.n := rfl
@[simp] theorem sendWord_nbyte (w : Word) (s : State) : (sendWord w s).nbyte = s.nbyte := rfl
@[simp] theorem sendWord_dpos (w : Word) (s : State) : (sendWord w s).dpos = s.dpos := rfl
@[simp] theorem sendWord_res (w : Word) (s : State) : (sendWord w s).res = s.res := rfl
@[simp] theorem sendWord_plane (w : Word) (s : State) : (sendWord w s).plane = s.plane := rfl
@[simp] theorem sendWord_maxN (w : Word) (s : State) : (sendWord w s).maxN = s.maxN := rfl
@[simp] theorem sendWord_port (w : Word) (s : State) : (sendWord w s).port = .command w :: s.port := rfl

/-! A result (R27). -/

@[simp] theorem setRes_mode (v : BitVec 32) (s : State) : (setRes v s).mode = s.mode := rfl
@[simp] theorem setRes_phase (v : BitVec 32) (s : State) : (setRes v s).phase = s.phase := rfl
@[simp] theorem setRes_err (v : BitVec 32) (s : State) : (setRes v s).err = s.err := rfl
@[simp] theorem setRes_flagAny (v : BitVec 32) (s : State) : (setRes v s).flagAny = s.flagAny := rfl
@[simp] theorem setRes_acc (v : BitVec 32) (s : State) : (setRes v s).acc = s.acc := rfl
@[simp] theorem setRes_ecnt (v : BitVec 32) (s : State) : (setRes v s).ecnt = s.ecnt := rfl
@[simp] theorem setRes_n (v : BitVec 32) (s : State) : (setRes v s).n = s.n := rfl
@[simp] theorem setRes_nbyte (v : BitVec 32) (s : State) : (setRes v s).nbyte = s.nbyte := rfl
@[simp] theorem setRes_dpos (v : BitVec 32) (s : State) : (setRes v s).dpos = s.dpos := rfl
@[simp] theorem setRes_res (v : BitVec 32) (s : State) : (setRes v s).res = v := rfl
@[simp] theorem setRes_plane (v : BitVec 32) (s : State) : (setRes v s).plane = s.plane := rfl
@[simp] theorem setRes_maxN (v : BitVec 32) (s : State) : (setRes v s).maxN = s.maxN := rfl
@[simp] theorem setRes_port (v : BitVec 32) (s : State) : (setRes v s).port = s.port := rfl

/-! The sticky flag (R24). -/

@[simp] theorem stickyFlag_mode (flag : Bool) (s : State) : (stickyFlag flag s).mode = s.mode := rfl
@[simp] theorem stickyFlag_phase (flag : Bool) (s : State) : (stickyFlag flag s).phase = s.phase := rfl
@[simp] theorem stickyFlag_err (flag : Bool) (s : State) : (stickyFlag flag s).err = s.err := rfl
@[simp] theorem stickyFlag_flagAny (flag : Bool) (s : State) : (stickyFlag flag s).flagAny = (s.flagAny || flag) := rfl
@[simp] theorem stickyFlag_acc (flag : Bool) (s : State) : (stickyFlag flag s).acc = s.acc := rfl
@[simp] theorem stickyFlag_ecnt (flag : Bool) (s : State) : (stickyFlag flag s).ecnt = s.ecnt := rfl
@[simp] theorem stickyFlag_n (flag : Bool) (s : State) : (stickyFlag flag s).n = s.n := rfl
@[simp] theorem stickyFlag_nbyte (flag : Bool) (s : State) : (stickyFlag flag s).nbyte = s.nbyte := rfl
@[simp] theorem stickyFlag_dpos (flag : Bool) (s : State) : (stickyFlag flag s).dpos = s.dpos := rfl
@[simp] theorem stickyFlag_res (flag : Bool) (s : State) : (stickyFlag flag s).res = s.res := rfl
@[simp] theorem stickyFlag_plane (flag : Bool) (s : State) : (stickyFlag flag s).plane = s.plane := rfl
@[simp] theorem stickyFlag_maxN (flag : Bool) (s : State) : (stickyFlag flag s).maxN = s.maxN := rfl
@[simp] theorem stickyFlag_port (flag : Bool) (s : State) : (stickyFlag flag s).port = s.port := rfl

/-! SETMODE's effect (R172). -/

@[simp] theorem setMode_mode (m : Parity) (s : State) : (setMode m s).mode = m := rfl
@[simp] theorem setMode_phase (m : Parity) (s : State) : (setMode m s).phase = s.phase := rfl
@[simp] theorem setMode_err (m : Parity) (s : State) : (setMode m s).err = s.err := rfl
@[simp] theorem setMode_flagAny (m : Parity) (s : State) : (setMode m s).flagAny = s.flagAny := rfl
@[simp] theorem setMode_acc (m : Parity) (s : State) : (setMode m s).acc = s.acc := rfl
@[simp] theorem setMode_ecnt (m : Parity) (s : State) : (setMode m s).ecnt = s.ecnt := rfl
@[simp] theorem setMode_n (m : Parity) (s : State) : (setMode m s).n = s.n := rfl
@[simp] theorem setMode_nbyte (m : Parity) (s : State) : (setMode m s).nbyte = s.nbyte := rfl
@[simp] theorem setMode_dpos (m : Parity) (s : State) : (setMode m s).dpos = s.dpos := rfl
@[simp] theorem setMode_res (m : Parity) (s : State) : (setMode m s).res = s.res := rfl
@[simp] theorem setMode_plane (m : Parity) (s : State) : (setMode m s).plane = s.plane := rfl
@[simp] theorem setMode_maxN (m : Parity) (s : State) : (setMode m s).maxN = s.maxN := rfl
@[simp] theorem setMode_port (m : Parity) (s : State) : (setMode m s).port = s.port := rfl

/-! ENC_BEGIN's effect (R133). -/

@[simp] theorem beginEncode_mode (s : State) : (beginEncode s).mode = s.mode := rfl
@[simp] theorem beginEncode_phase (s : State) : (beginEncode s).phase = .encoding := rfl
@[simp] theorem beginEncode_err (s : State) : (beginEncode s).err = s.err := rfl
@[simp] theorem beginEncode_flagAny (s : State) : (beginEncode s).flagAny = s.flagAny := rfl
@[simp] theorem beginEncode_acc (s : State) : (beginEncode s).acc = emptyAcc := rfl
@[simp] theorem beginEncode_ecnt (s : State) : (beginEncode s).ecnt = 0#3 := rfl
@[simp] theorem beginEncode_n (s : State) : (beginEncode s).n = 0#20 := rfl
@[simp] theorem beginEncode_nbyte (s : State) : (beginEncode s).nbyte = 0#16 := rfl
@[simp] theorem beginEncode_dpos (s : State) : (beginEncode s).dpos = s.dpos := rfl
@[simp] theorem beginEncode_res (s : State) : (beginEncode s).res = s.res := rfl
@[simp] theorem beginEncode_plane (s : State) : (beginEncode s).plane = s.plane := rfl
@[simp] theorem beginEncode_maxN (s : State) : (beginEncode s).maxN = s.maxN := rfl
@[simp] theorem beginEncode_port (s : State) : (beginEncode s).port = s.port := rfl

/-! The group forgotten (R134, R135). -/

@[simp] theorem emptyGroup_mode (s : State) : (emptyGroup s).mode = s.mode := rfl
@[simp] theorem emptyGroup_phase (s : State) : (emptyGroup s).phase = s.phase := rfl
@[simp] theorem emptyGroup_err (s : State) : (emptyGroup s).err = s.err := rfl
@[simp] theorem emptyGroup_flagAny (s : State) : (emptyGroup s).flagAny = s.flagAny := rfl
@[simp] theorem emptyGroup_acc (s : State) : (emptyGroup s).acc = emptyAcc := rfl
@[simp] theorem emptyGroup_ecnt (s : State) : (emptyGroup s).ecnt = 0#3 := rfl
@[simp] theorem emptyGroup_n (s : State) : (emptyGroup s).n = s.n := rfl
@[simp] theorem emptyGroup_nbyte (s : State) : (emptyGroup s).nbyte = s.nbyte := rfl
@[simp] theorem emptyGroup_dpos (s : State) : (emptyGroup s).dpos = s.dpos := rfl
@[simp] theorem emptyGroup_res (s : State) : (emptyGroup s).res = s.res := rfl
@[simp] theorem emptyGroup_plane (s : State) : (emptyGroup s).plane = s.plane := rfl
@[simp] theorem emptyGroup_maxN (s : State) : (emptyGroup s).maxN = s.maxN := rfl
@[simp] theorem emptyGroup_port (s : State) : (emptyGroup s).port = s.port := rfl

/-! DEC_BEGIN's effect (R153). -/

@[simp] theorem beginDecode_mode (nbyte : BitVec 16) (s : State) : (beginDecode nbyte s).mode = s.mode := rfl
@[simp] theorem beginDecode_phase (nbyte : BitVec 16) (s : State) : (beginDecode nbyte s).phase = .decoding := rfl
@[simp] theorem beginDecode_err (nbyte : BitVec 16) (s : State) : (beginDecode nbyte s).err = s.err := rfl
@[simp] theorem beginDecode_flagAny (nbyte : BitVec 16) (s : State) : (beginDecode nbyte s).flagAny = false := rfl
@[simp] theorem beginDecode_acc (nbyte : BitVec 16) (s : State) : (beginDecode nbyte s).acc = s.acc := rfl
@[simp] theorem beginDecode_ecnt (nbyte : BitVec 16) (s : State) : (beginDecode nbyte s).ecnt = s.ecnt := rfl
@[simp] theorem beginDecode_n (nbyte : BitVec 16) (s : State) : (beginDecode nbyte s).n = s.n := rfl
@[simp] theorem beginDecode_nbyte (nbyte : BitVec 16) (s : State) : (beginDecode nbyte s).nbyte = nbyte := rfl
@[simp] theorem beginDecode_dpos (nbyte : BitVec 16) (s : State) : (beginDecode nbyte s).dpos = 0#20 := rfl
@[simp] theorem beginDecode_res (nbyte : BitVec 16) (s : State) : (beginDecode nbyte s).res = s.res := rfl
@[simp] theorem beginDecode_plane (nbyte : BitVec 16) (s : State) : (beginDecode nbyte s).plane = s.plane := rfl
@[simp] theorem beginDecode_maxN (nbyte : BitVec 16) (s : State) : (beginDecode nbyte s).maxN = s.maxN := rfl
@[simp] theorem beginDecode_port (nbyte : BitVec 16) (s : State) : (beginDecode nbyte s).port = s.port := rfl

/-! DPOS advances (R154). -/

@[simp] theorem nextSlot_mode (s : State) : (nextSlot s).mode = s.mode := rfl
@[simp] theorem nextSlot_phase (s : State) : (nextSlot s).phase = s.phase := rfl
@[simp] theorem nextSlot_err (s : State) : (nextSlot s).err = s.err := rfl
@[simp] theorem nextSlot_flagAny (s : State) : (nextSlot s).flagAny = s.flagAny := rfl
@[simp] theorem nextSlot_acc (s : State) : (nextSlot s).acc = s.acc := rfl
@[simp] theorem nextSlot_ecnt (s : State) : (nextSlot s).ecnt = s.ecnt := rfl
@[simp] theorem nextSlot_n (s : State) : (nextSlot s).n = s.n := rfl
@[simp] theorem nextSlot_nbyte (s : State) : (nextSlot s).nbyte = s.nbyte := rfl
@[simp] theorem nextSlot_dpos (s : State) : (nextSlot s).dpos = s.dpos + 1#20 := rfl
@[simp] theorem nextSlot_res (s : State) : (nextSlot s).res = s.res := rfl
@[simp] theorem nextSlot_plane (s : State) : (nextSlot s).plane = s.plane := rfl
@[simp] theorem nextSlot_maxN (s : State) : (nextSlot s).maxN = s.maxN := rfl
@[simp] theorem nextSlot_port (s : State) : (nextSlot s).port = s.port := rfl

/-! DEC_END's effect (R155). -/

@[simp] theorem endDecode_mode (s : State) : (endDecode s).mode = s.mode := rfl
@[simp] theorem endDecode_phase (s : State) : (endDecode s).phase = .idle := rfl
@[simp] theorem endDecode_err (s : State) : (endDecode s).err = s.err := rfl
@[simp] theorem endDecode_flagAny (s : State) : (endDecode s).flagAny = s.flagAny := rfl
@[simp] theorem endDecode_acc (s : State) : (endDecode s).acc = s.acc := rfl
@[simp] theorem endDecode_ecnt (s : State) : (endDecode s).ecnt = s.ecnt := rfl
@[simp] theorem endDecode_n (s : State) : (endDecode s).n = s.n := rfl
@[simp] theorem endDecode_nbyte (s : State) : (endDecode s).nbyte = s.nbyte := rfl
@[simp] theorem endDecode_dpos (s : State) : (endDecode s).dpos = s.dpos := rfl
@[simp] theorem endDecode_res (s : State) : (endDecode s).res = s.res := rfl
@[simp] theorem endDecode_plane (s : State) : (endDecode s).plane = s.plane := rfl
@[simp] theorem endDecode_maxN (s : State) : (endDecode s).maxN = s.maxN := rfl
@[simp] theorem endDecode_port (s : State) : (endDecode s).port = s.port := rfl

/-! One plane byte written (R52). -/

@[simp] theorem writePlane_mode (k pos : Nat) (v : Byte) (s : State) : (writePlane k pos v s).mode = s.mode := rfl
@[simp] theorem writePlane_phase (k pos : Nat) (v : Byte) (s : State) : (writePlane k pos v s).phase = s.phase := rfl
@[simp] theorem writePlane_err (k pos : Nat) (v : Byte) (s : State) : (writePlane k pos v s).err = s.err := rfl
@[simp] theorem writePlane_flagAny (k pos : Nat) (v : Byte) (s : State) : (writePlane k pos v s).flagAny = s.flagAny := rfl
@[simp] theorem writePlane_acc (k pos : Nat) (v : Byte) (s : State) : (writePlane k pos v s).acc = s.acc := rfl
@[simp] theorem writePlane_ecnt (k pos : Nat) (v : Byte) (s : State) : (writePlane k pos v s).ecnt = s.ecnt := rfl
@[simp] theorem writePlane_n (k pos : Nat) (v : Byte) (s : State) : (writePlane k pos v s).n = s.n := rfl
@[simp] theorem writePlane_nbyte (k pos : Nat) (v : Byte) (s : State) : (writePlane k pos v s).nbyte = s.nbyte := rfl
@[simp] theorem writePlane_dpos (k pos : Nat) (v : Byte) (s : State) : (writePlane k pos v s).dpos = s.dpos := rfl
@[simp] theorem writePlane_res (k pos : Nat) (v : Byte) (s : State) : (writePlane k pos v s).res = s.res := rfl
@[simp] theorem writePlane_plane (k pos : Nat) (v : Byte) (s : State) : (writePlane k pos v s).plane = s.plane.write (planeAddr k pos) v := rfl
@[simp] theorem writePlane_maxN (k pos : Nat) (v : Byte) (s : State) : (writePlane k pos v s).maxN = s.maxN := rfl
@[simp] theorem writePlane_port (k pos : Nat) (v : Byte) (s : State) : (writePlane k pos v s).port = s.port := rfl

/-! Power-on (R220, R221). -/

@[simp] theorem powerOn_mode (maxN : Nat) : (State.powerOn maxN).mode = .even := rfl
@[simp] theorem powerOn_phase (maxN : Nat) : (State.powerOn maxN).phase = .idle := rfl
@[simp] theorem powerOn_err (maxN : Nat) : (State.powerOn maxN).err = .none := rfl
@[simp] theorem powerOn_flagAny (maxN : Nat) : (State.powerOn maxN).flagAny = false := rfl
@[simp] theorem powerOn_acc (maxN : Nat) : (State.powerOn maxN).acc = Vector.replicate 12 0#8 := rfl
@[simp] theorem powerOn_ecnt (maxN : Nat) : (State.powerOn maxN).ecnt = 0#3 := rfl
@[simp] theorem powerOn_n (maxN : Nat) : (State.powerOn maxN).n = 0#20 := rfl
@[simp] theorem powerOn_nbyte (maxN : Nat) : (State.powerOn maxN).nbyte = 0#16 := rfl
@[simp] theorem powerOn_dpos (maxN : Nat) : (State.powerOn maxN).dpos = 0#20 := rfl
@[simp] theorem powerOn_res (maxN : Nat) : (State.powerOn maxN).res = 0#32 := rfl
@[simp] theorem powerOn_plane (maxN : Nat) : (State.powerOn maxN).plane = [] := rfl
@[simp] theorem powerOn_maxN (maxN : Nat) : (State.powerOn maxN).maxN = maxN := rfl
@[simp] theorem powerOn_port (maxN : Nat) : (State.powerOn maxN).port = [] := rfl

end Sys2Proof.Machine
end

