-- ==== Sys2Proof/Laws/Ops.lean ====
section
/-! SUPPORT. One lemma for each shared operation: everything it can do. -/

namespace Sys2Proof.Machine

/-- `ceilDiv8` is `(x + 7) / 8` (R16). -/
theorem ceilDiv8_eq (x : Nat) : ceilDiv8 x = (x + 7) / 8 := by
  cases x with
  | zero => rfl
  | succ x => simp only [ceilDiv8]; omega

/-- `B = ceil(MAX_N / 8)` (R12). -/
theorem planeBytes_eq (s : State) : planeBytes s = (s.maxN + 7) / 8 := ceilDiv8_eq _

/-- Everything the phase check can answer: nothing in FAULT, SEQUENCE where the command is not legal, and otherwise `run`. -/
theorem inPhases_eq_next {ps : List Phase} {s t : State} {run : Result} :
    inPhases ps s run = .next t ↔
      (s.phase = .fault ∧ t = s) ∨ (s.phase ≠ .fault ∧ s.phase ∈ ps ∧ run = .next t) ∨
      (s.phase ≠ .fault ∧ s.phase ∉ ps ∧ t = raiseFault .sequence s) := by
  unfold inPhases
  split
  · simp_all [eq_comm]
  · split <;> simp_all [eq_comm]

/-- The phase check stops only where `run` stops. -/
theorem inPhases_eq_fault {ps : List Phase} {s : State} {run : Result} {f : Fault} :
    inPhases ps s run = .fault f ↔ s.phase ≠ .fault ∧ s.phase ∈ ps ∧ run = .fault f := by
  unfold inPhases
  split
  · simp_all
  · split <;> simp_all

/-- The phase check refuses only where `run` refuses. -/
theorem inPhases_eq_refused {ps : List Phase} {s : State} {run : Result} {r : Refusal} :
    inPhases ps s run = .refused r ↔ s.phase ≠ .fault ∧ s.phase ∈ ps ∧ run = .refused r := by
  unfold inPhases
  split
  · simp_all
  · split <;> simp_all

/-- In a phase in which the command is legal, `run` is its answer. -/
theorem inPhases_of_mem {ps : List Phase} {s : State} {run : Result} (h : s.phase ≠ .fault) (hp : s.phase ∈ ps) :
    inPhases ps s run = run := by simp [inPhases, h, hp]

/-- Everything an illegal word can do (R75, R195). -/
theorem illegalWord_eq (s : State) :
    illegalWord s = .next (if s.phase = .fault then s else raiseFault .illegalCommand s) := by
  unfold illegalWord; split <;> rfl

/-- No plane's byte at a position is missing exactly when every plane's is written. -/
theorem firstUnwritten_eq_none {s : State} {pos : Nat} :
    firstUnwritten s pos = none ↔ ∀ k : Fin 12, (readPlane s k.val pos).isSome := by
  simp [firstUnwritten, planeIndices, List.find?_eq_none, Option.isSome_iff_ne_none]

/-- The plane it names has no byte at the position. -/
theorem firstUnwritten_eq_some {s : State} {pos : Nat} {k : Fin 12} (h : firstUnwritten s pos = some k) :
    readPlane s k.val pos = none := by simpa [firstUnwritten] using List.find?_some h

/-- The group that is read is the twelve bytes of the planes (R150). -/
theorem readGroup_eq_ok {s : State} {pos : Nat} {bytes : Vector Byte 12} :
    readGroup s pos = .ok bytes ↔ pos < planeBytes s ∧ ∀ k : Fin 12, readPlane s k.val pos = some bytes[k] := by
  unfold readGroup
  split
  · rename_i hpos
    split
    · rename_i k hk
      have := firstUnwritten_eq_some hk
      simp only [reduceCtorEq, false_iff, not_and, not_forall]
      exact fun _ => ⟨k, by simp [this]⟩
    · rename_i hn
      have hsome := firstUnwritten_eq_none.1 hn
      simp only [Except.ok.injEq, hpos, true_and]
      constructor
      · rintro rfl k
        obtain ⟨b, hb⟩ := Option.isSome_iff_exists.1 (hsome k)
        simp [hb]
      · intro h
        ext k hk : 1
        simpa using congrArg (·.getD 0#8) (h ⟨k, hk⟩)
  · simp_all

/-- A group read stops on a byte that was never written, or on a position that does not exist. -/
theorem readGroup_eq_error {s : State} {pos : Nat} {f : Fault} (h : readGroup s pos = .error f) :
    (pos < planeBytes s ∧ ∃ k : Fin 12, f = .neverWritten k.val pos ∧ readPlane s k.val pos = none) ∨
    (planeBytes s ≤ pos ∧ f = .noSuchLocation pos) := by
  unfold readGroup at h
  split at h
  · rename_i hpos
    split at h
    · rename_i k hk
      exact .inl ⟨hpos, k, by simpa using h.symm, firstUnwritten_eq_some hk⟩
    · simp at h
  · rename_i hpos
    exact .inr ⟨by omega, by simpa using h.symm⟩

/-- A slot's bits are the bits `7 - (i mod 8)` of the group at `i / 8` (R150). -/
theorem readSlot_eq_ok {s : State} {i : Nat} {g : Vector Bool 12} :
    readSlot s i = .ok g ↔ ∃ bytes : Vector Byte 12, readGroup s (i / 8) = .ok bytes ∧
      g = Vector.ofFn fun k => bytes[k].getMsbD (i % 8) := by
  unfold readSlot slotPos slotBit
  cases readGroup s (i / 8) <;> simp [eq_comm]

theorem readSlot_eq_error {s : State} {i : Nat} {f : Fault} :
    readSlot s i = .error f ↔ readGroup s (i / 8) = .error f := by
  unfold readSlot slotPos slotBit
  cases readGroup s (i / 8) <;> simp

/-- Everything a group store can answer with a next state: the group is written at NBYTE, which advances (R134, R135). -/
theorem storeGroup_eq_next {bytes : Vector Byte 12} {s t : State} :
    storeGroup bytes s = .next t ↔ s.nbyte.toNat < planeBytes s ∧
      t = { s with plane := Memory.writeGroup s.nbyte.toNat bytes planeIndices s.plane, nbyte := s.nbyte + 1#16 } := by
  unfold storeGroup
  split <;> simp_all [eq_comm]

theorem storeGroup_eq_fault {bytes : Vector Byte 12} {s : State} {f : Fault} :
    storeGroup bytes s = .fault f ↔ planeBytes s ≤ s.nbyte.toNat ∧ f = .noSuchLocation s.nbyte.toNat := by
  unfold storeGroup
  split <;> simp_all [eq_comm]

theorem storeGroup_ne_refused (bytes : Vector Byte 12) (s : State) (r : Refusal) : storeGroup bytes s ≠ .refused r := by
  unfold storeGroup
  split <;> simp

/-- The location check: the planes and positions that exist (R50, R191). -/
theorem locationInRange_iff {s : State} {k : BitVec 4} {pos : BitVec 16} :
    locationInRange s k pos = true ↔ k.toNat < 12 ∧ pos.toNat < (s.maxN + 7) / 8 := by
  simp [locationInRange, planeBytes_eq]

end Sys2Proof.Machine
end

