-- ==== Sys2Proof/Laws/Exec.lean ====
section
/-! SUPPORT. What a command and a step can do, said once: the inversion lemmas that frames and invariants follow from. -/

namespace Sys2Proof.Machine

/-- The own effect of each command, once the checks of R191 have passed: the next states its rule allows. -/
def ownEffect : Instr → State → State → Prop
  | .nop, s, t => t = s
  | .setMode m, s, t => t = setMode m s
  | .encBegin, s, t => t = beginEncode s
  | .encChar c, s, t => s.n.toNat ≠ s.maxN ∧
      ((s.ecnt ≠ 7#3 ∧
          t = { s with acc := shiftIn s.acc (planeBits c s.mode), n := s.n + 1#20, ecnt := s.ecnt + 1#3 }) ∨
        (s.ecnt = 7#3 ∧ s.nbyte.toNat < planeBytes s ∧
          t = { s with
            acc := emptyAcc, ecnt := 0#3, n := s.n + 1#20, nbyte := s.nbyte + 1#16,
            plane := Memory.writeGroup s.nbyte.toNat (shiftIn s.acc (planeBits c s.mode)) planeIndices s.plane }))
  | .encEnd, s, t =>
      (s.ecnt = 0#3 ∧ t = { s with acc := emptyAcc, ecnt := 0#3, phase := .idle }) ∨
        (s.ecnt ≠ 0#3 ∧ s.nbyte.toNat < planeBytes s ∧
          t = { s with
            acc := emptyAcc, ecnt := 0#3, phase := .idle, nbyte := s.nbyte + 1#16,
            plane := Memory.writeGroup s.nbyte.toNat (leftAlign s.acc s.ecnt) planeIndices s.plane })
  | .decBegin nbyte, s, t => lengthFault s nbyte = .none ∧ t = beginDecode nbyte s
  | .decChar, s, t => s.dpos.toNat ≠ 8 * s.nbyte.toNat ∧ ∃ g, readSlot s s.dpos.toNat = .ok g ∧ t = deliverSlot g s
  | .decEnd, s, t => t = endDecode s
  | .hamEnc c, s, t => t = setRes (encodedRes c s.mode) s
  | .hamDec q c, s, t => t = setRes (decodedRes (correct c q s.mode) q) s
  | .planeWr k pos c, s, t => locationInRange s k pos = true ∧ t = writePlane k.toNat pos.toNat c s
  | .planeRd k pos, s, t => locationInRange s k pos = true ∧
      ∃ b, readPlane s k.toNat pos.toNat = some b ∧ t = setRes (byteRes b) s
  | .clear, s, t => t = resetRegisters s

/-- The phases in which `exec` lets a command have its own effect; CLEAR passes no phase check (R174, R192). -/
def gatePhases : Instr → List Phase
  | .nop => [.idle, .encoding, .decoding]
  | .setMode _ => [.idle]
  | .encBegin => [.idle]
  | .encChar _ => [.encoding]
  | .encEnd => [.encoding]
  | .decBegin _ => [.idle]
  | .decChar => [.decoding]
  | .decEnd => [.decoding]
  | .hamEnc _ => [.idle, .encoding, .decoding]
  | .hamDec _ _ => [.idle, .encoding, .decoding]
  | .planeWr _ _ _ => [.idle]
  | .planeRd _ _ => [.idle]
  | .clear => [.idle, .encoding, .decoding, .fault]

theorem packChar_eq_next {c : Byte} {s t : State} (hn : s.n.toNat ≠ s.maxN) :
    packChar c s = .next t ↔ ownEffect (.encChar c) s t := by
  unfold packChar
  simp only [ownEffect, hn, ne_eq, not_false_eq_true, true_and]
  split
  · rename_i h
    simp [h, storeGroup_eq_next, emptyGroup, planeBytes]
  · rename_i h
    simp [h, eq_comm]

theorem finishEncode_eq_next {s t : State} : finishEncode s = .next t ↔ ownEffect .encEnd s t := by
  unfold finishEncode
  simp only [ownEffect]
  split
  · rename_i h
    simp [h, emptyGroup, eq_comm]
  · rename_i h
    simp [h, storeGroup_eq_next, emptyGroup, planeBytes]

theorem decodeSlot_eq_next {s t : State} :
    decodeSlot s = .next t ↔ ∃ g, readSlot s s.dpos.toNat = .ok g ∧ t = deliverSlot g s := by
  unfold decodeSlot
  cases readSlot s s.dpos.toNat <;> simp [eq_comm]

theorem fetchPlane_eq_next {k pos : Nat} {s t : State} :
    fetchPlane k pos s = .next t ↔ ∃ b, readPlane s k pos = some b ∧ t = setRes (byteRes b) s := by
  unfold fetchPlane
  cases readPlane s k pos <;> simp [eq_comm]

/-- Everything a command can do when it answers a next state: nothing in FAULT, a fault entry, or its own effect in a phase in
which it is legal. -/
theorem exec_next_cases {i : Instr} {s t : State} (h : exec i s = .next t) :
    (s.phase = .fault ∧ t = s ∧ i ≠ .clear) ∨
    (s.phase ≠ .fault ∧ ∃ code, code ≠ .none ∧ t = raiseFault code s ∧
      (s.phase ∉ gatePhases i → code = .sequence) ∧ (s.phase ∈ gatePhases i → code ≠ .sequence)) ∨
    (s.phase ∈ gatePhases i ∧ ownEffect i s t) := by
  cases i <;> simp only [exec] at h
  case clear =>
    have ht : t = resetRegisters s := by simpa [execClear, eq_comm] using h
    refine .inr (.inr ⟨?_, ht⟩)
    simp only [gatePhases]
    cases s.phase <;> simp
  all_goals
    rcases inPhases_eq_next.1 h with ⟨hp, rfl⟩ | ⟨hp, hm, hr⟩ | ⟨hp, hm, rfl⟩
    · exact .inl ⟨hp, rfl, by simp⟩
    rotate_left
    · exact .inr (.inl ⟨hp, .sequence, by simp, rfl, fun _ => rfl, fun hg => absurd hg hm⟩)
  case encChar c =>
    split at hr
    · exact .inr (.inl ⟨hp, .sizeExceeded, by simp, by simpa [eq_comm] using hr, fun hg => absurd hm hg, by simp⟩)
    · rename_i hn
      exact .inr (.inr ⟨hm, (packChar_eq_next hn).1 hr⟩)
  case encEnd => exact .inr (.inr ⟨hm, finishEncode_eq_next.1 hr⟩)
  case decBegin nbyte =>
    split at hr
    · rename_i hn
      exact .inr (.inr ⟨hm, hn, by simpa [eq_comm] using hr⟩)
    · rename_i hn
      refine .inr (.inl ⟨hp, lengthFault s nbyte, hn, by simpa [eq_comm] using hr, fun hg => absurd hm hg, fun _ => ?_⟩)
      simp only [lengthFault]
      split <;> [simp; split <;> simp]
  case decChar =>
    split at hr
    · exact .inr (.inl ⟨hp, .decodeOverrun, by simp, by simpa [eq_comm] using hr, fun hg => absurd hm hg, by simp⟩)
    · rename_i hn
      exact .inr (.inr ⟨hm, hn, decodeSlot_eq_next.1 hr⟩)
  case planeWr k pos c =>
    split at hr
    · rename_i hl
      exact .inr (.inr ⟨hm, hl, by simpa [eq_comm] using hr⟩)
    · exact .inr (.inl ⟨hp, .planeRange, by simp, by simpa [eq_comm] using hr, fun hg => absurd hm hg, by simp⟩)
  case planeRd k pos =>
    split at hr
    · rename_i hl
      exact .inr (.inr ⟨hm, hl, fetchPlane_eq_next.1 hr⟩)
    · exact .inr (.inl ⟨hp, .planeRange, by simp, by simpa [eq_comm] using hr, fun hg => absurd hm hg, by simp⟩)
  all_goals exact .inr (.inr ⟨hm, by simpa [ownEffect, eq_comm] using hr⟩)

/-- A command whose checks have passed answers its own effect: the converse of the last case above. -/
theorem exec_of_ownEffect {i : Instr} {s t : State} (hp : s.phase ∈ gatePhases i) (h : ownEffect i s t) :
    exec i s = .next t := by
  by_cases hi : i = .clear
  · subst hi
    simp only [ownEffect] at h
    simp [exec, execClear, h]
  have hf : s.phase ≠ .fault := by
    intro hf
    rw [hf] at hp
    cases i <;> simp [gatePhases] at hp hi
  cases i <;> simp only [exec]
  case clear => exact absurd rfl hi
  all_goals refine inPhases_eq_next.2 (.inr (.inl ⟨hf, hp, ?_⟩))
  case encChar c => rw [if_neg h.1]; exact (packChar_eq_next h.1).2 h
  case encEnd => exact finishEncode_eq_next.2 h
  case decBegin nbyte => rw [if_pos h.1, h.2]
  case decChar => rw [if_neg h.1]; exact decodeSlot_eq_next.2 h.2
  case planeWr k pos c => rw [if_pos h.1, h.2]
  case planeRd k pos => rw [if_pos h.1]; exact fetchPlane_eq_next.2 h.2
  all_goals simpa [ownEffect, eq_comm] using h

/-- What a model fault of a command comes from: a byte that was never written, or a group position at or beyond B. -/
theorem exec_fault_cases {i : Instr} {s : State} {f : Fault} (h : exec i s = .fault f) :
    s.phase ≠ .fault ∧ s.phase ∈ gatePhases i ∧
    ((∃ k pos, i = .planeRd k pos ∧ locationInRange s k pos = true ∧ readPlane s k.toNat pos.toNat = none ∧
        f = .neverWritten k.toNat pos.toNat) ∨
      (i = .decChar ∧ s.dpos.toNat ≠ 8 * s.nbyte.toNat ∧ readGroup s (s.dpos.toNat / 8) = .error f) ∨
      ((∃ c, i = .encChar c) ∧ s.n.toNat ≠ s.maxN ∧ s.ecnt = 7#3 ∧ planeBytes s ≤ s.nbyte.toNat) ∨
      (i = .encEnd ∧ s.ecnt ≠ 0#3 ∧ planeBytes s ≤ s.nbyte.toNat)) := by
  cases i <;> simp only [exec] at h
  case clear => simp [execClear] at h
  all_goals
    obtain ⟨hp, hm, hr⟩ := inPhases_eq_fault.1 h
    refine ⟨hp, hm, ?_⟩
  case encChar c =>
    split at hr
    · simp at hr
    · rename_i hn
      unfold packChar at hr
      simp only at hr
      split at hr
      · rename_i he
        exact .inr (.inr (.inl ⟨⟨c, rfl⟩, hn, he, (storeGroup_eq_fault.1 hr).1⟩))
      · simp at hr
  case encEnd =>
    unfold finishEncode at hr
    simp only at hr
    split at hr
    · simp at hr
    · rename_i he
      exact .inr (.inr (.inr ⟨rfl, he, (storeGroup_eq_fault.1 hr).1⟩))
  case decChar =>
    split at hr
    · simp at hr
    · rename_i hn
      unfold decodeSlot at hr
      split at hr
      · rename_i e he
        obtain rfl : e = f := by simpa using hr
        exact .inr (.inl ⟨rfl, hn, readSlot_eq_error.1 he⟩)
      · simp at hr
  case planeRd k pos =>
    split at hr
    · rename_i hl
      unfold fetchPlane at hr
      split at hr
      · rename_i hn
        exact .inl ⟨k, pos, rfl, hl, hn, by simpa [eq_comm] using hr⟩
      · simp at hr
    · simp at hr
  all_goals
    first
      | (simp at hr)
      | (split at hr <;> simp at hr)

/-- Everything a step can do when it answers a next state. -/
theorem step_next_cases {s t : State} (h : step s = .next t) :
    (s.port = [] ∧ t = s) ∨
    (∃ rest, s.port = .reset :: rest ∧ t = resetRegisters { s with port := rest }) ∨
    (∃ w rest, s.port = .command w :: rest ∧
      ((∃ i, decode w = .ok i ∧ exec i { s with port := rest } = .next t) ∨
        (∃ e, decode w = .error e ∧
          t = if s.phase = .fault then { s with port := rest } else raiseFault .illegalCommand { s with port := rest }))) := by
  unfold step nextEvent popEvent at h
  rcases hport : s.port with _ | ⟨e, rest⟩
  · simp [hport] at h
    exact .inl ⟨rfl, h.symm⟩
  · cases e with
    | reset =>
      simp [hport, hostReset] at h
      exact .inr (.inl ⟨rest, rfl, h.symm⟩)
    | command w =>
      simp only [hport, List.head?_cons, List.tail_cons] at h
      refine .inr (.inr ⟨w, rest, rfl, ?_⟩)
      cases hd : decode w with
      | ok i => exact .inl ⟨i, rfl, by simpa [hd] using h⟩
      | error e =>
        refine .inr ⟨e, rfl, ?_⟩
        have := (illegalWord_eq { s with port := rest }).symm.trans (by simpa [hd] using h)
        simpa [eq_comm] using this

end Sys2Proof.Machine
end

