-- ==== Sys2Proof/Laws/Flags.lean ====
section
/-! SUPPORT. The fields of RES: each field of a packed result is what was packed (R27). -/

namespace Sys2Proof.Machine

/-- RES[7:0] after PLANE_RD is the byte (R171). -/
theorem byteRes_byte (b : Byte) : (byteRes b).extractLsb' 0 8 = b := by
  apply BitVec.eq_of_toNat_eq
  have := b.isLt
  simp [byteRes]
  omega

/-- The bits of a packed result, field by field. -/
theorem getLsbD_packRes (print flag : Bool) (errors : Nat) (fail quad : Quad) (byte : Byte) (i : Nat) :
    (packRes print flag errors fail quad byte).getLsbD i =
      if i < 8 then byte.getLsbD i else if i < 12 then quad.getLsbD (i - 8)
      else if i < 16 then fail.getLsbD (i - 12) else if i < 19 then (BitVec.ofNat 3 errors).getLsbD (i - 16)
      else if i < 20 then flag && decide (i = 19) else print && decide (i = 20) := by
  change BitVec.getLsbD (0#11 ++ BitVec.ofBool print ++ BitVec.ofBool flag ++ BitVec.ofNat 3 errors ++ fail ++ quad ++ byte)
    i = _
  simp only [BitVec.getLsbD_append, BitVec.getLsbD_zero, BitVec.getLsbD_ofBool]
  have h1 : i - 8 < 4 ↔ i < 12 := by omega
  have h2 : i - 8 - 4 < 4 ↔ i < 16 := by omega
  have h3 : i - 8 - 4 - 4 < 3 ↔ i < 19 := by omega
  have h4 : i - 8 - 4 - 4 - 3 < 1 ↔ i < 20 := by omega
  have h5 : i - 8 - 4 - 4 - 3 - 1 < 1 ↔ i < 21 := by omega
  simp only [h1, h2, h3, h4, h5]
  simp only [show i - 8 - 4 = i - 12 by omega, show i - 12 - 4 = i - 16 by omega, show i - 16 - 3 = i - 19 by omega,
    show i - 19 - 1 = i - 20 by omega]
  repeat' split
  all_goals first
    | rfl
    | (cases print <;> cases flag <;> simp <;> omega)

/-- Every field of a packed result (R27). -/
theorem packRes_fields (print flag : Bool) (errors : Nat) (fail quad : Quad) (byte : Byte) :
    (packRes print flag errors fail quad byte).extractLsb' 0 8 = byte ∧
    (packRes print flag errors fail quad byte).extractLsb' 8 4 = quad ∧
    (packRes print flag errors fail quad byte).extractLsb' 12 4 = fail ∧
    (packRes print flag errors fail quad byte).extractLsb' 16 3 = BitVec.ofNat 3 errors ∧
    (packRes print flag errors fail quad byte).getLsbD 19 = flag ∧
    (packRes print flag errors fail quad byte).getLsbD 20 = print ∧
    (packRes print flag errors fail quad byte).extractLsb' 21 11 = 0#11 := by
  refine ⟨?_, ?_, ?_, ?_, ?_, ?_, ?_⟩
  · apply BitVec.eq_of_getLsbD_eq
    intro i hi
    simp [getLsbD_packRes, hi]
  · apply BitVec.eq_of_getLsbD_eq
    intro i hi
    simp [getLsbD_packRes, hi, show ¬8 + i < 8 by omega, show 8 + i < 12 by omega]
  · apply BitVec.eq_of_getLsbD_eq
    intro i hi
    simp [getLsbD_packRes, hi, show ¬12 + i < 8 by omega, show ¬12 + i < 12 by omega, show 12 + i < 16 by omega]
  · apply BitVec.eq_of_getLsbD_eq
    intro i hi
    rw [BitVec.getLsbD_extractLsb', getLsbD_packRes]
    simp [hi, show ¬16 + i < 8 by omega, show ¬16 + i < 12 by omega, show ¬16 + i < 16 by omega, show 16 + i < 19 by omega]
  · rw [getLsbD_packRes]; simp
  · rw [getLsbD_packRes]; simp
  · apply BitVec.eq_of_getLsbD_eq
    intro i hi
    simp [getLsbD_packRes, show ¬21 + i < 8 by omega, show ¬21 + i < 12 by omega, show ¬21 + i < 16 by omega,
      show ¬21 + i < 19 by omega, show ¬21 + i < 20 by omega, show ¬21 + i = 20 by omega]

end Sys2Proof.Machine
end

