-- ==== Sys2Proof/Laws/Host.lean ====
section
/-! SUPPORT. The host's side: what each of its functions gives (R224, R225, R232). -/

namespace Sys2Proof.Machine

/-- The parity option resolves to exactly the two names (R232). -/
theorem resolveParity_eq_some {text : List Char} {m : Parity} :
    resolveParity text = some m ↔ (text = "even".toList ∧ m = .even) ∨ (text = "odd".toList ∧ m = .odd) := by
  unfold resolveParity
  split
  · rename_i h
    subst h
    simp [eq_comm]
  · split <;> simp_all [eq_comm]

/-- STATUS shows FAULT exactly in the phase FAULT (R26). -/
theorem faultSeen_iff (s : State) : faultSeen s = true ↔ s.phase = .fault := by
  change (statusWord s).extractLsb' 0 2 == 3#2 ↔ _
  obtain ⟨mode, phase, err, flag, _⟩ := s
  simp only [statusWord]
  cases mode <;> cases phase <;> cases err <;> cases flag <;> decide

/-- STATUS shows IDLE exactly in the phase IDLE (R26). -/
theorem idleSeen_iff (s : State) : idleSeen s = true ↔ s.phase = .idle := by
  change (statusWord s).extractLsb' 0 2 == 0#2 ↔ _
  obtain ⟨mode, phase, err, flag, _⟩ := s
  simp only [statusWord]
  cases mode <;> cases phase <;> cases err <;> cases flag <;> decide

/-- The mode the host sees is MODE, or EVEN once CLEAR is sent (R26, R174). -/
theorem openingMode_eq (s : State) : openingMode s = if s.phase = .fault then .even else s.mode := by
  have hmode : (readPort s 0x00#5).getLsbD 2 = modeBit s.mode := by
    change (statusWord s).getLsbD 2 = _
    obtain ⟨mode, phase, err, flag, _⟩ := s
    simp only [statusWord]
    cases mode <;> cases phase <;> cases err <;> cases flag <;> decide
  unfold openingMode
  rw [hmode]
  by_cases h : s.phase = .fault
  · simp [(faultSeen_iff s).2 h, h]
  · simp only [h, (Bool.eq_false_iff.2 fun hf => h ((faultSeen_iff s).1 hf))]
    cases s.mode <;> rfl

/-- A run that faults sends and reads nothing more (R232). -/
theorem hostRun_of_fault {i : Instr} {s t : State} (h : exec i s = .next t) (hf : t.phase = .fault) (rest : List Instr) :
    hostRun (i :: rest) s = .next ⟨[], true, t⟩ := by
  simp [hostRun, h, (faultSeen_iff t).2 hf]

/-- A run without a fault reads RES where it must and goes on with the next command (R156, R227, R232). -/
theorem hostRun_of_no_fault {i : Instr} {s t : State} {rest : List Instr} {r : HostRecord} (h : exec i s = .next t)
    (hf : t.phase ≠ .fault) (hr : hostRun rest t = .next r) :
    hostRun (i :: rest) s = .next { r with reads := resReads i t ++ r.reads } := by
  simp [hostRun, h, hr, Bool.eq_false_iff.2 fun he => hf ((faultSeen_iff t).1 he)]

/-- Reading written bytes in IDLE, one PLANE_RD each, gives those bytes and changes RES alone (R171, R224 step 6). -/
theorem hostRun_planeRd {cells : List (BitVec 4 × BitVec 16)} {s : State} (hp : s.phase = .idle)
    (h : ∀ c ∈ cells, locationInRange s c.1 c.2 = true ∧ (readPlane s c.1.toNat c.2.toNat).isSome) :
    ∃ r, hostRun (cells.map fun c => .planeRd c.1 c.2) s = .next r ∧ r.faulted = false ∧
      r.reads.map (fun res => some (res.extractLsb' 0 8)) = cells.map (fun c => readPlane s c.1.toNat c.2.toNat) ∧
      ∃ res, r.final = { s with res := res } := by
  induction cells generalizing s with
  | nil => exact ⟨_, rfl, rfl, rfl, s.res, rfl⟩
  | cons c cells ih =>
    obtain ⟨b, hb⟩ := Option.isSome_iff_exists.1 (h c List.mem_cons_self).2
    obtain ⟨r, hr, hf, hreads, res, hfinal⟩ := ih (s := setRes (byteRes b) s) hp fun c' hc => h c' (List.mem_cons_of_mem _ hc)
    have hx : exec (.planeRd c.1 c.2) s = .next (setRes (byteRes b) s) := by
      simp [exec, execPlaneRd, inPhases, hp, (h c List.mem_cons_self).1, fetchPlane, hb]
    refine ⟨_, hostRun_of_no_fault hx (by simp [setRes, hp]) hr, hf, ?_, res, by simp [hfinal, setRes]⟩
    have hbyte : (readPort (setRes (byteRes b) s) 0x01#5).extractLsb' 0 8 = b := byteRes_byte b
    simp only [resReads, List.cons_append, List.nil_append, List.map_cons, hreads, hbyte, hb]
    rfl

/-- Every value is there exactly when the list is the values' list. -/
theorem allSome_eq_some {α : Type} {xs : List (Option α)} {ys : List α} : allSome xs = some ys ↔ xs = ys.map some := by
  induction xs generalizing ys with
  | nil => cases ys <;> simp [allSome]
  | cons x xs ih =>
    cases x with
    | none => cases ys <;> simp [allSome]
    | some a =>
      cases ys with
      | nil => simp [allSome]
      | cons y ys => simp [allSome, ih, and_comm]

/-- The loads of one file are a PLANE_WR of each byte with its position (R225). -/
theorem loadPlane_eq (k : BitVec 4) (pos : Nat) (bytes : List Byte) :
    loadPlane k pos bytes = (bytes.zipIdx pos).map fun p => .planeWr k (BitVec.ofNat 16 p.2) p.1 := by
  induction bytes generalizing pos with
  | nil => rfl
  | cons b bytes ih => simp [loadPlane, ih]

/-- The loads of the files are the loads of each, with its plane (R225). -/
theorem loadPlanes_eq (k : Nat) (files : List (List Byte)) :
    loadPlanes k files = (files.zipIdx k).flatMap fun f => loadPlane (BitVec.ofNat 4 f.2) 0 f.1 := by
  induction files generalizing k with
  | nil => rfl
  | cons f files ih => simp [loadPlanes, ih]

end Sys2Proof.Machine
end

