-- ==== Sys2Proof/Laws/PerInstr.lean ====
section
/-! SUPPORT. Statements made per instruction: the word of every command matches its row of the opcode map (R74). -/

namespace Sys2Proof.Laws.EncodeMatchesRow

/-- The encoded word agrees with the row's match under the row's mask (R74). -/
def Statement (i : Instr) : Prop := encode i &&& (opcodeRow i).maskBits = (opcodeRow i).matchBits

theorem nop : Statement .nop := by unfold Statement; decide

theorem setMode (m : Parity) : Statement (.setMode m) := by unfold Statement; cases m <;> decide

theorem encBegin : Statement .encBegin := by unfold Statement; decide

theorem encChar (c : Byte) : Statement (.encChar c) := by
  have h := packWord_and 0x3#4 0xF#4 0#4 0xF#4 0#16 0xFFFF#16 c 0x00#8
  exact h.trans (by simp; rfl)

theorem encEnd : Statement .encEnd := by unfold Statement; decide

theorem decBegin (nbyte : BitVec 16) : Statement (.decBegin nbyte) := by
  have h := packWord_and 0x5#4 0xF#4 0#4 0xF#4 nbyte 0#16 0#8 0xFF#8
  exact h.trans (by simp; rfl)

theorem decChar : Statement .decChar := by unfold Statement; decide

theorem decEnd : Statement .decEnd := by unfold Statement; decide

theorem hamEnc (c : Byte) : Statement (.hamEnc c) := by
  have h := packWord_and 0x8#4 0xF#4 0#4 0xF#4 0#16 0xFFFF#16 c 0x00#8
  exact h.trans (by simp; rfl)

theorem hamDec (q : Quad) (c : Byte) : Statement (.hamDec q c) := by
  have h := packWord_and 0x9#4 0xF#4 q 0#4 0#16 0xFFFF#16 c 0x00#8
  exact h.trans (by simp; rfl)

theorem planeWr (k : BitVec 4) (pos : BitVec 16) (c : Byte) : Statement (.planeWr k pos c) := by
  have h := packWord_and 0xA#4 0xF#4 k 0#4 pos 0#16 c 0x00#8
  exact h.trans (by simp; rfl)

theorem planeRd (k : BitVec 4) (pos : BitVec 16) : Statement (.planeRd k pos) := by
  have h := packWord_and 0xB#4 0xF#4 k 0#4 pos 0#16 0#8 0xFF#8
  exact h.trans (by simp; rfl)

theorem clear : Statement .clear := by unfold Statement; decide

end Sys2Proof.Laws.EncodeMatchesRow
end

