-- ==== Sys2Proof/Tests/Slice0.lean ====
section
/-! SUPPORT. The model's own tests. Every expected value is copied from spec/95_test_vectors.md (the section stands beside each
group) or worked by hand from a rule; the witness theorems give a concrete state that meets a statement's hypotheses. -/

open Sys2Proof Sys2Proof.Machine Sys2Proof.Safety

namespace Sys2Proof.Tests

/-! ### Small states, with MAX_N = 16 and so B = 2, as in 95_test_vectors.md sections 5 to 8 -/

/-- Power-on reset. -/
def start : State := State.powerOn 16

/-- The next state of a result meets a test. -/
def nextIs (r : Result) (p : State → Bool) : Bool :=
  match r with
  | .next t => p t
  | _ => false

/-- The result is a stop for a given reason. -/
def stopsWith (r : Result) (f : Fault) : Bool :=
  match r with
  | .fault f' => decide (f' = f)
  | _ => false

/-- One step on the word `w`. -/
def sent (w : Word) (s : State) : Result := step (sendWord w s)

/-- STATUS after one step on the word `w`. -/
def statusIs (w : Word) (s : State) (status : Word) : Bool := nextIs (sent w s) fun t => readPort t 0x00#5 == status

/-- The group of twelve bytes a state holds at a position. -/
def groupIs (s : State) (pos : Nat) (bytes : List Nat) : Bool :=
  planeIndices.map (fun k => readPlane s k.val pos) == bytes.map fun b => some (BitVec.ofNat 8 b)

/-- A state with one group of twelve bytes at a position. -/
def withGroup (pos : Nat) (bytes : Vector Byte 12) (s : State) : State :=
  { s with plane := Memory.writeGroup pos bytes planeIndices s.plane }

/-- The planes of "A" under EVEN, section 1.1. -/
def planesA : Vector Byte 12 := #v[0x00, 0x80, 0x00, 0x00, 0x00, 0x00, 0x00, 0x80, 0x80, 0x00, 0x00, 0x80]

/-- The planes of "Hi" under ODD, section 4.1. -/
def planesHiOdd : Vector Byte 12 := #v[0x00, 0xC0, 0x40, 0x00, 0xC0, 0x00, 0x00, 0x40, 0xC0, 0x80, 0x00, 0x40]

/-- The first group of "HAMMING!" under EVEN, table 3.1 at N = 8. -/
def planesHamming : Vector Byte 12 := #v[0x00, 0xFE, 0x01, 0x00, 0xBC, 0x36, 0x06, 0x7B, 0x44, 0x31, 0x84, 0xF7]

/-- The second group of "HAMMING!Code1234" under EVEN, table 3.1 at N = 16. -/
def planesCode : Vector Byte 12 := #v[0x00, 0xF0, 0x7F, 0x0F, 0x40, 0x71, 0xC6, 0xDA, 0x79, 0xC7, 0x5A, 0x2D]

/-- In ENCODING, nothing packed. -/
def encoding0 : State := { start with phase := .encoding }

/-- Mid-pass after "HAM" under EVEN, section 3.3. -/
def encoding3 : State :=
  { start with
    phase := .encoding, n := 3#20, ecnt := 3#3
    acc := #v[0x00, 0x07, 0x00, 0x00, 0x05, 0x01, 0x00, 0x03, 0x02, 0x01, 0x04, 0x07] }

/-- Mid-pass after "HAMMING": table 3.1 at N = 7, its bytes not yet left-aligned. -/
def encoding7 : State :=
  { start with
    phase := .encoding, n := 7#20, ecnt := 7#3
    acc := #v[0x00, 0x7F, 0x00, 0x00, 0x5E, 0x1B, 0x03, 0x3D, 0x22, 0x18, 0x42, 0x7B] }

/-- Mid-pass after "HAMMING!Code123": the first group stored, and the second one short of its last character. -/
def encoding15 : State :=
  withGroup 0 planesHamming
    { start with
      phase := .encoding, n := 15#20, ecnt := 7#3, nbyte := 1#16
      acc := #v[0x00, 0x78, 0x3F, 0x07, 0x20, 0x38, 0x63, 0x6D, 0x3C, 0x63, 0x2D, 0x16] }

/-- Mid-pass after "HAMMING!Code1234", which is MAX_N characters: both groups stored. -/
def encoding16 : State :=
  withGroup 1 planesCode (withGroup 0 planesHamming { start with phase := .encoding, n := 16#20, nbyte := 2#16 })

/-- In DECODING over the planes of "A", at slot 0. -/
def decodingA : State := withGroup 0 planesA { start with phase := .decoding, nbyte := 1#16 }

/-- The same pass at its last slot, a padding slot. -/
def decodingLast : State := { decodingA with dpos := 7#20 }

/-- The end of that pass: every slot decoded. -/
def decodingEnd : State := { decodingA with dpos := 8#20 }

/-- In DECODING under ODD over the planes of "Hi", at its first padding slot. -/
def decodingPadding : State :=
  withGroup 0 planesHiOdd { start with mode := .odd, phase := .decoding, nbyte := 1#16, dpos := 2#20 }

/-- In DECODING over bytes that nothing has written. -/
def decodingUnwritten : State := { start with phase := .decoding, nbyte := 1#16 }

/-- In FAULT after `dec.begin 0`, section 6. -/
def faulted : State := { start with phase := .fault, err := .emptyInput }

/-! ### WellFormed: each check refuses a value that does not fit (30_encoding.md R78) -/

theorem test_fields_refuse : fitsField 1 2 = false ∧ fitsField 4 16 = false ∧ fitsField 8 256 = false ∧ fitsField 16 65536 = false := by
  decide

theorem test_fields_accept : fitsField 1 1 = true ∧ fitsField 4 15 = true ∧ fitsField 8 255 = true ∧ fitsField 16 65535 = true := by
  decide

theorem test_widest_operands_wellFormed :
    (Instr.setMode .odd).wellFormed = true ∧ (Instr.encChar 0xFF#8).wellFormed = true ∧
    (Instr.decBegin 0xFFFF#16).wellFormed = true ∧ (Instr.hamEnc 0xFF#8).wellFormed = true ∧
    (Instr.hamDec 0xF#4 0xFF#8).wellFormed = true ∧ (Instr.planeWr 0xF#4 0xFFFF#16 0xFF#8).wellFormed = true ∧
    (Instr.planeRd 0xF#4 0xFFFF#16).wellFormed = true := by decide

/-- R78: what an assembler rejects. -/
theorem test_assembler_rejects :
    assembleWords "enc.char 256".toList = none ∧ assembleWords "ham.dec 0, 16".toList = none ∧
    assembleWords "plane.wr 16, 0, 0".toList = none ∧ assembleWords "plane.rd 0, 65536".toList = none ∧
    assembleWords "dec.begin 65536".toList = none ∧ assembleWords "setmode Even".toList = none ∧
    assembleWords "setmode 2".toList = none ∧ assembleWords "setmode 'e'".toList = none ∧
    assembleWords "plane.wr 0, 65536, 0".toList = none ∧ assembleWords "plane.wr 0, 0, 256".toList = none ∧
    assembleWords "ham.dec 256, 0".toList = none := by decide

/-! ### Decoding: section 5, and the fields of R71 written out -/

theorem test_decode_control :
    decode 0x00000000#32 = .ok .nop ∧ decode 0x00000001#32 = .error (.reservedBits 0x0#4) ∧
    decode 0x10000000#32 = .ok (.setMode .even) ∧ decode 0x10000001#32 = .ok (.setMode .odd) ∧
    decode 0x10000002#32 = .error (.reservedBits 0x1#4) ∧ decode 0xC0000000#32 = .ok .clear ∧
    decode 0xC0000001#32 = .error (.reservedBits 0xC#4) := by decide

theorem test_decode_encode_pass :
    decode 0x20000000#32 = .ok .encBegin ∧ decode 0x20000100#32 = .error (.reservedBits 0x2#4) ∧
    decode 0x30000041#32 = .ok (.encChar 0x41#8) ∧ decode 0x31000041#32 = .error (.reservedBits 0x3#4) ∧
    decode 0x40000000#32 = .ok .encEnd ∧ decode 0x41000000#32 = .error (.reservedBits 0x4#4) := by decide

theorem test_decode_decode_pass :
    decode 0x50000300#32 = .ok (.decBegin 3#16) ∧ decode 0x50FFFF00#32 = .ok (.decBegin 0xFFFF#16) ∧
    decode 0x51000100#32 = .error (.reservedBits 0x5#4) ∧ decode 0x50000101#32 = .error (.reservedBits 0x5#4) ∧
    decode 0x60000000#32 = .ok .decChar ∧ decode 0x60000001#32 = .error (.reservedBits 0x6#4) ∧
    decode 0x70000000#32 = .ok .decEnd ∧ decode 0x70000080#32 = .error (.reservedBits 0x7#4) := by decide

theorem test_decode_datapath :
    decode 0x80000041#32 = .ok (.hamEnc 0x41#8) ∧ decode 0x80000141#32 = .error (.reservedBits 0x8#4) ∧
    decode 0x990000C1#32 = .ok (.hamDec 0x9#4 0xC1#8) ∧ decode 0x90000100#32 = .error (.reservedBits 0x9#4) := by decide

theorem test_decode_buffer :
    decode 0xA1000080#32 = .ok (.planeWr 1#4 0#16 0x80#8) ∧ decode 0xAB123456#32 = .ok (.planeWr 0xB#4 0x1234#16 0x56#8) ∧
    decode 0xBF000000#32 = .ok (.planeRd 15#4 0#16) ∧ decode 0xB0000001#32 = .error (.reservedBits 0xB#4) := by decide

theorem test_decode_reserved :
    decode 0xD0000000#32 = .error (.reservedOpcode 0xD#4) ∧ decode 0xE0000000#32 = .error (.reservedOpcode 0xE#4) ∧
    decode 0xFFFFFFFF#32 = .error (.reservedOpcode 0xF#4) := by decide

/-- Each constructor's word, from the match column of R74 and the fields of R71. -/
theorem test_encode_words :
    encode .nop = 0x00000000#32 ∧ encode (.setMode .odd) = 0x10000001#32 ∧ encode .encBegin = 0x20000000#32 ∧
    encode (.encChar 0x41#8) = 0x30000041#32 ∧ encode .encEnd = 0x40000000#32 ∧
    encode (.decBegin 1#16) = 0x50000100#32 ∧ encode .decChar = 0x60000000#32 ∧ encode .decEnd = 0x70000000#32 ∧
    encode (.hamEnc 0x41#8) = 0x80000041#32 ∧ encode (.hamDec 0x9#4 0xC1#8) = 0x990000C1#32 ∧
    encode (.planeWr 0#4 1#16 0x55#8) = 0xA0000155#32 ∧ encode (.planeRd 12#4 0#16) = 0xBC000000#32 ∧
    encode .clear = 0xC0000000#32 := by decide

/-- The host's question: a row's word is decoded, and is the first command after reset. -/
theorem test_first_command_after_reset :
    decodeTableWord 32 0x80000041 = some (.hamEnc 0x41#8) ∧ decodeTableWord 32 0xD0000000 = none ∧
    nextIs (step (State.reset.withFetchWord 32 0x80000041)) (fun t => t.res == 0x00100941#32) = true := by decide

/-! ### The datapath: sections 1.1, 2.1, 2.2 and 2.6 -/

theorem test_bits_of_A : bitsOf 0x41#8 = #v[false, true, false, false, false, false, false, true] := by decide

/-- Table 2.1: the spot checks, and its row for 0x4x. -/
theorem test_parity_table :
    parityOf 0x00#8 .even = 0x0#4 ∧ parityOf 0x80#8 .even = 0x3#4 ∧ parityOf 0x01#8 .even = 0xC#4 ∧
    parityOf 0xFF#8 .even = 0x3#4 ∧ parityOf 0x69#8 .even = 0x6#4 ∧ parityOf 0x41#8 .odd = 0x6#4 ∧
    (List.range 16).map (fun i => parityOf (BitVec.ofNat 8 (0x40 + i)) .even) =
      [0x5#4, 0x9#4, 0xE#4, 0x2#4, 0xF#4, 0x3#4, 0x4#4, 0x8#4, 0xC#4, 0x0#4, 0x7#4, 0xB#4, 0x6#4, 0xA#4, 0xD#4, 0x1#4] := by
  decide

/-- Table 2.2, as errors, byte mask and flag for each F: with c = 0x00 under EVEN, F is the received quad. -/
theorem test_failing_check_table :
    (List.range 16).map (fun f => (let r := correct 0x00#8 (BitVec.ofNat 4 f) .even; (r.errors, r.byte, r.flagged))) =
      [(0, 0x00#8, false), (1, 0x00#8, true), (1, 0x00#8, true), (2, 0x80#8, false), (1, 0x00#8, true), (2, 0x40#8, false),
       (2, 0x20#8, false), (3, 0x00#8, true), (1, 0x00#8, true), (2, 0x08#8, false), (2, 0x04#8, false), (3, 0x00#8, true),
       (2, 0x01#8, false), (3, 0x00#8, true), (3, 0x00#8, true), (4, 0x00#8, true)] := by decide

/-- Section 2.6, the dangerous mode mismatch: encoded EVEN, b3 and p4 flipped, decoded ODD. -/
theorem test_mode_mismatch : correct 0x51#8 0xD#4 .odd = ⟨0x50#8, 0xC#4, 2, false⟩ := by decide

theorem test_printable_edges :
    printable 0x1F#8 = false ∧ printable 0x20#8 = true ∧ printable 0x7E#8 = true ∧ printable 0x7F#8 = false := by decide

/-! ### HAM_ENC and HAM_DEC: sections 2.4, 2.5 and 7 -/

theorem test_hamEnc_even_and_unprintable :
    nextIs (sent 0x80000041#32 start) (fun t => t.res == 0x00100941#32) = true ∧
    nextIs (sent 0x800000FF#32 start) (fun t => t.res == 0x000003FF#32) = true := by decide

theorem test_hamEnc_inside_a_pass :
    nextIs (sent 0x80000041#32 encoding3) (fun t => t == { encoding3 with res := 0x00100941#32 }) = true ∧
    nextIs (sent 0x8000007F#32 { start with mode := .odd }) (fun t => t.res == 0x00000F7F#32) = true := by decide

theorem test_hamDec_corrects :
    nextIs (sent 0x990000C1#32 start) (fun t => t.res == 0x00123941#32) = true ∧
    nextIs (sent 0x96000040#32 { start with mode := .odd }) (fun t => t.res == 0x0012C641#32) = true := by decide

theorem test_hamDec_flags_without_the_sticky_flag :
    nextIs (sent 0x99000051#32 start) (fun t => t.res == 0x001B7951#32 && t.flagAny == false) = true ∧
    nextIs (sent 0x91000041#32 start) (fun t => t.res == 0x00198141#32) = true := by decide

/-! ### Control: sections 5 and 7 -/

theorem test_nop : nextIs (sent 0x00000000#32 encoding3) (fun t => t == encoding3) = true ∧ statusIs 0x00000001#32 start 0x13#32 := by
  decide

theorem test_setMode : statusIs 0x10000001#32 start 0x04#32 ∧ statusIs 0x10000000#32 { start with mode := .odd } 0x00#32 := by decide

theorem test_setMode_in_a_pass : statusIs 0x10000001#32 encoding0 0x23#32 ∧ statusIs 0x10000002#32 start 0x13#32 := by decide

/-- CLEAR in an ODD pass: every register to its reset value, the planes kept. -/
theorem test_clear_keeps_planes :
    nextIs (sent 0xC0000000#32 { encoding15 with mode := .odd, res := 0x55#32 }) (fun t => t == withGroup 0 planesHamming start) = true := by
  decide

theorem test_clear_leaves_fault : statusIs 0xC0000000#32 faulted 0x00#32 ∧ statusIs 0xC0000001#32 faulted 0x43#32 := by decide

/-! ### The encode pass: sections 3, 7 and 8 (P1) -/

theorem test_encBegin : statusIs 0x20000000#32 start 0x01#32 ∧ statusIs 0x20000100#32 start 0x13#32 := by decide

theorem test_encBegin_keeps_the_planes :
    nextIs (sent 0x20000000#32 (withGroup 0 planesA { start with n := 1#20, nbyte := 1#16 }))
      (fun t => t == withGroup 0 planesA encoding0) = true := by decide

/-- The example of R134, and the eighth character of table 3.1. -/
theorem test_encChar_shifts :
    nextIs (sent 0x30000041#32 encoding0) (fun t =>
      t.acc == #v[0, 1, 0, 0, 0, 0, 0, 1, 1, 0, 0, 1] && t.ecnt == 1#3 && t.n == 1#20 && t.nbyte == 0#16) = true ∧
    statusIs 0x30000041#32 start 0x23#32 := by decide

theorem test_encChar_stores_a_group :
    nextIs (sent 0x30000021#32 encoding7) (fun t => t == withGroup 0 planesHamming
      { start with phase := .encoding, n := 8#20, nbyte := 1#16 }) = true ∧
    statusIs 0x30000041#32 encoding16 0x53#32 := by decide

/-- The N = 3 row of table 3.1. -/
theorem test_encEnd_aligns_the_partial_group :
    nextIs (sent 0x40000000#32 encoding3) (fun t =>
      groupIs t 0 [0x00, 0xE0, 0x00, 0x00, 0xA0, 0x20, 0x00, 0x60, 0x40, 0x20, 0x80, 0xE0] &&
        t.nbyte == 1#16 && t.n == 3#20 && t.ecnt == 0#3 && t.phase == .idle) = true := by decide

theorem test_encEnd_of_whole_groups :
    nextIs (sent 0x40000000#32 encoding16) (fun t => t == { encoding16 with phase := .idle }) = true ∧
    nextIs (sent 0x40000000#32 encoding0) (fun t => t == start) = true := by decide

/-! ### The decode pass: sections 4, 5, 6 and 8 -/

theorem test_decBegin_bounds :
    statusIs 0x50000100#32 start 0x02#32 ∧ statusIs 0x50000200#32 start 0x02#32 ∧ statusIs 0x50000300#32 start 0x33#32 ∧
    statusIs 0x50000000#32 start 0x43#32 := by decide

theorem test_decBegin_clears_the_flag :
    nextIs (sent 0x50000200#32 { start with flagAny := true, dpos := 5#20 }) (fun t =>
      t == { start with phase := .decoding, nbyte := 2#16 }) = true := by decide

/-- Slot 0 of "A", and of "A" with PLANE[3][0] corrupted (section 4.2). -/
theorem test_decChar_of_A :
    nextIs (sent 0x60000000#32 decodingA) (fun t => t.res == 0x00100941#32 && t.dpos == 1#20 && t.flagAny == false) = true ∧
    nextIs (sent 0x60000000#32 { decodingA with plane := decodingA.plane.write (planeAddr 3 0) 0x80#8 })
      (fun t => t.res == 0x001B7951#32 && t.flagAny == true) = true := by decide

/-- A padding slot under ODD; and past the last slot. -/
theorem test_decChar_at_the_end :
    nextIs (sent 0x60000000#32 decodingPadding) (fun t => t.res == 0x000CF000#32 && readPort t 0x00#5 == 0x0E#32) = true ∧
    statusIs 0x60000000#32 decodingEnd 0x63#32 := by decide

theorem test_decEnd : statusIs 0x70000000#32 { decodingPadding with flagAny := true } 0x0C#32 ∧ statusIs 0x70000000#32 start 0x23#32 := by
  decide

/-! ### The plane buffers: sections 5 and 7, and P6 -/

theorem test_planeWr_bounds :
    nextIs (sent 0xA0000155#32 start) (fun t => readPlane t 0 1 == some 0x55#8 && t.nbyte == 0#16) = true ∧
    statusIs 0xA0000200#32 start 0x33#32 ∧ statusIs 0xAC000000#32 start 0x33#32 := by decide

theorem test_planeWr_replaces :
    nextIs (sent 0xAB000001#32 (withGroup 0 planesA start)) (fun t =>
      readPlane t 11 0 == some 0x01#8 && readPlane t 10 0 == some 0x00#8 && decide (Memory.wf t.plane)) = true := by decide

theorem test_planeRd :
    nextIs (sent 0xB8000000#32 (withGroup 0 planesA { start with res := 0xFFFFFFFF#32 })) (fun t => t.res == 0x00000080#32) = true ∧
    statusIs 0xBC000000#32 start 0x33#32 := by decide

theorem test_planeRd_of_an_unwritten_byte :
    stopsWith (sent 0xB0000100#32 (withGroup 0 planesA start)) (.neverWritten 0 1) = true := by decide

/-! ### Faults and the read port: sections 3.3, 6 and 7 -/

theorem test_fault_has_no_second_fault :
    statusIs 0x20000000#32 faulted 0x43#32 ∧ statusIs 0xD0000000#32 faulted 0x43#32 ∧ statusIs 0x50000000#32 faulted 0x43#32 := by decide

theorem test_check_order :
    statusIs 0x60000001#32 encoding0 0x13#32 ∧ statusIs 0x50000000#32 encoding0 0x23#32 ∧
    statusIs 0xAC000000#32 encoding0 0x23#32 ∧ statusIs 0x50000000#32 start 0x43#32 := by decide

theorem test_read_port :
    readPort encoding3 0x02#5 = 3#32 ∧ readPort encoding3 0x05#5 = 3#32 ∧ readPort encoding3 0x11#5 = 0x07#32 ∧
    readPort encoding3 0x1B#5 = 0x07#32 ∧ readPort encoding3 0x1C#5 = 0#32 ∧ readPort start 0x06#5 = 0x10#32 ∧
    readPort start 0x07#5 = 2#32 ∧ readPort start 0x08#5 = 0#32 ∧
    readPort (State.powerOn 524280) 0x06#5 = 0x0007FFF8#32 ∧ readPort (State.powerOn 524280) 0x07#5 = 0x0000FFFF#32 := by decide

theorem test_reset_event :
    nextIs (step { encoding15 with port := [.reset] }) (fun t => t == withGroup 0 planesHamming start) = true := by decide

/-! ### The assembler: sections 5 and 8 -/

theorem test_assembler_lines :
    assembleWords "enc.char 'A' ; the first character".toList = some [0x30000041#32] ∧
    assembleWords "ham.dec 0xC1, 0x9".toList = some [0x990000C1#32] ∧
    assembleWords "plane.wr 12, 0, 0x00".toList = some [0xAC000000#32] ∧ assembleWords "setmode odd".toList = some [0x10000001#32] ∧
    assembleWords "; nothing".toList = some [] := by decide

theorem test_assembler_expands :
    assembleWords "enc.msg \"Hi\"".toList = some [0x20000000#32, 0x30000048#32, 0x30000069#32, 0x40000000#32] ∧
    assembleWords "plane.load 1, 0x80, 7".toList = some [0xA1000080#32, 0xA1000107#32] ∧
    assembleWords "plane.dump 11, 2".toList = some [0xBB000000#32, 0xBB000100#32] := by decide

theorem test_host_procedures :
    encodeProcedure .even .odd [0x48#8] = [.setMode .odd, .encBegin, .encChar 0x48#8, .encEnd] ∧
    (dumpProcedure 1).length = 12 ∧ (decodeProcedure .even [[0x00#8], [0x80#8]]).length = 13 := by decide

/-- A host's run ends in a record that meets a test. -/
def endsWith {α : Type} (r : Host.Outcome α Fault Refusal) (p : α → Bool) : Bool :=
  match r with
  | .next a => p a
  | _ => false

/-- R232: the option is case-sensitive, the final byte is dropped, and CLEAR comes first after a fault. -/
theorem test_host_encode :
    hostEncode start "Even".toList [0x41#8, 0x0A#8] = ⟨[], some .usage⟩ ∧
    hostEncode { start with mode := .odd } "even".toList [0x41#8, 0x0A#8] =
      ⟨[.setMode .even, .encBegin, .encChar 0x41#8, .encEnd], none⟩ ∧
    hostEncode faulted "even".toList [0x41#8, 0x0A#8] = ⟨[.clear, .encBegin, .encChar 0x41#8, .encEnd], none⟩ ∧
    hostEncode start "even".toList (List.replicate 18 0x41#8) = ⟨[], some .overBound⟩ := by
  refine ⟨?_, ?_, ?_, ?_⟩ <;> rfl

/-- R156, R232: RES is read after DEC_CHAR, and a fault ends the run. -/
theorem test_host_run :
    endsWith (hostRun [.decChar, .decEnd] decodingA) (fun r => r.reads.filterMap printedByte == [0x41#8] && !r.faulted) = true ∧
    endsWith (hostRun [.encBegin, .encBegin, .encEnd] start)
      (· == ⟨[], true, { encoding0 with phase := .fault, err := .sequence }⟩) = true := by decide

/-- Twelve plane files with the same bytes. -/
def sameFiles (bytes : List Byte) : Vector (Option (List Byte)) 12 :=
  #v[some bytes, some bytes, some bytes, some bytes, some bytes, some bytes, some bytes, some bytes, some bytes, some bytes,
    some bytes, some bytes]

/-- R225: SETMODE is sent before plane 0's missing file stops the run. R156, R232: a FLAG_ANY left by an earlier pass gives no
warning then, and none where DEC_BEGIN 0 faults. -/
theorem test_host_decode_stops :
    endsWith (decodeRunReport { start with flagAny := true } "odd".toList ((sameFiles []).set 0 none)) (fun d =>
      d == ⟨[], false, some .io, false, { start with flagAny := true, mode := .odd }⟩) = true ∧
    endsWith (decodeRunReport { start with flagAny := true } "even".toList (sameFiles [])) (fun d =>
      d == ⟨[], false, none, true, { start with flagAny := true, phase := .fault, err := .emptyInput }⟩) = true := by
  constructor <;> rfl

/-- R224, R232: exactly NBYTE bytes of each plane are written, and none of them after a fault. -/
theorem test_host_files :
    planeFile { withGroup 0 planesA start with n := 1#20, nbyte := 1#16 } 1 = some [0x80#8] ∧ planeFile faulted 1 = none ∧
    planeFileName defaultStem 11 = "file_11.hamming".toList := by decide

/-! ### Witnesses: states that meet the hypotheses of the statements -/

theorem start_invariant : Invariant start := by
  refine ⟨by decide, by decide, by decide, by decide, by decide, by decide, ?_, ?_, ?_, ?_, ?_, by decide, by decide, by decide, by decide⟩
  all_goals intro h
  · exact absurd h (by decide)
  · exact absurd h (by decide)
  · exact absurd h (by decide)
  · exact ⟨by decide, by decide⟩
  · exact absurd h (by decide)

theorem encoding3_invariant : Invariant encoding3 := by
  refine ⟨by decide, by decide, by decide, by decide, by decide, by decide, fun _ => by decide, fun _ => by decide, fun _ => by decide, ?_, ?_,
    by decide, by decide, by decide, by decide⟩
  all_goals intro h; exact absurd h (by decide)

theorem encoding16_invariant : Invariant encoding16 := by
  refine ⟨by decide, by decide, by decide, by decide, by decide, by decide, fun _ => by decide, fun _ => by decide, fun _ => by decide, ?_, ?_,
    by decide, by decide, by decide, by decide⟩
  all_goals intro h; exact absurd h (by decide)

theorem encoding15_invariant : Invariant encoding15 := by
  refine ⟨by decide, by decide, by decide, by decide, by decide, by decide, fun _ => by decide, fun _ => by decide, fun _ => by decide, ?_, ?_,
    by decide, by decide, by decide, by decide⟩
  all_goals intro h; exact absurd h (by decide)

theorem decodingA_invariant : Invariant decodingA := by
  refine ⟨by decide, by decide, by decide, by decide, by decide, by decide, ?_, ?_, ?_, fun _ => ⟨by decide, by decide⟩, fun _ => by decide,
    by decide, by decide, by decide, by decide⟩
  all_goals intro h; exact absurd h (by decide)

theorem decodingUnwritten_invariant : Invariant decodingUnwritten := by
  refine ⟨by decide, by decide, by decide, by decide, by decide, by decide, ?_, ?_, ?_, fun _ => ⟨by decide, by decide⟩, fun _ => by decide,
    by decide, by decide, by decide, by decide⟩
  all_goals intro h; exact absurd h (by decide)

/-- "HAM" under EVEN is packed so far: a partial group. -/
theorem encoding3_packing : Packing [0x48, 0x41, 0x4D] encoding3 :=
  ⟨by decide, by decide, by decide, by decide, by decide, by unfold PlanesHold; decide, by decide⟩

/-- "HAMMING!Code123": the next character is the last below MAX_N, and completes a group. -/
def fifteen : List Byte := [0x48, 0x41, 0x4D, 0x4D, 0x49, 0x4E, 0x47, 0x21, 0x43, 0x6F, 0x64, 0x65, 0x31, 0x32, 0x33]

theorem encoding15_packing : Packing fifteen encoding15 :=
  ⟨by decide, by decide, by decide, by decide, by decide, by unfold PlanesHold; decide, by decide⟩

/-- "HAMMING!Code1234": MAX_N characters, no partial group. -/
theorem encoding16_packing : Packing (fifteen ++ [0x34]) encoding16 :=
  ⟨by decide, by decide, by decide, by decide, by decide, by unfold PlanesHold; decide, by decide⟩

theorem witness_ResetLeavesEveryRegister :
    ({ encoding15 with port := [.reset] } : State).port = .reset :: [] ∧ (1 ≤ 1 ∧ 1 ≤ 524280) ∧ (1 ≤ 524280 ∧ 524280 ≤ 524280) ∧
    AtReset start ∧ AtReset (withGroup 0 planesA start) :=
  ⟨rfl, by decide, by decide, ⟨rfl, rfl, rfl, rfl, by decide, rfl, rfl, rfl, rfl, rfl⟩, ⟨rfl, rfl, rfl, rfl, by decide, rfl, rfl, rfl, rfl, rfl⟩⟩

/-- The last location, and a slot whose group is not written. -/
theorem witness_NeverWrittenBytesFault :
    (start.phase = .idle ∧ (0xB#4).toNat < 12 ∧ (1#16).toNat < (start.maxN + 7) / 8 ∧ readPlane start 11 1 = none) ∧
    (decodingUnwritten.phase = .decoding ∧ decodingUnwritten.dpos.toNat ≠ 8 * decodingUnwritten.nbyte.toNat ∧
      decodingUnwritten.dpos.toNat / 8 < (decodingUnwritten.maxN + 7) / 8 ∧
      ∃ k : Fin 12, readPlane decodingUnwritten k.val (decodingUnwritten.dpos.toNat / 8) = none) := by decide

theorem witness_ResetMeetsInvariant : (1 ≤ 1 ∧ 1 ≤ 524280) ∧ (1 ≤ 524280 ∧ 524280 ≤ 524280) := by decide

theorem witness_EncodeOfDecode : decode 0xABFFFFFF#32 = .ok (.planeWr 0xB#4 0xFFFF#16 0xFF#8) := by decide

theorem witness_DecodeFollowsOpcodeMap :
    decode 0x10000001#32 = .ok (.setMode .odd) ∧ opcodeRow (.planeRd 0#4 0#16) ∈ opcodeMap ∧
    0xBFFFFF00#32 &&& (opcodeRow (.planeRd 0#4 0#16)).maskBits = (opcodeRow (.planeRd 0#4 0#16)).matchBits := by decide

theorem witness_IllegalWordsAreTheRest :
    13 ≤ (opField 0xD0000000#32).toNat ∧ decode 0xC0000001#32 = .error (.reservedBits 0xC#4) ∧
    (sendWord 0xC0000001#32 start).port = .command 0xC0000001#32 :: [] ∧ (sendWord 0xC0000001#32 start).phase ≠ .fault ∧
    (sendWord 0xC0000001#32 faulted).port = .command 0xC0000001#32 :: [] ∧ (sendWord 0xC0000001#32 faulted).phase = .fault := by
  decide

theorem witness_StepRunsDecodedCommand :
    (sendWord 0x30000041#32 encoding15).port = .command 0x30000041#32 :: [] ∧
    decode 0x30000041#32 = .ok (.encChar 0x41#8) ∧ (Instr.encChar 0x41#8).wellFormed = true ∧
    ({ start with port := [.reset, .command 0#32] } : State).port = .reset :: [.command 0#32] ∧ start.port = [] := by decide

theorem witness_FaultPhaseHoldsUntilClear :
    faulted.phase = .fault ∧ (sendWord 0xC0000001#32 faulted).port = .command 0xC0000001#32 :: [] ∧
    0xC0000001#32 ≠ 0xC0000000#32 ∧ (sendWord 0xC0000000#32 faulted).port = .command 0xC0000000#32 :: [] := by decide

theorem witness_PhaseTableDecidesLegality :
    (start.phase ≠ .fault ∧ start.phase ∉ legalPhases (.encChar 0x41#8)) ∧ (faulted.phase = .fault ∧ Instr.nop ≠ .clear) ∧
    ∃ t, ({ start with err := .sequence } : State).phase ∈ legalPhases .nop ∧
      exec .nop { start with err := .sequence } = .next t ∧ t.err = .sequence :=
  ⟨by decide, by decide, _, by decide, rfl, rfl⟩

theorem witness_PhaseChangesOnlyAsListed :
    (∃ t, step (sendWord 0x20000000#32 start) = .next t ∧ t.phase = .encoding) ∧
    (∃ t, step (sendWord 0x40000000#32 encoding16) = .next t ∧ t.phase = .idle) ∧
    (∃ t, step (sendWord 0x50000100#32 start) = .next t ∧ t.phase = .decoding) ∧
    (∃ t, step (sendWord 0x70000000#32 decodingA) = .next t ∧ t.phase = .idle) ∧
    (∃ t, step { faulted with port := [.reset] } = .next t ∧ t.phase = .idle) :=
  ⟨⟨_, rfl, rfl⟩, ⟨_, rfl, rfl⟩, ⟨_, rfl, rfl⟩, ⟨_, rfl, rfl⟩, ⟨_, rfl, rfl⟩⟩

theorem witness_FaultEntryIsPrecise :
    ∃ t, step (sendWord 0x30000041#32 encoding16) = .next t ∧ (sendWord 0x30000041#32 encoding16).phase ≠ .fault ∧ t.phase = .fault :=
  ⟨_, rfl, by decide, rfl⟩

theorem witness_ChecksRunInOrder :
    (encoding0.phase ≠ .fault ∧ (sendWord 0x60000001#32 encoding0).port = .command 0x60000001#32 :: [] ∧
      ∀ r ∈ opcodeMap, 0x60000001#32 &&& r.maskBits ≠ r.matchBits) ∧
    (encode (.planeWr 12#4 0#16 0#8) = 0xAC000000#32 ∧ firstFault (.planeWr 12#4 0#16 0#8) encoding0 = .sequence) ∧
    (encode (.decBegin 0#16) = 0x50000000#32 ∧ firstFault (.decBegin 0#16) start = .emptyInput) ∧
    (encode (.planeRd 11#4 2#16) = 0xBB000200#32 ∧ firstFault (.planeRd 11#4 2#16) start = .planeRange) ∧
    (firstFault (.decBegin 3#16) start = .planeRange ∧ firstFault (.encChar 0#8) encoding16 = .sizeExceeded ∧
      firstFault .decChar decodingEnd = .decodeOverrun) ∧
    ∃ t, encode (.decBegin 2#16) = 0x50000200#32 ∧ firstFault (.decBegin 2#16) start = .none ∧
      step (sendWord 0x50000200#32 start) = .next t :=
  ⟨by decide, by decide, by decide, by decide, by decide, _, by decide, by decide, rfl⟩

/-- Each row of the correction table, and a mask that is none of its rows. -/
theorem witness_CorrectionFollowsTable :
    (correct 0x00#8 0x3#4 .even).fail = 0x3#4 ∧ (correct 0x00#8 0x5#4 .even).fail = 0x5#4 ∧
    (correct 0x00#8 0x9#4 .even).fail = 0x9#4 ∧ (correct 0x00#8 0x6#4 .even).fail = 0x6#4 ∧
    (correct 0x00#8 0xA#4 .even).fail = 0xA#4 ∧ (correct 0x00#8 0xC#4 .even).fail = 0xC#4 ∧
    (correct 0x00#8 0xF#4 .even).errors ≠ 2 := by decide

theorem witness_TwoBitErrors :
    (0 : Fin 12) < 1 ∧ (correct (0x41#8 ^^^ 0xC0#8) 0x9#4 .even).errors = 2 ∧
    (0 : Fin 12) < 3 ∧ (correct (0x41#8 ^^^ 0x90#8) 0x9#4 .even).errors ≠ 2 := by decide

theorem witness_ModeMismatch : Parity.even ≠ .odd ∧ (correct 0x51#8 0xD#4 .even).errors = 2 := by decide

/-- For each command whose format reserves bits, a word with one reserved bit set: the clauses on illegal words. -/
theorem witness_reserved_bits :
    (opField 0x00000001#32 = 0x0#4 ∧ 0x00000001#32 ≠ 0x00000000#32) ∧
    (opField 0x10000002#32 = 0x1#4 ∧ (0x10000002#32).extractLsb' 1 27 ≠ 0#27) ∧
    (opField 0x20000100#32 = 0x2#4 ∧ 0x20000100#32 ≠ 0x20000000#32) ∧
    (opField 0x31000041#32 = 0x3#4 ∧ (0x31000041#32).extractLsb' 8 20 ≠ 0#20) ∧
    (opField 0x40000080#32 = 0x4#4 ∧ 0x40000080#32 ≠ 0x40000000#32) ∧
    (opField 0x51000100#32 = 0x5#4 ∧ (0x51000100#32).extractLsb' 24 4 ≠ 0#4) ∧
    (opField 0x50000101#32 = 0x5#4 ∧ (0x50000101#32).extractLsb' 0 8 ≠ 0#8) ∧
    (opField 0x60000001#32 = 0x6#4 ∧ 0x60000001#32 ≠ 0x60000000#32) ∧
    (opField 0x70000001#32 = 0x7#4 ∧ 0x70000001#32 ≠ 0x70000000#32) ∧
    (opField 0x80000100#32 = 0x8#4 ∧ (0x80000100#32).extractLsb' 8 20 ≠ 0#20) ∧
    (opField 0x90000100#32 = 0x9#4 ∧ (0x90000100#32).extractLsb' 8 16 ≠ 0#16) ∧ opField 0xAFFFFFFF#32 = 0xA#4 ∧
    (opField 0xB0000001#32 = 0xB#4 ∧ (0xB0000001#32).extractLsb' 0 8 ≠ 0#8) ∧
    (opField 0xC0000001#32 = 0xC#4 ∧ 0xC0000001#32 ≠ 0xC0000000#32) := by decide

/-- What `RaisesIllegal` quantifies over, and the FAULT clause of CLEAR. -/
theorem witness_ClearKeepsPlanes :
    ((sendWord 0xC0000001#32 start).phase ≠ .fault ∧ (sendWord 0xC0000001#32 start).port = .command 0xC0000001#32 :: []) ∧
    ((sendWord 0xC0000001#32 faulted).phase = .fault ∧ (sendWord 0xC0000001#32 faulted).port = .command 0xC0000001#32 :: []) := by
  decide

/-- The three phases in which HAM_ENC and HAM_DEC complete, and FAULT. -/
theorem witness_HamEncWritesQuad :
    start.phase ≠ .fault ∧ encoding3.phase ≠ .fault ∧ decodingA.phase ≠ .fault ∧ faulted.phase = .fault := by decide

theorem witness_HamDecWritesCorrection :
    start.phase ≠ .fault ∧ encoding3.phase ≠ .fault ∧ decodingEnd.phase ≠ .fault ∧ faulted.phase = .fault := by decide

/-- One state for each phase that the clauses of SETMODE, ENC_BEGIN, DEC_END, PLANE_WR and PLANE_RD name. -/
theorem witness_SetModeWritesMode : start.phase = .idle ∧ encoding0.phase = .encoding ∧ decodingA.phase = .decoding := by decide

theorem witness_EncBeginStartsPass : start.phase = .idle ∧ encoding0.phase = .encoding ∧ decodingA.phase = .decoding := by decide

theorem witness_DecEndEndsPass : decodingA.phase = .decoding ∧ start.phase = .idle ∧ encoding0.phase = .encoding := by decide

/-- At the bound; below it with room in the group; and completing the last group. -/
theorem witness_EncCharPacksCharacter :
    (encoding16.phase = .encoding ∧ encoding16.n.toNat = encoding16.maxN) ∧
    (encoding3.phase = .encoding ∧ encoding3.n.toNat ≠ encoding3.maxN ∧ encoding3.ecnt ≠ 7#3) ∧
    (encoding15.phase = .encoding ∧ encoding15.n.toNat ≠ encoding15.maxN ∧ encoding15.ecnt = 7#3 ∧
      encoding15.nbyte.toNat < (encoding15.maxN + 7) / 8) ∧ start.phase = .idle ∧ decodingA.phase = .decoding := by decide

theorem witness_EncEndStoresPartialGroup :
    start.phase = .idle ∧ decodingA.phase = .decoding ∧
    (encoding16.phase = .encoding ∧ encoding16.ecnt = 0#3) ∧
    (encoding15.phase = .encoding ∧ encoding15.ecnt ≠ 0#3 ∧ encoding15.nbyte.toNat < (encoding15.maxN + 7) / 8) := by decide

theorem witness_EncBeginPacksEmptyMessage : start.phase = .idle ∧ start.maxN ≤ 524280 := by decide

theorem witness_EncCharExtendsPacking :
    (Packing [0x48, 0x41, 0x4D] encoding3 ∧ [(0x48 : Byte), 0x41, 0x4D].length < encoding3.maxN) ∧
    (Packing fifteen encoding15 ∧ fifteen.length < encoding15.maxN) :=
  ⟨⟨encoding3_packing, by decide⟩, ⟨encoding15_packing, by decide⟩⟩

theorem witness_EncEndLeavesPackedPlanes : Packing fifteen encoding15 ∧ Packing (fifteen ++ [0x34]) encoding16 :=
  ⟨encoding15_packing, encoding16_packing⟩

theorem witness_EncEndLeavesWholeBytes :
    (∃ t, Invariant encoding15 ∧ encoding15.phase = .encoding ∧ exec .encEnd encoding15 = .next t) ∧
    (∃ t, Invariant encoding16 ∧ encoding16.phase = .encoding ∧ exec .encEnd encoding16 = .next t) :=
  ⟨⟨_, encoding15_invariant, rfl, rfl⟩, ⟨_, encoding16_invariant, rfl, rfl⟩⟩

theorem witness_PaddingBitsAreZero : Invariant encoding15 ∧ encoding15.phase = .encoding ∧ encoding15.n.toNat % 8 ≠ 0 :=
  ⟨encoding15_invariant, rfl, by decide⟩

/-- Lengths 0, 1, B and B + 1. -/
theorem witness_DecBeginStartsPass :
    (start.phase = .idle ∧ (0#16).toNat = 0) ∧ (start.phase = .idle ∧ (start.maxN + 7) / 8 < (3#16).toNat) ∧
    (1 ≤ (1#16).toNat ∧ (1#16).toNat ≤ (start.maxN + 7) / 8) ∧ (1 ≤ (2#16).toNat ∧ (2#16).toNat ≤ (start.maxN + 7) / 8) ∧
    encoding0.phase = .encoding ∧ decodingA.phase = .decoding := by decide

theorem witness_DecCharDecodesSlot :
    start.phase = .idle ∧ encoding0.phase = .encoding ∧
    (decodingEnd.phase = .decoding ∧ decodingEnd.dpos.toNat = 8 * decodingEnd.nbyte.toNat) ∧
    (decodingA.phase = .decoding ∧ decodingA.dpos.toNat ≠ 8 * decodingA.nbyte.toNat ∧
      decodingA.dpos.toNat / 8 < (decodingA.maxN + 7) / 8 ∧
      (∀ k : Fin 12, readPlane decodingA k.val (decodingA.dpos.toNat / 8) = some planesA[k]) ∧
      (∀ k : Fin 12, k.val < 8 → (0x41#8).getLsbD (7 - k.val) = planesA[k].getLsbD (7 - decodingA.dpos.toNat % 8)) ∧
      (∀ k : Fin 12, 8 ≤ k.val → (0x9#4).getLsbD (k.val - 8) = planesA[k].getLsbD (7 - decodingA.dpos.toNat % 8))) := by decide

theorem witness_DecCharRecoversMessage :
    decodingA.phase = .decoding ∧ [(0x41 : Byte)].length ≤ decodingA.maxN ∧
    decodingA.nbyte.toNat = ([(0x41 : Byte)].length + 7) / 8 ∧ PlanesHold [0x41] decodingA.mode decodingA.nbyte.toNat decodingA ∧
    [(0x41 : Byte)][decodingA.dpos.toNat]? = some 0x41 :=
  ⟨rfl, by decide, by decide, by unfold PlanesHold; decide, rfl⟩

/-- A padding slot under ODD, and the last padding slot under EVEN. -/
theorem witness_PaddingSlotsUnderEachMode :
    (decodingPadding.mode = .odd ∧ decodingPadding.phase = .decoding ∧ [(0x48 : Byte), 0x69].length ≤ decodingPadding.maxN ∧
      decodingPadding.nbyte.toNat = ([(0x48 : Byte), 0x69].length + 7) / 8 ∧
      PlanesHold [0x48, 0x69] decodingPadding.mode decodingPadding.nbyte.toNat decodingPadding ∧
      [(0x48 : Byte), 0x69].length ≤ decodingPadding.dpos.toNat ∧ decodingPadding.dpos.toNat < 8 * decodingPadding.nbyte.toNat) ∧
    (decodingLast.mode = .even ∧ decodingLast.phase = .decoding ∧ [(0x41 : Byte)].length ≤ decodingLast.maxN ∧
      decodingLast.nbyte.toNat = ([(0x41 : Byte)].length + 7) / 8 ∧
      PlanesHold [0x41] decodingLast.mode decodingLast.nbyte.toNat decodingLast ∧
      [(0x41 : Byte)].length ≤ decodingLast.dpos.toNat ∧ decodingLast.dpos.toNat < 8 * decodingLast.nbyte.toNat) := by
  unfold PlanesHold
  decide

theorem witness_FlagAnyIsSticky :
    (∃ t, exec .decChar decodingPadding = .next t ∧ decodingPadding.phase = .decoding ∧ t.phase = .decoding) ∧
    (∃ t, exec (.decBegin 2#16) start = .next t ∧ t.phase = .decoding ∧ start.phase = .idle) ∧
    (∃ t, exec .clear faulted = .next t) ∧ (∃ t, step { decodingA with port := [.reset] } = .next t) :=
  ⟨⟨_, rfl, rfl, rfl⟩, ⟨_, rfl, rfl, rfl⟩, ⟨_, rfl⟩, ⟨_, rfl⟩⟩

theorem witness_ResHasFourWriters :
    (∃ t, exec (.planeRd 8#4 0#16) (withGroup 0 planesA start) = .next t) ∧ (∃ t, exec .encEnd encoding16 = .next t) ∧
    (∃ t, step { decodingA with port := [.reset] } = .next t) := ⟨⟨_, rfl⟩, ⟨_, rfl⟩, ⟨_, rfl⟩⟩

/-- The first plane and position out of range, and the last ones in range. -/
theorem witness_PlaneWrWritesOneByte :
    (start.phase = .idle ∧ 12 ≤ (12#4).toNat) ∧ (start.phase = .idle ∧ (start.maxN + 7) / 8 ≤ (2#16).toNat) ∧
    (start.phase = .idle ∧ (11#4).toNat < 12 ∧ (1#16).toNat < (start.maxN + 7) / 8) ∧
    encoding0.phase = .encoding ∧ decodingA.phase = .decoding := by decide

theorem witness_PlaneRdReadsOneByte :
    (start.phase = .idle ∧ 12 ≤ (12#4).toNat) ∧ (start.phase = .idle ∧ (start.maxN + 7) / 8 ≤ (2#16).toNat) ∧
    ((withGroup 0 planesA start).phase = .idle ∧ (11#4).toNat < 12 ∧ (0#16).toNat < ((withGroup 0 planesA start).maxN + 7) / 8 ∧
      readPlane (withGroup 0 planesA start) (11#4).toNat (0#16).toNat = some 0x80#8) ∧
    ((11#4).toNat < 12 ∧ (1#16).toNat < (start.maxN + 7) / 8 ∧ readPlane start (11#4).toNat (1#16).toNat = none) ∧
    encoding0.phase = .encoding ∧ decodingA.phase = .decoding := by decide

theorem witness_RegisterFrame :
    (∃ t, exec (.encChar 0x34#8) encoding15 = .next t) ∧ (∃ t, exec .decChar decodingA = .next t) ∧
    (∃ t, exec (.hamEnc 0x41#8) start = .next t) := ⟨⟨_, rfl⟩, ⟨_, rfl⟩, ⟨_, rfl⟩⟩

/-- The group write of ENC_CHAR, the partial group of ENC_END, PLANE_WR, and a command that stores nothing. -/
theorem witness_MemoryFrame :
    (∃ t, exec (.encChar 0x34#8) encoding15 = .next t) ∧ (∃ t, exec .encEnd encoding3 = .next t) ∧
    (∃ t, exec (.planeWr 11#4 1#16 0xFF#8) start = .next t) ∧ (∃ t, exec .decChar decodingA = .next t) :=
  ⟨⟨_, rfl⟩, ⟨_, rfl⟩, ⟨_, rfl⟩, ⟨_, rfl⟩⟩

theorem witness_CountersAdvanceByOne :
    (∃ t, Invariant encoding15 ∧ exec (.encChar 0x34#8) encoding15 = .next t) ∧
    (∃ t, Invariant decodingA ∧ exec .decChar decodingA = .next t) :=
  ⟨⟨_, encoding15_invariant, rfl⟩, ⟨_, decodingA_invariant, rfl⟩⟩

theorem witness_ReadPortMap :
    (0x08 ≤ (0x08#5).toNat ∧ (0x0F#5).toNat ≤ 0x0F) ∧ 0x1C ≤ (0x1C#5).toNat ∧ 0x1C ≤ (0x1F#5).toNat := by decide

theorem witness_ParameterRegistersAreConstant :
    (1 ≤ (State.powerOn 1).maxN ∧ (State.powerOn 1).maxN ≤ 524280) ∧
    (1 ≤ (State.powerOn 524280).maxN ∧ (State.powerOn 524280).maxN ≤ 524280) ∧
    ∃ t, step (sendWord 0xC0000000#32 faulted) = .next t := ⟨by decide, by decide, _, rfl⟩

theorem witness_StepKeepsInvariant :
    ∃ t, Invariant (sendWord 0x20000000#32 start) ∧ step (sendWord 0x20000000#32 start) = .next t :=
  ⟨_, ⟨start_invariant.param, start_invariant.memWf, start_invariant.memIn, start_invariant.nBound, start_invariant.nbyteBound,
    start_invariant.dposBound, start_invariant.encCount, start_invariant.encAcc, start_invariant.encWritten,
    start_invariant.groupEmpty, start_invariant.decPos, start_invariant.errPhase, start_invariant.resHigh,
    start_invariant.resErrs, start_invariant.resFlag⟩, rfl⟩

theorem witness_StepKeepsMemoryCanonical :
    ∃ t, Memory.wf (sendWord 0x30000034#32 encoding15).plane ∧ step (sendWord 0x30000034#32 encoding15) = .next t :=
  ⟨_, by decide, rfl⟩

theorem witness_OnlyNeverWrittenReadsStop :
    ∃ f, Invariant { decodingUnwritten with port := [.command 0x60000000#32] } ∧
      step { decodingUnwritten with port := [.command 0x60000000#32] } = .fault f :=
  have h := decodingUnwritten_invariant
  ⟨_, ⟨h.param, h.memWf, h.memIn, h.nBound, h.nbyteBound, h.dposBound, h.encCount, h.encAcc, h.encWritten, h.groupEmpty, h.decPos,
    h.errPhase, h.resHigh, h.resErrs, h.resFlag⟩, rfl⟩

theorem witness_CheckedCommandsComplete :
    (Invariant decodingA ∧ decodingA.phase ≠ .fault ∧ firstFault .decChar decodingA = .none ∧
      ∀ k : Fin 12, (readPlane decodingA k.val (decodingA.dpos.toNat / 8)).isSome) ∧
    (Invariant encoding15 ∧ firstFault (.encChar 0x34#8) encoding15 = .none ∧ firstFault .encEnd encoding15 = .none) ∧
    (Invariant start ∧ firstFault (.planeWr 11#4 1#16 0#8) start = .none ∧ firstFault (.decBegin 2#16) start = .none) :=
  ⟨⟨decodingA_invariant, by decide, by decide, by decide⟩, ⟨encoding15_invariant, by decide, by decide⟩,
    ⟨start_invariant, by decide, by decide⟩⟩

/-- The largest operands that fit, and the smallest that do not: of a byte, of a field of 4 bits, of a field of 16, of `setmode`;
and operands that are no number, character code or mode name. -/
theorem witness_AssemblerWords :
    (AsmToken.chr 255 ∈ [AsmToken.num 255, AsmToken.chr 255] ∧ 255 < 256 ∧ 15 < 16 ∧ 65535 < 65536) ∧
    (∀ a ∈ [AsmToken.num 256, .chr 256, .str [0x41], .word "even".toList], ¬ ∃ c < 256, a = .num c ∨ a = .chr c) ∧
    (∀ a ∈ [AsmToken.num 16, .chr 0x41], ¬ ∃ n < 2 ^ 4, a = .num n) ∧
    (∀ a ∈ [AsmToken.num 65536, .chr 0x41], ¬ ∃ n < 2 ^ 16, a = .num n) ∧
    (∀ operands ∈ [[AsmToken.num 2], [.word "Even".toList], [.chr 0x65], [.str [0x65]], [], [.num 0, .num 0]],
      operands ∉ [[.word "even".toList], [.word "odd".toList], [.num 0], [.num 1]]) := by
  refine ⟨by decide, ?_, ?_, ?_, by decide⟩ <;> intro a ha <;> rintro ⟨c, hc, h⟩ <;> simp at ha <;>
    rcases ha with rfl | rfl | rfl | rfl <;> simp at h <;> omega

/-- One byte as a number and one as a character literal. -/
theorem witness_PseudoInstructionExpansions :
    11 < 16 ∧ 1 ≤ [(0x80 : Byte), 0x41].length ∧ [(0x80 : Byte), 0x41].length ≤ 65536 ∧
    List.Forall₂ (fun a (b : Byte) => a = .num b.toNat ∨ a = .chr b.toNat) [AsmToken.num 0x80, .chr 0x41] [0x80, 0x41] :=
  ⟨by decide, by decide, by decide, .cons (.inl rfl) (.cons (.inr rfl) .nil)⟩

/-- Twelve plane files of one byte each. -/
def oneByteFiles : Vector (List Byte) 12 := Vector.replicate 12 [0x80]

/-- "A" is packed, and its pass has ended. -/
def encodedA : State := { withGroup 0 planesA start with n := 1#20, nbyte := 1#16 }

/-- One state, option, message or file for each clause: a message of MAX_N characters and one above; a plane 0 that is missing, a
last file that is, a file longer than the POS field reaches, and files of one byte; a command that faults, one that does not, and
one that reads RES; decode and encode runs that end in a fault, that the host stops, and that reach the pass's end; and the planes
of a pass that is over, faulted or not yet over. -/
theorem witness_HostKeepsItsDuties :
    ("Even".toList ≠ "even".toList ∧ "Even".toList ≠ "odd".toList) ∧ resolveParity "odd".toList = some .odd ∧
    ((List.replicate 17 0x41#8).dropLast.length ≤ (readPort start 0x06#5).toNat ∧
      ¬ (List.replicate 18 0x41#8).dropLast.length ≤ (readPort start 0x06#5).toNat) ∧
    ((sameFiles []).set 0 none)[0] = none ∧
    (((sameFiles [0x80]).set 11 none).toList = ([0x80] :: List.replicate 10 [0x80]).map some ++ none :: [] ∧
      [(0x80 : Byte)].length ≤ 65535) ∧
    ((sameFiles (List.replicate 65536 0x80))[0] = some (List.replicate 65536 0x80) ∧
      65535 < (List.replicate 65536 (0x80 : Byte)).length) ∧
    oneByteFiles[0].length ≤ 65535 ∧
    (∃ t, exec .encBegin encoding0 = .next t ∧ t.phase = .fault) ∧
    (∃ t r, exec .encBegin start = .next t ∧ t.phase ≠ .fault ∧ hostRun [] t = .next r) ∧
    (∃ t r, exec .decChar decodingA = .next t ∧ t.phase ≠ .fault ∧ hostRun [.decEnd] t = .next r) ∧
    (∃ r, hostRun (hostDecode start "even".toList (sameFiles [])).commands start = .next r ∧ r.faulted = true) ∧
    (∃ r, hostRun (hostDecode start "even".toList ((sameFiles []).set 0 none)).commands start = .next r) ∧
    (∃ r, hostRun (hostDecode start "odd".toList (sameFiles [0x80])).commands start = .next r ∧
      (hostDecode start "odd".toList (sameFiles [0x80])).stop = none ∧ r.faulted = false ∧ r.final.flagAny = true) ∧
    (∃ r, hostRun (hostEncode start "Even".toList []).commands start = .next r ∧
      (hostEncode start "Even".toList []).stop ≠ none) ∧
    (∃ r, hostRun (hostEncode encoding0 "even".toList []).commands encoding0 = .next r ∧ r.faulted = true) ∧
    (∃ r d, hostRun (hostEncode start "even".toList [0x41, 0x0A]).commands start = .next r ∧
      (hostEncode start "even".toList [0x41, 0x0A]).stop = none ∧ r.faulted = false ∧
      hostRun (dumpProcedure r.final.nbyte.toNat) r.final = .next d ∧ d.faulted = false) ∧
    (faulted.phase ≠ .idle ∧ encoding3.phase ≠ .idle ∧ start.phase = .idle) ∧
    (encodedA.phase = .idle ∧ encodedA.nbyte.toNat ≤ (encodedA.maxN + 7) / 8 ∧
      ∀ k : Fin 12, ∀ pos < encodedA.nbyte.toNat, (readPlane encodedA k.val pos).isSome) := by
  refine ⟨by decide, by decide, by decide, by simp, ⟨rfl, by decide⟩, ⟨rfl, by rw [List.length_replicate]; decide⟩,
    by simp [oneByteFiles], ⟨_, rfl, rfl⟩, ⟨_, _, rfl, by decide, rfl⟩, ⟨_, _, rfl, by decide, rfl⟩, ⟨_, rfl, rfl⟩, ⟨_, rfl⟩,
    ⟨_, rfl, rfl, rfl, rfl⟩, ⟨_, rfl, by decide⟩, ⟨_, rfl, rfl⟩, ⟨_, _, rfl, rfl, rfl, rfl, rfl⟩, by decide, by decide⟩

end Sys2Proof.Tests
end

section
/-! PROOFS. Reset (00_scope.md R11, 70_reset_and_hazards.md R220): the parameter's range, what the read port returns for the
registers the reset rule names, and the states that power-on, a later reset and CLEAR leave. -/

namespace Sys2Proof

/-- The range of R11. -/
theorem Config.maxN_bounds : 1 ≤ Config.maxN ∧ Config.maxN ≤ 524280 := by
  unfold Config.maxN
  omega

namespace Machine

@[simp] theorem reset_maxN : State.reset.maxN = Config.maxN := rfl

/-! What the read port returns for STATUS, MAXN and PBYTES (R29). -/

@[simp] theorem readPort_status (s : State) : readPort s 0x00#5 = statusWord s := rfl
@[simp] theorem readPort_maxn (s : State) : readPort s 0x06#5 = maxnWord s := rfl
@[simp] theorem readPort_pbytes (s : State) : readPort s 0x07#5 = pbytesWord s := rfl

/-- MAX_N fits the 20 bits of MAXN (R28). -/
theorem toNat_maxnWord {s : State} (h : s.maxN ≤ 524280) : (maxnWord s).toNat = s.maxN := by
  have hfits : s.maxN < 2 ^ 20 := by omega
  rw [maxnWord, BitVec.toNat_setWidth_of_le (by decide), BitVec.toNat_ofNat, Nat.mod_eq_of_lt hfits]

/-- B is at most 65535, so it fits the 16 bits of PBYTES (R12, R28). -/
theorem toNat_pbytesWord {s : State} (h : s.maxN ≤ 524280) : (pbytesWord s).toNat = (s.maxN + 7) / 8 := by
  have hfits : (s.maxN + 7) / 8 < 2 ^ 16 := by omega
  rw [pbytesWord, planeBytes_eq, BitVec.toNat_setWidth_of_le (by decide), BitVec.toNat_ofNat, Nat.mod_eq_of_lt hfits]

/-- A reset that the host asks for resets the registers and is taken from the input (R220). -/
theorem step_of_reset {s : State} {rest : List HostEvent} (h : s.port = .reset :: rest) :
    step s = .next (resetRegisters (popEvent s)) := by
  simp [step, nextEvent, h, hostReset]

/-- CLEAR resets the registers in every phase (R174). -/
@[simp] theorem exec_clear (s : State) : exec .clear s = .next (resetRegisters s) := rfl

end Machine

namespace Safety

open Sys2Proof.Machine

/-- Resetting the registers leaves each at its value of R220. -/
theorem atReset_resetRegisters (s : State) : AtReset (resetRegisters s) where
  mode := rfl
  phase := rfl
  err := rfl
  flagAny := rfl
  acc := by simp
  ecnt := rfl
  n := rfl
  nbyte := rfl
  dpos := rfl
  res := rfl

/-- A power-on state has nothing left for a reset of its registers to change. -/
theorem resetRegisters_powerOn (maxN : Nat) : resetRegisters (State.powerOn maxN) = State.powerOn maxN := rfl

theorem atReset_powerOn (maxN : Nat) : AtReset (State.powerOn maxN) :=
  resetRegisters_powerOn maxN ▸ atReset_resetRegisters (State.powerOn maxN)

/-- Every field of STATUS is 0 after reset (R26, R220). -/
theorem AtReset.statusWord_eq {s : State} (h : AtReset s) : statusWord s = 0#32 := by
  simp only [statusWord, h.err, h.flagAny, h.mode, h.phase]
  decide

end Safety

open Machine Safety

/-- Settles O1: power-on reset, a later reset and CLEAR all leave a state that `resetRegisters` has set, whatever the parameter. -/
theorem resetLeavesEveryRegister : Obligations.ResetLeavesEveryRegister := by
  obtain ⟨hpos, hmax⟩ := Config.maxN_bounds
  refine ⟨atReset_powerOn Config.maxN, reset_maxN, hpos, hmax, ?powerOn, ?laterReset, ?clear, ?constants, ?status⟩
  case powerOn => exact fun maxN => ⟨atReset_powerOn maxN, powerOn_maxN maxN⟩
  case laterReset =>
    intro s rest hport
    exact ⟨_, step_of_reset hport, atReset_resetRegisters _, by simp, by simp [hport]⟩
  case clear => exact fun s => ⟨_, exec_clear s, atReset_resetRegisters s, resetRegisters_maxN s⟩
  case constants =>
    intro maxN _ hle
    rw [readPort_maxn, readPort_pbytes]
    exact ⟨toNat_maxnWord hle, toNat_pbytesWord hle⟩
  case status => exact fun s hreset => (readPort_status s).trans hreset.statusWord_eq

end Sys2Proof
end

section
/-! PROOFS. The encode pass on the packed layout (41_plane_packer.md R130 to R134): the bits of a packed byte, what one more
character changes in them, and the plane bytes that a stored group leaves. -/

namespace Sys2Proof

namespace Machine

/-- Bit j of a byte packed MSB-first, counted from the MSB, is bit j of the vector (R101). -/
theorem getMsbD_byteOf (bits : Vector Bool 8) (j : Fin 8) : (byteOf bits).getMsbD j.val = bits[j] := by
  change BitVec.getMsbD (BitVec.ofBool bits[0] ++ BitVec.ofBool bits[1] ++ BitVec.ofBool bits[2] ++ BitVec.ofBool bits[3] ++
    BitVec.ofBool bits[4] ++ BitVec.ofBool bits[5] ++ BitVec.ofBool bits[6] ++ BitVec.ofBool bits[7]) j.val = _
  simp only [BitVec.getMsbD_append]
  fin_cases j <;> simp

/-! The accumulators (R134). -/

theorem emptyAcc_get (k : Fin 12) : emptyAcc[k] = 0#8 := by simp [emptyAcc]

theorem shiftIn_get (acc : Vector Byte 12) (g : Vector Bool 12) (k : Fin 12) :
    (shiftIn acc g)[k] = (acc[k] <<< 1) ||| (BitVec.ofBool g[k]).setWidth 8 := by
  simp [shiftIn]

/-- A 3-bit count below 7 counts on without wrapping. -/
theorem toNat_ecnt_succ {e : BitVec 3} (h : e ≠ 7#3) : (e + 1#3).toNat = e.toNat + 1 := by
  have hne : e.toNat ≠ 7 := fun heq => h (BitVec.eq_of_toNat_eq heq)
  have hlt := e.isLt
  rw [BitVec.toNat_add, BitVec.toNat_ofNat]
  omega

/-! What a group store leaves in the planes (R52, R134, R135). -/

/-- B fits the 16-bit position field (R12, R50). -/
theorem planeBytes_lt {s : State} (h : s.maxN ≤ 524280) : planeBytes s < 65536 := by
  rw [planeBytes_eq]; omega

/-- The group's own position reads the group's bytes. -/
theorem readPlane_writeGroup_self {s t : State} {pos : Nat} {bytes : Vector Byte 12}
    (ht : t.plane = Memory.writeGroup pos bytes planeIndices s.plane) (k : Fin 12) :
    readPlane t k.val pos = some bytes[k] := by
  rw [readPlane, ht]
  exact byteAt_writeGroup_self pos bytes planeIndices s.plane planeIndices_nodup (mem_planeIndices k)

/-- Every position before the group's reads what it read before. -/
theorem readPlane_writeGroup_of_lt {s t : State} {pos q : Nat} {bytes : Vector Byte 12}
    (ht : t.plane = Memory.writeGroup pos bytes planeIndices s.plane) (hpos : pos < 65536) (hq : q < pos) (k : Nat) :
    readPlane t k q = readPlane s k q := by
  rw [readPlane, readPlane, ht]
  refine byteAt_writeGroup_of_ne pos bytes planeIndices s.plane fun j _ heq => ?_
  obtain ⟨-, hqpos⟩ := (planeAddr_inj (hq.trans hpos) hpos).1 heq
  omega

end Machine

namespace Safety

open Machine

/-! The slots of a message and of the message with one more character (R130, R132). -/

theorem slotOf_append_of_lt {message : List Byte} {i : Nat} (h : i < message.length) (c : Byte) (m : Parity) (k : Fin 12) :
    slotOf (message ++ [c]) m k i = slotOf message m k i := by
  simp [slotOf, List.getElem?_append_left h]

theorem slotOf_append_length (message : List Byte) (c : Byte) (m : Parity) (k : Fin 12) :
    slotOf (message ++ [c]) m k message.length = (planeBits c m)[k] := by
  simp [slotOf]

/-- Bit j of a packed byte, counted from the MSB, is slot `8 pos + j` (R131). -/
theorem getMsbD_packedByte (message : List Byte) (m : Parity) (k : Fin 12) (pos : Nat) {j : Nat} (hj : j < 8) :
    (packedByte message m k pos).getMsbD j = slotOf message m k (8 * pos + j) := by
  simpa [packedByte] using getMsbD_byteOf (Vector.ofFn fun j : Fin 8 => slotOf message m k (8 * pos + j.val)) ⟨j, hj⟩

/-- Bit i of a packed byte is slot `8 pos + (7 - i)` (R131). -/
theorem getLsbD_packedByte (message : List Byte) (m : Parity) (k : Fin 12) (pos : Nat) {i : Nat} (hi : i < 8) :
    (packedByte message m k pos).getLsbD i = slotOf message m k (8 * pos + (7 - i)) := by
  rw [← getMsbD_packedByte message m k pos (by omega : 7 - i < 8), BitVec.getMsbD_eq_getLsbD]
  simp [show 7 - i < 8 by omega, show 7 - (7 - i) = i by omega]

/-- A further character leaves the completed groups of the message as they were. -/
theorem packedByte_append_of_lt {message : List Byte} {pos : Nat} (h : pos < message.length / 8) (c : Byte) (m : Parity)
    (k : Fin 12) : packedByte (message ++ [c]) m k pos = packedByte message m k pos := by
  refine BitVec.eq_of_getLsbD_eq fun i hi => ?_
  rw [getLsbD_packedByte _ m k pos hi, getLsbD_packedByte _ m k pos hi, slotOf_append_of_lt (by omega)]

/-- A further character joins the pending bits of its plane from the right: the shift of R134 keeps ACC in the layout of R131. -/
theorem pending_append (message : List Byte) (c : Byte) (m : Parity) (k : Fin 12) :
    (packedByte message m k (message.length / 8) >>> (8 - message.length % 8)) <<< 1 |||
        (BitVec.ofBool (planeBits c m)[k]).setWidth 8 =
      packedByte (message ++ [c]) m k (message.length / 8) >>> (7 - message.length % 8) := by
  refine BitVec.eq_of_getLsbD_eq fun i hi => ?_
  simp only [BitVec.getLsbD_or, BitVec.getLsbD_shiftLeft, BitVec.getLsbD_ushiftRight, BitVec.getLsbD_setWidth,
    BitVec.getLsbD_ofBool]
  rcases Nat.eq_zero_or_pos i with rfl | hpos
  case inl =>
    have hslot : 8 * (message.length / 8) + (7 - (7 - message.length % 8 + 0)) = message.length := by omega
    rw [getLsbD_packedByte (message ++ [c]) m k _ (by omega), hslot, slotOf_append_length]
    simp
  case inr =>
    by_cases hin : i ≤ message.length % 8
    case pos =>
      have hbit : 8 - message.length % 8 + (i - 1) = 7 - message.length % 8 + i := by omega
      rw [hbit, getLsbD_packedByte _ m k _ (by omega), getLsbD_packedByte _ m k _ (by omega), slotOf_append_of_lt (by omega)]
      simp [hi, show ¬i < 1 by omega, show i ≠ 0 by omega]
    case neg =>
      rw [BitVec.getLsbD_of_ge _ (8 - message.length % 8 + (i - 1)) (by omega),
        BitVec.getLsbD_of_ge _ (7 - message.length % 8 + i) (by omega)]
      simp [show i ≠ 0 by omega]

/-- The accumulators of a packing after a character are shifted in as R134 says. -/
theorem Packing.shiftIn_get {message : List Byte} {s : State} (h : Packing message s) (c : Byte) (k : Fin 12) :
    (shiftIn s.acc (planeBits c s.mode))[k] =
      packedByte (message ++ [c]) s.mode k (message.length / 8) >>> (7 - message.length % 8) := by
  rw [Machine.shiftIn_get, h.group k, pending_append]

/-- The completed groups hold the longer message too. -/
theorem Packing.planesHold_append {message : List Byte} {s : State} (h : Packing message s) (c : Byte) :
    PlanesHold (message ++ [c]) s.mode (message.length / 8) s := by
  intro k pos hpos
  rw [h.planes k pos hpos, packedByte_append_of_lt hpos]

/-- The character joins a group it does not complete (R134). -/
theorem Packing.join {message : List Byte} {s : State} (h : Packing message s) (c : Byte) (hlt : message.length < s.maxN)
    (hopen : s.ecnt ≠ 7#3) :
    Packing (message ++ [c])
      { s with acc := shiftIn s.acc (planeBits c s.mode), n := s.n + 1#20, ecnt := s.ecnt + 1#3 } := by
  have hpend := h.pending
  have hmax := h.bound.1
  have hseven : message.length % 8 ≠ 7 := fun heq => hopen (BitVec.eq_of_toNat_eq (by simpa [heq] using hpend))
  have hlen : (message ++ [c]).length = message.length + 1 := by simp
  have hdiv : (message.length + 1) / 8 = message.length / 8 := by omega
  have hmod : (message.length + 1) % 8 = message.length % 8 + 1 := by omega
  refine ⟨h.phase, ⟨hmax, by simpa using hlt⟩, ?count, ?groups, ?pending, ?planes, ?group⟩
  case count =>
    have hcount := h.count
    simp only [BitVec.toNat_add, BitVec.toNat_ofNat, hlen]
    omega
  case groups => rw [hlen, hdiv]; exact h.groups
  case pending => rw [hlen, hmod, ← hpend]; exact toNat_ecnt_succ hopen
  case planes => rw [hlen, hdiv]; exact h.planesHold_append c
  case group =>
    intro k
    rw [hlen, hdiv, hmod, show 8 - (message.length % 8 + 1) = 7 - message.length % 8 by omega]
    exact h.shiftIn_get c k

/-- The character that completes a group stores it and leaves nothing pending (R134). -/
theorem Packing.complete {message : List Byte} {s : State} (h : Packing message s) (c : Byte) (hlt : message.length < s.maxN)
    (hfull : s.ecnt = 7#3) :
    Packing (message ++ [c])
      { s with
        acc := emptyAcc, ecnt := 0#3, n := s.n + 1#20, nbyte := s.nbyte + 1#16,
        plane := Memory.writeGroup s.nbyte.toNat (shiftIn s.acc (planeBits c s.mode)) planeIndices s.plane } := by
  have hpend := h.pending
  have hmax := h.bound.1
  have hgroups := h.groups
  have hseven : message.length % 8 = 7 := by rw [← hpend, hfull]; rfl
  have hlen : (message ++ [c]).length = message.length + 1 := by simp
  have hdiv : (message.length + 1) / 8 = message.length / 8 + 1 := by omega
  have hmod : (message.length + 1) % 8 = 0 := by omega
  refine ⟨h.phase, ⟨hmax, by simpa using hlt⟩, ?count, ?groups, ?pending, ?planes, ?group⟩
  case count =>
    have hcount := h.count
    simp only [BitVec.toNat_add, BitVec.toNat_ofNat, hlen]
    omega
  case groups =>
    simp only [BitVec.toNat_add, BitVec.toNat_ofNat, hlen]
    omega
  case pending => rw [hlen, hmod]; rfl
  case planes =>
    rw [hlen, hdiv]
    intro k pos hpos
    rcases Nat.lt_succ_iff_lt_or_eq.1 hpos with hpos | rfl
    · rw [readPlane_writeGroup_of_lt (s := s) rfl s.nbyte.isLt (by omega)]
      exact h.planesHold_append c k pos hpos
    · rw [← hgroups, readPlane_writeGroup_self (s := s) rfl, h.shiftIn_get c k, hseven, hgroups]
      rfl
  case group =>
    intro k
    rw [hlen, hmod, Nat.sub_zero, BitVec.ushiftRight_eq_zero (Nat.le_refl 8)]
    exact emptyAcc_get k

end Safety

open Machine Safety

/-- Settles O34: the character either joins the pending group or completes it, and both keep the layout of R131. -/
theorem encCharExtendsPacking : Obligations.EncCharExtendsPacking := by
  intro s message c h hlt
  have hgate : s.phase ∈ gatePhases (.encChar c) := by simp [gatePhases, h.phase]
  have hn : s.n.toNat ≠ s.maxN := by rw [h.count]; omega
  by_cases hfull : s.ecnt = 7#3
  · have hroom : s.nbyte.toNat < planeBytes s := by
      have hpend : s.ecnt.toNat = 7 := by rw [hfull]; rfl
      have hmod := h.pending
      rw [h.groups, planeBytes_eq]
      omega
    exact ⟨_, exec_of_ownEffect hgate ⟨hn, .inr ⟨hfull, hroom, rfl⟩⟩, h.complete c hlt hfull, rfl⟩
  · exact ⟨_, exec_of_ownEffect hgate ⟨hn, .inl ⟨hfull, rfl⟩⟩, h.join c hlt hfull, rfl⟩

end Sys2Proof
end

section
/-! PROOFS. What every step keeps (10_state.md R20 to R36): one principle for a property that a fault entry, a reset and each
command's own effect keep, then the invariant and the canonical memory as two uses of it. -/

namespace Sys2Proof

namespace Machine

/-- A property that does not read the host's list and that resets, fault entries and the commands' own effects keep is kept by
every step. -/
theorem step_keeps {P : State → Prop} (hport : ∀ s rest, P s → P { s with port := rest })
    (hreset : ∀ s, P s → P (resetRegisters s)) (hfault : ∀ s code, code ≠ .none → P s → P (raiseFault code s))
    (heffect : ∀ i s t, s.phase ∈ gatePhases i → ownEffect i s t → P s → P t) {s t : State} (hs : P s)
    (h : step s = .next t) : P t := by
  rcases step_next_cases h with ⟨-, rfl⟩ | ⟨rest, -, rfl⟩ | ⟨w, rest, -, ⟨i, -, hexec⟩ | ⟨e, -, rfl⟩⟩
  case inl => exact hs
  case inr.inl => exact hreset _ (hport s rest hs)
  case inr.inr.inl =>
    rcases exec_next_cases hexec with ⟨-, rfl, -⟩ | ⟨-, code, hcode, rfl, -⟩ | ⟨hgate, heff⟩
    · exact hport s rest hs
    · exact hfault _ code hcode (hport s rest hs)
    · exact heffect i _ t hgate heff (hport s rest hs)
  case inr.inr.inr =>
    split
    · exact hport s rest hs
    · exact hfault _ _ (by decide) (hport s rest hs)

/-! The plane memory (R36, R52). -/

/-- A command leaves the plane memory, writes one byte, or writes one group. -/
theorem ownEffect_plane {i : Instr} {s t : State} (h : ownEffect i s t) :
    t.plane = s.plane ∨ (∃ a v, t.plane = s.plane.write a v) ∨
      ∃ pos bytes, t.plane = Memory.writeGroup pos bytes planeIndices s.plane := by
  cases i with
  | encChar c =>
    obtain ⟨-, ⟨-, rfl⟩ | ⟨-, -, rfl⟩⟩ := h
    · exact .inl rfl
    · exact .inr (.inr ⟨_, _, rfl⟩)
  | encEnd =>
    obtain ⟨-, rfl⟩ | ⟨-, -, rfl⟩ := h
    · exact .inl rfl
    · exact .inr (.inr ⟨_, _, rfl⟩)
  | planeWr k pos c =>
    obtain ⟨-, rfl⟩ := h
    exact .inr (.inl ⟨_, _, rfl⟩)
  | decBegin nbyte => obtain ⟨-, rfl⟩ := h; exact .inl rfl
  | decChar => obtain ⟨-, g, -, rfl⟩ := h; exact .inl rfl
  | planeRd k pos => obtain ⟨-, b, -, rfl⟩ := h; exact .inl rfl
  | nop => obtain rfl := h; exact .inl rfl
  | setMode m => obtain rfl := h; exact .inl rfl
  | encBegin => obtain rfl := h; exact .inl rfl
  | decEnd => obtain rfl := h; exact .inl rfl
  | hamEnc c => obtain rfl := h; exact .inl rfl
  | hamDec q c => obtain rfl := h; exact .inl rfl
  | clear => obtain rfl := h; exact .inl rfl

/-- A group write at a position inside the buffers lists only locations of R50. -/
theorem writeGroup_inBounds {m : Memory} {pos bound : Nat} {bytes : Vector Byte 12} (hpos : pos < bound) (hbound : bound < 65536)
    (h : ∀ x ∈ m, x.1 / 65536 < 12 ∧ x.1 % 65536 < bound) :
    ∀ x ∈ Memory.writeGroup pos bytes planeIndices m, x.1 / 65536 < 12 ∧ x.1 % 65536 < bound := by
  intro x hx
  rcases mem_writeGroup hx with ⟨k, -, hk⟩ | hx
  · rw [hk, planeAddr_div (by omega), planeAddr_mod (by omega)]
    exact ⟨k.isLt, hpos⟩
  · exact h x hx

/-! The accumulators (R30, R134). -/

/-- Shifting one bit into an accumulator of e bits leaves e + 1 bits. -/
theorem toNat_shiftIn_lt {a : Byte} {e : Nat} (h : a.toNat < 2 ^ e) (b : Bool) :
    ((a <<< 1) ||| (BitVec.ofBool b).setWidth 8).toNat < 2 ^ (e + 1) := by
  have hpow : 2 ^ (e + 1) = 2 * 2 ^ e := by rw [Nat.pow_succ, Nat.mul_comm]
  rw [BitVec.toNat_or]
  refine Nat.or_lt_two_pow ?shifted ?joined
  case shifted =>
    rw [BitVec.toNat_shiftLeft, Nat.shiftLeft_eq]
    exact (Nat.mod_le _ _).trans_lt (by omega)
  case joined =>
    have hone : ((BitVec.ofBool b).setWidth 8).toNat ≤ 1 := by cases b <;> decide
    omega

/-! DEC_BEGIN's operand check (R153). -/

/-- A length that passes the check is between 1 and B. -/
theorem lengthFault_eq_none {s : State} {nbyte : BitVec 16} :
    lengthFault s nbyte = .none ↔ nbyte ≠ 0#16 ∧ nbyte.toNat ≤ planeBytes s := by
  unfold lengthFault
  split
  · simp_all
  · split <;> simp_all

/-! The fields of RES (R23, R27). -/

/-- RES[31:21] reads 0, RERRS counts the checks RFAIL marks, and RFLAG is 1 exactly for 1, 3 or 4 of them: what the invariant
says of RES. -/
def ResAgrees (v : BitVec 32) : Prop :=
  v.extractLsb' 21 11 = 0#11 ∧ (v.extractLsb' 16 3).toNat = popcount (v.extractLsb' 12 4) ∧
    (v.getLsbD 19 = true ↔ (v.extractLsb' 16 3).toNat ∈ [1, 3, 4])

theorem popcount_le {w : Nat} (v : BitVec w) : popcount v ≤ w := by
  simpa [popcount] using List.countP_le_length (p := v.getLsbD) (l := List.range w)

theorem flaggedBy_iff (errors : Nat) : flaggedBy errors = true ↔ errors ∈ [1, 3, 4] := by
  simp [flaggedBy, or_assoc]

/-- A packed result agrees when its count and its flag are those of its failing checks. -/
theorem resAgrees_packRes (print : Bool) (fail quad : Quad) (byte : Byte) :
    ResAgrees (packRes print (flaggedBy (popcount fail)) (popcount fail) fail quad byte) := by
  obtain ⟨-, -, hfail, herrs, hflag, -, hhigh⟩ :=
    packRes_fields print (flaggedBy (popcount fail)) (popcount fail) fail quad byte
  have hcount : (BitVec.ofNat 3 (popcount fail)).toNat = popcount fail := by
    have := popcount_le fail
    rw [BitVec.toNat_ofNat]
    omega
  exact ⟨hhigh, by rw [herrs, hfail, hcount], by rw [hflag, herrs, hcount, flaggedBy_iff]⟩

theorem resAgrees_encodedRes (c : Byte) (m : Parity) : ResAgrees (encodedRes c m) := resAgrees_packRes _ 0#4 _ _

theorem resAgrees_decodedRes (c : Byte) (q : Quad) (m : Parity) : ResAgrees (decodedRes (correct c q m) q) :=
  resAgrees_packRes _ (failMask c q m) _ _

/-- PLANE_RD's result is a packed one with every field but RBYTE 0 (R171). -/
theorem byteRes_eq_packRes (b : Byte) : byteRes b = packRes false false 0 0#4 0#4 b := by
  refine BitVec.eq_of_getLsbD_eq fun i hi => ?_
  rw [getLsbD_packRes, byteRes, BitVec.getLsbD_setWidth]
  by_cases h : i < 8
  · simp [h, hi]
  · simp [h, BitVec.getLsbD_of_ge b i (by omega)]

theorem resAgrees_byteRes (b : Byte) : ResAgrees (byteRes b) := byteRes_eq_packRes b ▸ resAgrees_packRes false 0#4 0#4 b

theorem resAgrees_zero : ResAgrees 0#32 := by unfold ResAgrees; decide

end Machine

namespace Safety

open Machine

variable {s : State}

/-! ### What the invariant says at once -/

theorem Invariant.err_none (h : Invariant s) (hp : s.phase ≠ .fault) : s.err = .none := h.errPhase.2 hp

theorem Invariant.planeBytes_lt (h : Invariant s) : planeBytes s < 65536 := Machine.planeBytes_lt h.param.2

/-- A pending group has room in the buffers (R52, R134). -/
theorem Invariant.nbyte_lt_of_pending (h : Invariant s) (hp : s.phase = .encoding) (he : s.ecnt ≠ 0#3) :
    s.nbyte.toNat < planeBytes s := by
  have hpos : s.ecnt.toNat ≠ 0 := fun heq => he (BitVec.eq_of_toNat_eq heq)
  have hcount := h.encCount hp
  have hbound := h.nBound
  rw [planeBytes_eq]
  omega

/-- N counts on without wrapping: its limit is below the greatest 20-bit value (R22). -/
theorem Invariant.toNat_n_succ (h : Invariant s) : (s.n + 1#20).toNat = s.n.toNat + 1 := by
  have hbound := h.nBound
  have hmax := h.param.2
  rw [BitVec.toNat_add, BitVec.toNat_ofNat]
  omega

/-- NBYTE counts on without wrapping below B (R33). -/
theorem Invariant.toNat_nbyte_succ (h : Invariant s) (hroom : s.nbyte.toNat < planeBytes s) :
    (s.nbyte + 1#16).toNat = s.nbyte.toNat + 1 := by
  have hlt := h.planeBytes_lt
  rw [BitVec.toNat_add, BitVec.toNat_ofNat]
  omega

/-- DPOS counts on without wrapping inside a pass (R22). -/
theorem Invariant.toNat_dpos_succ (h : Invariant s) (hp : s.phase = .decoding) (hd : s.dpos.toNat ≠ 8 * s.nbyte.toNat) :
    (s.dpos + 1#20).toNat = s.dpos.toNat + 1 ∧ s.dpos.toNat + 1 ≤ 8 * s.nbyte.toNat := by
  have hpos := (h.decPos hp).2
  have hlt := s.nbyte.isLt
  rw [BitVec.toNat_add, BitVec.toNat_ofNat]
  omega

/-- Storing a group at NBYTE leaves the bytes up to and with NBYTE written (R134, R136). -/
theorem Invariant.written_writeGroup (h : Invariant s) (hp : s.phase = .encoding) {t : State} {bytes : Vector Byte 12}
    (ht : t.plane = Memory.writeGroup s.nbyte.toNat bytes planeIndices s.plane) (k : Fin 12) {pos : Nat}
    (hpos : pos < s.nbyte.toNat + 1) : (readPlane t k.val pos).isSome := by
  rcases Nat.lt_succ_iff_lt_or_eq.1 hpos with hlt | rfl
  · rw [readPlane_writeGroup_of_lt ht s.nbyte.isLt hlt]
    exact h.encWritten hp k pos hlt
  · simp [readPlane_writeGroup_self ht k]

/-! ### What keeps the invariant -/

theorem Invariant.setPort (h : Invariant s) (rest : List HostEvent) : Invariant { s with port := rest } :=
  { h with }

theorem Invariant.raiseFault (h : Invariant s) {code : ErrCode} (hcode : code ≠ .none) :
    Invariant (raiseFault code s) :=
  { h with
    encCount := nofun
    encAcc := nofun
    encWritten := nofun
    groupEmpty := nofun
    decPos := nofun
    errPhase := by simpa using hcode }

theorem Invariant.resetRegisters (h : Invariant s) : Invariant (resetRegisters s) :=
  { h with
    nBound := Nat.zero_le _
    nbyteBound := Nat.zero_le _
    dposBound := Nat.zero_le _
    encCount := nofun
    encAcc := nofun
    encWritten := nofun
    groupEmpty := fun _ => ⟨rfl, by simp⟩
    decPos := nofun
    errPhase := by simp
    resHigh := resAgrees_zero.1
    resErrs := resAgrees_zero.2.1
    resFlag := resAgrees_zero.2.2 }

theorem Invariant.setMode (h : Invariant s) (m : Parity) : Invariant (setMode m s) := { h with }

theorem Invariant.setRes (h : Invariant s) {v : BitVec 32} (hv : ResAgrees v) : Invariant (setRes v s) :=
  { h with
    resHigh := hv.1
    resErrs := hv.2.1
    resFlag := hv.2.2 }

theorem Invariant.writePlane (h : Invariant s) (hp : s.phase = .idle) {k pos : Nat} (hk : k < 12) (hpos : pos < planeBytes s)
    (v : Byte) : Invariant (writePlane k pos v s) :=
  { h with
    memWf := write_wf _ v h.memWf
    memIn := by
      have hlt := h.planeBytes_lt
      intro x hx
      rcases mem_write hx with rfl | hx
      · rw [planeAddr_div (by omega), planeAddr_mod (by omega)]
        exact ⟨hk, hpos⟩
      · exact h.memIn x hx
    encWritten := fun henc => nomatch hp.symm.trans henc }

theorem Invariant.beginEncode (h : Invariant s) (hp : s.phase = .idle) : Invariant (beginEncode s) :=
  { h with
    nBound := Nat.zero_le _
    nbyteBound := Nat.zero_le _
    encCount := fun _ => rfl
    encAcc := fun _ k => by rw [beginEncode_acc, emptyAcc_get]; exact Nat.two_pow_pos _
    encWritten := fun _ k pos hpos => absurd hpos (Nat.not_lt_zero pos)
    groupEmpty := nofun
    decPos := nofun
    errPhase := by simp [h.err_none (by simp [hp])] }

/-- The character joins a group it does not complete (R134). -/
theorem Invariant.joinGroup (h : Invariant s) (hp : s.phase = .encoding) (hn : s.n.toNat ≠ s.maxN) (hopen : s.ecnt ≠ 7#3)
    (g : Vector Bool 12) :
    Invariant { s with acc := shiftIn s.acc g, n := s.n + 1#20, ecnt := s.ecnt + 1#3 } := by
  have hn' := h.toNat_n_succ
  have he' := toNat_ecnt_succ hopen
  have hbound := h.nBound
  exact
    { h with
      nBound := by simp only [hn']; omega
      encCount := fun _ => by
        have hcount := h.encCount hp
        simp only [hn', he']
        omega
      encAcc := fun _ k => by
        simp only [he', Machine.shiftIn_get]
        exact toNat_shiftIn_lt (h.encAcc hp k) g[k]
      groupEmpty := by simp [hp] }

/-- The character completes a group, which is stored (R134). -/
theorem Invariant.completeGroup (h : Invariant s) (hp : s.phase = .encoding) (hn : s.n.toNat ≠ s.maxN) (hfull : s.ecnt = 7#3)
    (hroom : s.nbyte.toNat < planeBytes s) (bytes : Vector Byte 12) :
    Invariant { s with
      acc := emptyAcc, ecnt := 0#3, n := s.n + 1#20, nbyte := s.nbyte + 1#16,
      plane := Memory.writeGroup s.nbyte.toNat bytes planeIndices s.plane } := by
  have hn' := h.toNat_n_succ
  have hb' := h.toNat_nbyte_succ hroom
  have hbound := h.nBound
  exact
    { h with
      memWf := writeGroup_wf _ _ _ h.memWf
      memIn := writeGroup_inBounds hroom h.planeBytes_lt h.memIn
      nBound := by simp only [hn']; omega
      nbyteBound := hb'.trans_le hroom
      encCount := fun _ => by
        have hcount := h.encCount hp
        have hseven : s.ecnt.toNat = 7 := by rw [hfull]; rfl
        simp only [hn', hb', BitVec.toNat_ofNat]
        omega
      encAcc := fun _ k => by rw [emptyAcc_get]; exact Nat.two_pow_pos _
      encWritten := fun _ k pos hpos => h.written_writeGroup hp rfl k (hpos.trans_eq hb')
      groupEmpty := by simp [hp]
      decPos := by simp [hp] }

/-- ENC_END with nothing pending (R135). -/
theorem Invariant.endWhole (h : Invariant s) (hp : s.phase = .encoding) :
    Invariant { s with acc := emptyAcc, ecnt := 0#3, phase := .idle } :=
  { h with
    encCount := nofun
    encAcc := nofun
    encWritten := nofun
    groupEmpty := fun _ => ⟨rfl, emptyAcc_get⟩
    decPos := nofun
    errPhase := by simp [h.err_none (by simp [hp])] }

/-- ENC_END with a pending group, which is stored (R135). -/
theorem Invariant.endPartial (h : Invariant s) (hp : s.phase = .encoding) (hroom : s.nbyte.toNat < planeBytes s)
    (bytes : Vector Byte 12) :
    Invariant { s with
      acc := emptyAcc, ecnt := 0#3, phase := .idle, nbyte := s.nbyte + 1#16,
      plane := Memory.writeGroup s.nbyte.toNat bytes planeIndices s.plane } :=
  { h.endWhole hp with
    memWf := writeGroup_wf _ _ _ h.memWf
    memIn := writeGroup_inBounds hroom h.planeBytes_lt h.memIn
    nbyteBound := (h.toNat_nbyte_succ hroom).trans_le hroom
    encCount := nofun
    encWritten := nofun
    decPos := nofun }

theorem Invariant.beginDecode (h : Invariant s) (hp : s.phase = .idle) {nbyte : BitVec 16} (hpos : nbyte ≠ 0#16)
    (hbound : nbyte.toNat ≤ planeBytes s) : Invariant (beginDecode nbyte s) :=
  { h with
    nbyteBound := hbound
    dposBound := Nat.zero_le _
    encCount := nofun
    encAcc := nofun
    encWritten := nofun
    groupEmpty := fun _ => h.groupEmpty (.inl hp)
    decPos := fun _ => ⟨Nat.one_le_iff_ne_zero.2 fun heq => hpos (BitVec.eq_of_toNat_eq heq), Nat.zero_le _⟩
    errPhase := by simp [h.err_none (by simp [hp])] }

/-- A decoded slot writes an agreeing result and moves on inside the pass (R154). -/
theorem Invariant.deliverSlot (h : Invariant s) (hp : s.phase = .decoding) (hd : s.dpos.toNat ≠ 8 * s.nbyte.toNat)
    (g : Vector Bool 12) : Invariant (deliverSlot g s) := by
  obtain ⟨hsucc, hle⟩ := h.toNat_dpos_succ hp hd
  exact
    { h.setRes (resAgrees_decodedRes (slotByte g) (slotQuad g) s.mode) with
      dposBound := hsucc.trans_le (hle.trans (Nat.mul_le_mul_left 8 h.nbyteBound))
      decPos := fun _ => ⟨(h.decPos hp).1, hsucc.trans_le hle⟩ }

theorem Invariant.endDecode (h : Invariant s) (hp : s.phase = .decoding) : Invariant (endDecode s) :=
  { h with
    encCount := nofun
    encAcc := nofun
    encWritten := nofun
    groupEmpty := fun _ => h.groupEmpty (.inr hp)
    decPos := nofun
    errPhase := by simp [h.err_none (by simp [hp])] }

/-- Each command's own effect keeps the invariant. -/
theorem Invariant.ownEffect (h : Invariant s) {i : Instr} {t : State} (hgate : s.phase ∈ gatePhases i)
    (heff : ownEffect i s t) : Invariant t := by
  cases i with
  | nop => obtain rfl := heff; exact h
  | setMode m => obtain rfl := heff; exact h.setMode m
  | encBegin => obtain rfl := heff; exact h.beginEncode (List.mem_singleton.1 hgate)
  | encChar c =>
    have hp : s.phase = .encoding := List.mem_singleton.1 hgate
    obtain ⟨hn, ⟨hopen, rfl⟩ | ⟨hfull, hroom, rfl⟩⟩ := heff
    · exact h.joinGroup hp hn hopen _
    · exact h.completeGroup hp hn hfull hroom _
  | encEnd =>
    have hp : s.phase = .encoding := List.mem_singleton.1 hgate
    obtain ⟨-, rfl⟩ | ⟨-, hroom, rfl⟩ := heff
    · exact h.endWhole hp
    · exact h.endPartial hp hroom _
  | decBegin nbyte =>
    obtain ⟨hlength, rfl⟩ := heff
    obtain ⟨hpos, hbound⟩ := lengthFault_eq_none.1 hlength
    exact h.beginDecode (List.mem_singleton.1 hgate) hpos hbound
  | decChar =>
    obtain ⟨hd, g, -, rfl⟩ := heff
    exact h.deliverSlot (List.mem_singleton.1 hgate) hd g
  | decEnd => obtain rfl := heff; exact h.endDecode (List.mem_singleton.1 hgate)
  | hamEnc c => obtain rfl := heff; exact h.setRes (resAgrees_encodedRes c s.mode)
  | hamDec q c => obtain rfl := heff; exact h.setRes (resAgrees_decodedRes c q s.mode)
  | planeWr k pos c =>
    obtain ⟨hrange, rfl⟩ := heff
    obtain ⟨hk, hpos⟩ := locationInRange_iff.1 hrange
    exact h.writePlane (List.mem_singleton.1 hgate) hk (hpos.trans_eq (planeBytes_eq s).symm) c
  | planeRd k pos =>
    obtain ⟨-, b, -, rfl⟩ := heff
    exact h.setRes (resAgrees_byteRes b)
  | clear => obtain rfl := heff; exact h.resetRegisters

end Safety

open Machine Safety

/-- Settles O54: a change of the host's list, a reset, a fault entry and each command's own effect keep the invariant. -/
theorem stepKeepsInvariant : Obligations.StepKeepsInvariant := fun _ _ h hstep =>
  step_keeps (fun _ rest h => h.setPort rest) (fun _ h => h.resetRegisters) (fun _ _ hcode h => h.raiseFault hcode)
    (fun _ _ _ hgate heff h => h.ownEffect hgate heff) h hstep

/-- Settles O55: of all that a step can do only the writes of one byte and of one group change the memory, and both keep its
canonical form. -/
theorem stepKeepsMemoryCanonical : Obligations.StepKeepsMemoryCanonical := by
  intro s t hwf hstep
  refine step_keeps (P := fun u => Memory.wf u.plane) (fun _ _ h => h) (fun _ h => h) (fun _ _ _ h => h) ?_ hwf hstep
  intro i u v _ heff hu
  rcases ownEffect_plane heff with hv | ⟨a, b, hv⟩ | ⟨pos, bytes, hv⟩ <;> rw [hv]
  · exact hu
  · exact write_wf a b hu
  · exact writeGroup_wf pos bytes planeIndices hu

end Sys2Proof
end

section
/-! PROOFS. The registers (10_state.md R20 to R31): what each command leaves as it was, who writes RES and FLAG_ANY, how N and
DPOS move, and what ENC_END leaves. -/

namespace Sys2Proof

open Machine Safety

namespace Machine

variable {i : Instr} {s t : State}

/-- Where a command has no effect of its own, at most PHASE and ERR differ (R194, R195). -/
theorem exec_next_cases_of_registers (h : exec i s = .next t) :
    (∃ p e, t = { s with phase := p, err := e }) ∨ (s.phase ∈ gatePhases i ∧ ownEffect i s t) := by
  rcases exec_next_cases h with ⟨-, rfl, -⟩ | ⟨-, code, -, rfl, -⟩ | heff
  · exact .inl ⟨t.phase, t.err, rfl⟩
  · exact .inl ⟨.fault, code, rfl⟩
  · exact .inr heff

/-- In ENCODING an ENC_END that answers has its own effect: it has no operand to check (R135, R191). -/
theorem exec_encEnd_eq_next (hp : s.phase = .encoding) : exec .encEnd s = .next t ↔ ownEffect .encEnd s t := by
  change inPhases [.encoding] s (finishEncode s) = .next t ↔ _
  rw [inPhases_of_mem (by simp [hp]) (by simp [hp]), finishEncode_eq_next]

/-! A decoded slot (R154). -/

/-- RES.RFLAG after a decoded byte is the decoder's flag (R27, R113). -/
theorem decodedRes_flag (r : Corrected) (q : Quad) : (decodedRes r q).getLsbD 19 = r.flagged := by
  obtain ⟨-, -, -, -, hflag, -⟩ := packRes_fields (printable r.byte) r.flagged r.errors r.fail q r.byte
  exact hflag

/-- DEC_CHAR joins the flag that it writes to RES to FLAG_ANY (R24). -/
theorem deliverSlot_flagAny (g : Vector Bool 12) (s : State) :
    (deliverSlot g s).flagAny = (s.flagAny || (deliverSlot g s).res.getLsbD 19) := by
  simp only [deliverSlot, nextSlot_flagAny, nextSlot_res, stickyFlag_flagAny, stickyFlag_res, setRes_flagAny, setRes_res,
    decodedRes_flag]

end Machine

/-- Settles O47: fault entry writes only PHASE and ERR, and each command's own effect only the registers of its rule. -/
theorem registerFrame : Obligations.RegisterFrame := by
  intro i s t hexec hclear
  rcases exec_next_cases hexec with ⟨-, rfl, -⟩ | ⟨hp, code, -, rfl, -⟩ | ⟨-, heff⟩
  · simp
  · simp [hp]
  cases i with
  | nop => obtain rfl := heff; simp
  | setMode m => obtain rfl := heff; simp
  | encBegin => obtain rfl := heff; simp
  | encChar c => obtain ⟨-, ⟨-, rfl⟩ | ⟨-, -, rfl⟩⟩ := heff <;> simp
  | encEnd => obtain ⟨-, rfl⟩ | ⟨-, -, rfl⟩ := heff <;> simp
  | decBegin nbyte => obtain ⟨-, rfl⟩ := heff; simp
  | decChar => obtain ⟨-, g, -, rfl⟩ := heff; simp [deliverSlot]
  | decEnd => obtain rfl := heff; simp
  | hamEnc c => obtain rfl := heff; simp
  | hamDec q c => obtain rfl := heff; simp
  | planeWr k pos c => obtain ⟨-, rfl⟩ := heff; simp
  | planeRd k pos => obtain ⟨-, b, -, rfl⟩ := heff; simp
  | clear => exact absurd rfl hclear

/-- Settles O44: the register frame leaves RES to four commands and CLEAR. -/
theorem resHasFourWriters : Obligations.ResHasFourWriters := by
  refine ⟨fun i s t hexec => ?command, fun s t rest hport hstep => ?reset⟩
  case command =>
    cases i with
    | hamEnc c => exact .inr (.inl ⟨c, rfl⟩)
    | hamDec q c => exact .inr (.inr (.inl ⟨q, c, rfl⟩))
    | decChar => exact .inr (.inr (.inr (.inl rfl)))
    | planeRd k pos => exact .inr (.inr (.inr (.inr (.inl ⟨k, pos, rfl⟩))))
    | clear =>
      obtain rfl : resetRegisters s = t := by simpa using hexec
      exact .inr (.inr (.inr (.inr (.inr ⟨rfl, rfl⟩))))
    | _ =>
      obtain ⟨-, -, -, -, -, -, hres, -⟩ := registerFrame _ s t hexec (by simp)
      exact .inl (hres (by simp) (by simp) (by simp) (by simp))
  case reset =>
    obtain rfl : resetRegisters (popEvent s) = t := by simpa [step_of_reset hport] using hstep
    rfl

/-- Settles O49: a counter that moves is below its limit, so it neither passes it nor wraps. -/
theorem countersAdvanceByOne : Obligations.CountersAdvanceByOne := by
  intro i s t h hexec
  rcases exec_next_cases_of_registers hexec with ⟨p, e, rfl⟩ | ⟨hgate, heff⟩
  case inl => exact ⟨.inl rfl, .inl rfl⟩
  cases i with
  | encBegin => obtain rfl := heff; exact ⟨.inr (.inl ⟨.inl rfl, rfl⟩), .inl rfl⟩
  | clear => obtain rfl := heff; exact ⟨.inr (.inl ⟨.inr rfl, rfl⟩), .inr (.inl ⟨.inl rfl, rfl⟩)⟩
  | encChar c =>
    obtain ⟨hn, heff⟩ := heff
    have hle : s.n.toNat + 1 ≤ s.maxN := Nat.lt_of_le_of_ne h.nBound hn
    obtain ⟨htn, htd⟩ : t.n = s.n + 1#20 ∧ t.dpos = s.dpos := by
      obtain ⟨-, rfl⟩ | ⟨-, -, rfl⟩ := heff <;> exact ⟨rfl, rfl⟩
    rw [htn, h.toNat_n_succ]
    exact ⟨.inr (.inr ⟨⟨c, rfl⟩, rfl, hle⟩), .inl htd⟩
  | decBegin nbyte => obtain ⟨-, rfl⟩ := heff; exact ⟨.inl rfl, .inr (.inl ⟨.inr ⟨nbyte, rfl⟩, rfl⟩)⟩
  | decChar =>
    obtain ⟨hd, g, -, rfl⟩ := heff
    obtain ⟨hsucc, hle⟩ := h.toNat_dpos_succ (List.mem_singleton.1 hgate) hd
    exact ⟨.inl rfl, .inr (.inr ⟨rfl, hsucc, hsucc.trans_le hle⟩)⟩
  | _ =>
    obtain ⟨-, -, -, hn, -, hdpos, -⟩ := registerFrame _ s t hexec (by simp)
    exact ⟨.inl (hn (by simp) (by simp)), .inl (hdpos (by simp) (by simp)).1⟩

/-- Settles O36: the invariant counts what is packed, and the pending group, if there is one, is stored as one more byte. -/
theorem encEndLeavesWholeBytes : Obligations.EncEndLeavesWholeBytes := by
  intro s t h hp hexec
  have hcount := h.encCount hp
  have hlt := s.ecnt.isLt
  obtain ⟨hzero, rfl⟩ | ⟨hpend, hroom, rfl⟩ := (exec_encEnd_eq_next hp).1 hexec
  · have he : s.ecnt.toNat = 0 := by rw [hzero]; rfl
    exact ⟨rfl, rfl, by simp only; omega, rfl, emptyAcc_get, h.encWritten hp⟩
  · have he : s.ecnt.toNat ≠ 0 := fun heq => hpend (BitVec.eq_of_toNat_eq heq)
    have hb := h.toNat_nbyte_succ hroom
    exact ⟨rfl, rfl, by simp only [hb]; omega, rfl, emptyAcc_get,
      fun k pos hpos => h.written_writeGroup hp rfl k (hpos.trans_eq hb)⟩

end Sys2Proof
end

section
/-! PROOFS. The read port (10_state.md R26 to R29): the fields of STATUS, the map of the 32 addresses, the constant registers,
and FLAG_ANY as the host sees it. -/

namespace Sys2Proof

open Machine Safety

namespace Machine

/-! The named values as bits (R20, R190). -/

theorem modeBit_eq_true {m : Parity} : modeBit m = true ↔ m = .odd := by cases m <;> decide

theorem phaseBits_inj {p q : Phase} : phaseBits p = phaseBits q ↔ p = q := by cases p <;> cases q <;> decide

theorem errBits_toNat_inj {e e' : ErrCode} : (errBits e).toNat = (errBits e').toNat ↔ e = e' := by
  cases e <;> cases e' <;> decide

theorem errBits_toNat_le (e : ErrCode) : (errBits e).toNat ≤ 6 := by cases e <;> decide

/-! The fields of STATUS (R26). -/

/-- The bits of STATUS, field by field. -/
theorem getLsbD_statusWord (s : State) (i : Nat) :
    (statusWord s).getLsbD i =
      if i < 2 then (phaseBits s.phase).getLsbD i else if i < 3 then modeBit s.mode else if i < 4 then s.flagAny
      else (errBits s.err).getLsbD (i - 4) := by
  change BitVec.getLsbD (0#24 ++ errBits s.err ++ BitVec.ofBool s.flagAny ++ BitVec.ofBool (modeBit s.mode) ++
    phaseBits s.phase) i = _
  simp only [BitVec.getLsbD_append, BitVec.getLsbD_zero, BitVec.getLsbD_ofBool]
  have hmode : i - 2 < 1 ↔ i < 3 := by omega
  have hflag : i - 2 - 1 < 1 ↔ i < 4 := by omega
  simp only [hmode, hflag]
  by_cases hphase : i < 2
  · simp only [hphase, if_true]
  by_cases hi : i < 3
  · simp [hphase, hi, show i - 2 = 0 by omega]
  by_cases hi' : i < 4
  · simp [hphase, hi, hi', show i - 2 - 1 = 0 by omega]
  · simp only [hphase, hi, hi', if_false, show i - 2 - 1 - 1 = i - 4 by omega]
    split
    · rfl
    · exact (BitVec.getLsbD_of_ge _ _ (by omega)).symm

theorem statusWord_phase (s : State) : (statusWord s).extractLsb' 0 2 = phaseBits s.phase := by
  refine BitVec.eq_of_getLsbD_eq fun i hi => ?_
  simp [getLsbD_statusWord, hi]

theorem statusWord_mode (s : State) : (statusWord s).getLsbD 2 = modeBit s.mode := getLsbD_statusWord s 2

theorem statusWord_flagAny (s : State) : (statusWord s).getLsbD 3 = s.flagAny := getLsbD_statusWord s 3

theorem statusWord_err (s : State) : (statusWord s).extractLsb' 4 4 = errBits s.err := by
  refine BitVec.eq_of_getLsbD_eq fun i hi => ?_
  simp [getLsbD_statusWord, hi, show ¬4 + i < 2 by omega, show ¬4 + i < 3 by omega]

theorem statusWord_high (s : State) : (statusWord s).extractLsb' 8 24 = 0#24 := by
  refine BitVec.eq_of_getLsbD_eq fun i hi => ?_
  simp [getLsbD_statusWord, show ¬8 + i < 2 by omega, show ¬8 + i < 3 by omega, show ¬8 + i < 4 by omega,
    BitVec.getLsbD_of_ge (errBits s.err) (8 + i - 4) (by omega)]

/-! The map of the read port (R29). -/

/-- From 0x08 on only the accumulators are mapped, at 0x10 and above (R29). -/
theorem readPort_of_eight_le (s : State) {a : BitVec 5} (h : 0x08 ≤ a.toNat) :
    readPort s a = if 0x10 ≤ a.toNat then ((s.acc[a.toNat - 0x10]?).getD 0#8).setWidth 32 else 0#32 := by
  unfold readPort
  split
  case h_9 => rfl
  all_goals omega

/-- MAXN and PBYTES are wired to MAX_N alone (R28). -/
theorem parameterWords_eq {s t : State} (h : t.maxN = s.maxN) : maxnWord t = maxnWord s ∧ pbytesWord t = pbytesWord s := by
  simp [maxnWord, pbytesWord, planeBytes, h]

/-- A command's own effect leaves the parameter (R28). -/
theorem ownEffect_maxN {i : Instr} {s t : State} (hgate : s.phase ∈ gatePhases i) (h : ownEffect i s t) : t.maxN = s.maxN := by
  by_cases hclear : i = .clear
  · subst hclear
    obtain rfl := h
    rfl
  · obtain ⟨-, -, -, -, -, -, -, hmaxN, -⟩ := registerFrame i s t (exec_of_ownEffect hgate h) hclear
    exact hmaxN

end Machine

/-- Settles O50: STATUS is its five fields, and each named value has bits of its own. -/
theorem statusFields : Obligations.StatusFields := by
  intro s
  simp only [readPort_status, statusWord_phase, statusWord_mode, statusWord_flagAny, statusWord_err, statusWord_high]
  refine ⟨phaseBits_inj.symm, phaseBits_inj.symm, phaseBits_inj.symm, phaseBits_inj.symm, modeBit_eq_true.symm, trivial, ?_⟩
  exact ⟨errBits_toNat_inj.symm, errBits_toNat_inj.symm, errBits_toNat_inj.symm, errBits_toNat_inj.symm,
    errBits_toNat_inj.symm, errBits_toNat_inj.symm, errBits_toNat_inj.symm, errBits_toNat_le s.err, trivial⟩

/-- Settles O51: the eight registers stand at their addresses, the accumulators from 0x10 on, and nothing at the others. -/
theorem readPortMap : Obligations.ReadPortMap := by
  intro s
  refine ⟨rfl, rfl, ?n, ?nbyte, ?dpos, ?ecnt, rfl, rfl, ?reserved, ?acc, ?beyond⟩
  case n => exact BitVec.toNat_setWidth_of_le (by decide)
  case nbyte => exact BitVec.toNat_setWidth_of_le (by decide)
  case dpos => exact BitVec.toNat_setWidth_of_le (by decide)
  case ecnt => exact BitVec.toNat_setWidth_of_le (by decide)
  case reserved =>
    intro a hlow hhigh
    rw [readPort_of_eight_le s hlow, if_neg (by omega)]
  case acc =>
    intro k
    have ha : (BitVec.ofNat 5 (0x10 + k.val)).toNat = 0x10 + k.val := by
      rw [BitVec.toNat_ofNat]
      omega
    rw [readPort_of_eight_le s (by omega), if_pos (by omega), ha, Nat.add_sub_cancel_left, BitVec.toNat_setWidth_of_le (by decide)]
    simp
  case beyond =>
    intro a ha
    rw [readPort_of_eight_le s (by omega), if_pos (by omega), Vector.getElem?_eq_none (by omega)]
    rfl

/-- Settles O52: MAXN and PBYTES are wired to the parameter, and nothing that a step can do changes it. -/
theorem parameterRegistersAreConstant : Obligations.ParameterRegistersAreConstant := by
  refine ⟨fun s _ hle => ⟨toNat_maxnWord hle, toNat_pbytesWord hle⟩, fun s t hstep => ?_⟩
  have hmaxN : t.maxN = s.maxN :=
    step_keeps (P := fun u => u.maxN = s.maxN) (fun _ _ h => h) (fun _ h => h) (fun _ _ _ h => h)
      (fun _ _ _ hgate heff h => (ownEffect_maxN hgate heff).trans h) rfl hstep
  exact ⟨hmaxN, parameterWords_eq hmaxN⟩

/-- Settles O43: the register frame leaves FLAG_ANY to four writers, and a decoded slot joins the flag of RES to it. -/
theorem flagAnyIsSticky : Obligations.FlagAnyIsSticky := by
  refine ⟨?writers, ?decChar, ?decBegin, ?clear, ?reset, statusWord_flagAny⟩
  case writers =>
    intro i s t hexec
    rcases exec_next_cases_of_registers hexec with ⟨p, e, rfl⟩ | ⟨-, heff⟩
    case inl => exact .inl rfl
    cases i with
    | decBegin nbyte => obtain ⟨-, rfl⟩ := heff; exact .inr (.inl ⟨⟨nbyte, rfl⟩, rfl⟩)
    | clear => obtain rfl := heff; exact .inr (.inr (.inl ⟨rfl, rfl⟩))
    | decChar =>
      obtain ⟨-, g, -, rfl⟩ := heff
      rw [deliverSlot_flagAny]
      cases hflag : (deliverSlot g s).res.getLsbD 19 with
      | false => exact .inl (Bool.or_false _)
      | true => exact .inr (.inr (.inr ⟨rfl, Bool.or_true _, rfl⟩))
    | _ =>
      obtain ⟨-, -, -, -, -, hdpos, -⟩ := registerFrame _ s t hexec (by simp)
      exact .inl (hdpos (by simp) (by simp)).2
  case decChar =>
    intro s t hs hexec ht
    rcases exec_next_cases hexec with ⟨hp, -⟩ | ⟨-, code, -, rfl, -⟩ | ⟨-, -, g, -, rfl⟩
    · exact nomatch hs.symm.trans hp
    · exact nomatch ht
    · exact deliverSlot_flagAny g s
  case decBegin =>
    intro s t nbyte hexec ht hs
    rcases exec_next_cases hexec with ⟨hp, -⟩ | ⟨-, code, -, rfl, -⟩ | ⟨-, -, rfl⟩
    · exact nomatch hs.symm.trans hp
    · exact nomatch ht
    · rfl
  case clear =>
    intro s t hexec
    obtain rfl : resetRegisters s = t := by simpa using hexec
    rfl
  case reset =>
    intro s t rest hport hstep
    obtain rfl : resetRegisters (popEvent s) = t := by simpa [step_of_reset hport] using hstep
    rfl

end Sys2Proof
end

section
/-! PROOFS. The stops (10_state.md R36, 20_memory.md R52): which word a stop comes from, and that the invariant leaves none but
the read of a byte that was never written. -/

namespace Sys2Proof

/-! The word of a decoded command (R73, R75). -/

theorem acceptIf_eq_ok {clean : Bool} {w : Word} {i j : Instr} : acceptIf clean w i = .ok j ↔ clean = true ∧ i = j := by
  cases clean <;> simp [acceptIf]

/-- A byte whose bits 7 to 1 are 0 is the byte of the mode in its bit 0 (R72). -/
theorem modeByte_of_dField {d : Byte} (h : d.extractLsb' 1 7 = 0#7) :
    modeByte (if d.getLsbD 0 then .odd else .even) = d := by
  have hd : d = d.extractLsb' 1 7 ++ BitVec.ofBool (d.getLsbD 0) := by
    refine BitVec.eq_of_getLsbD_eq fun i hi => ?_
    change d.getLsbD i = BitVec.getLsbD (d.extractLsb' 1 7 ++ BitVec.ofBool (d.getLsbD 0)) i
    rw [BitVec.getLsbD_append]
    cases i with
    | zero => simp
    | succ i => simp [show i < 7 by omega, Nat.add_comm 1 i]
  rw [h] at hd
  cases hbit : d.getLsbD 0 <;> rw [hbit] at hd <;> rw [hd] <;> rfl

/-- A word whose four fields are those of a packed word is that word (R71). -/
theorem packWord_eq {w : Word} {op k : BitVec 4} {pos : BitVec 16} {d : Byte} (hop : opField w = op) (hk : kField w = k)
    (hpos : posField w = pos) (hd : dField w = d) : packWord op k pos d = w := by
  rw [← hop, ← hk, ← hpos, ← hd, packWord_fields]

/-- A word that decodes is the word of its command: the reserved bits are 0 and every other bit is an operand's (R73, R75). -/
theorem encode_of_decode {w : Word} {i : Instr} (h : decode w = .ok i) : encode i = w := by
  unfold decode at h
  split at h
  all_goals
    rename_i hop
    simp only [formatZ, formatD, formatM, formatQD, formatL, formatKP, formatKPD, acceptIf_eq_ok, Except.ok.injEq,
      Bool.and_eq_true, beq_iff_eq, and_assoc, reduceCtorEq] at h
  case h_1 | h_3 | h_5 | h_7 | h_8 | h_13 =>
    obtain ⟨hk, hpos, hd, rfl⟩ := h
    exact packWord_eq (BitVec.eq_of_toNat_eq hop) hk hpos hd
  case h_4 | h_9 =>
    obtain ⟨hk, hpos, rfl⟩ := h
    exact packWord_eq (BitVec.eq_of_toNat_eq hop) hk hpos rfl
  case h_2 =>
    obtain ⟨hk, hpos, hd, rfl⟩ := h
    exact packWord_eq (BitVec.eq_of_toNat_eq hop) hk hpos (modeByte_of_dField hd).symm
  case h_6 =>
    obtain ⟨hk, hd, rfl⟩ := h
    exact packWord_eq (BitVec.eq_of_toNat_eq hop) hk rfl hd
  case h_10 =>
    obtain ⟨hpos, rfl⟩ := h
    exact packWord_eq (BitVec.eq_of_toNat_eq hop) rfl hpos rfl
  case h_11 =>
    obtain rfl := h
    exact packWord_eq (BitVec.eq_of_toNat_eq hop) rfl rfl rfl
  case h_12 =>
    obtain ⟨hd, rfl⟩ := h
    exact packWord_eq (BitVec.eq_of_toNat_eq hop) rfl rfl hd

namespace Machine

/-- A step stops only in a command that stops (R36). -/
theorem step_fault_cases {s : State} {f : Fault} (h : step s = .fault f) :
    ∃ w rest i, s.port = .command w :: rest ∧ decode w = .ok i ∧ exec i { s with port := rest } = .fault f := by
  unfold step nextEvent popEvent at h
  rcases hport : s.port with _ | ⟨w | _, rest⟩
  case nil => simp [hport] at h
  case cons.reset => simp [hport, hostReset] at h
  case cons.command =>
    simp only [hport, List.head?_cons, List.tail_cons] at h
    cases hdec : decode w with
    | ok i => exact ⟨w, rest, i, rfl, hdec, by simpa [hdec] using h⟩
    | error e => simp [hdec, illegalWord_eq] at h

end Machine

open Machine Safety

/-- A command that stops from a state that meets the invariant is PLANE_RD or DEC_CHAR, at a byte of the planes that was never
written (R36, R52). -/
theorem exec_fault_of_invariant {i : Instr} {s : State} {f : Fault} (h : Invariant s) (hexec : exec i s = .fault f) :
    ∃ k pos : Nat, f = .neverWritten k pos ∧ k < 12 ∧ pos < planeBytes s ∧ readPlane s k pos = none ∧
      (i = .decChar ∨ ∃ p : BitVec 16, i = .planeRd (BitVec.ofNat 4 k) p ∧ p.toNat = pos) := by
  obtain ⟨-, hgate, hstop⟩ := exec_fault_cases hexec
  rcases hstop with ⟨k, pos, rfl, hrange, hnone, rfl⟩ | ⟨rfl, hd, hread⟩ | ⟨⟨c, rfl⟩, -, hfull, hbeyond⟩ | ⟨rfl, hpend, hbeyond⟩
  case inl =>
    obtain ⟨hk, hpos⟩ := locationInRange_iff.1 hrange
    exact ⟨k.toNat, pos.toNat, rfl, hk, hpos.trans_eq (planeBytes_eq s).symm, hnone, .inr ⟨pos, by simp, rfl⟩⟩
  case inr.inl =>
    have hinside := (h.toNat_dpos_succ (List.mem_singleton.1 hgate) hd).2
    have hbound := h.nbyteBound
    rcases readGroup_eq_error hread with ⟨hpos, k, rfl, hnone⟩ | ⟨hbeyond, -⟩
    · exact ⟨k.val, s.dpos.toNat / 8, rfl, k.isLt, hpos, hnone, .inl rfl⟩
    · omega
  case inr.inr.inl =>
    have hroom := h.nbyte_lt_of_pending (List.mem_singleton.1 hgate) (by rw [hfull]; decide)
    omega
  case inr.inr.inr =>
    have hroom := h.nbyte_lt_of_pending (List.mem_singleton.1 hgate) hpend
    omega

/-- Settles O56: the stopping command is one of two, and a word that decodes to it is its word. -/
theorem onlyNeverWrittenReadsStop : Obligations.OnlyNeverWrittenReadsStop := by
  intro s f h hstep
  obtain ⟨w, rest, i, hport, hdec, hexec⟩ := step_fault_cases hstep
  obtain ⟨k, pos, hf, hk, hpos, hnone, hi⟩ := exec_fault_of_invariant (h.setPort rest) hexec
  refine ⟨k, pos, hf, hk, hpos.trans_eq (planeBytes_eq s), hnone, rest, ?_⟩
  rw [hport, ← encode_of_decode hdec]
  rcases hi with rfl | ⟨p, rfl, hp⟩
  · exact .inl rfl
  · exact .inr ⟨p, rfl, hp⟩

end Sys2Proof
end

section
/-! PROOFS. The plane memory as the commands use it (20_memory.md R55, R58, R62): the command a step runs, the one place where
each command may write, and the padding bits that ENC_END leaves. -/

namespace Sys2Proof

open Machine Safety

namespace Machine

variable {i : Instr} {s t : State}

/-! The host's next input (R62, R205). -/

/-- A word that decodes is taken and its command run (R62, R74). -/
theorem step_of_command {w : Word} {rest : List HostEvent} (h : s.port = .command w :: rest) (hdec : decode w = .ok i) :
    step s = exec i { s with port := rest } := by
  simp [step, nextEvent, popEvent, h, hdec]

/-- Between the host's inputs the block holds its state (R205). -/
theorem step_of_port_nil (h : s.port = []) : step s = .next s := by
  simp [step, nextEvent, h]

/-! Where a command writes (R58, R134, R135, R170). -/

/-- A command leaves the plane memory, or is PLANE_WR and writes its byte, or is ENC_CHAR or ENC_END and stores a group at NBYTE:
what `ownEffect_plane` says, with the command and its position. -/
theorem ownEffect_plane_cases (h : ownEffect i s t) :
    t.plane = s.plane ∨
      (∃ k pos c, i = .planeWr k pos c ∧ t.plane = s.plane.write (planeAddr k.toNat pos.toNat) c) ∨
      ((i = .encEnd ∨ ∃ c, i = .encChar c) ∧
        ∃ bytes, t.plane = Memory.writeGroup s.nbyte.toNat bytes planeIndices s.plane) := by
  cases i with
  | planeWr k pos c =>
    obtain ⟨-, rfl⟩ := h
    exact .inr (.inl ⟨k, pos, c, rfl, rfl⟩)
  | encChar c =>
    obtain ⟨-, ⟨-, rfl⟩ | ⟨-, -, rfl⟩⟩ := h
    · exact .inl rfl
    · exact .inr (.inr ⟨.inr ⟨c, rfl⟩, _, rfl⟩)
  | encEnd =>
    obtain ⟨-, rfl⟩ | ⟨-, -, rfl⟩ := h
    · exact .inl rfl
    · exact .inr (.inr ⟨.inl rfl, _, rfl⟩)
  | decBegin _ => obtain ⟨-, rfl⟩ := h; exact .inl rfl
  | decChar => obtain ⟨-, g, -, rfl⟩ := h; exact .inl rfl
  | planeRd _ _ => obtain ⟨-, b, -, rfl⟩ := h; exact .inl rfl
  | nop | setMode _ | encBegin | decEnd | hamEnc _ | hamDec _ _ | clear => obtain rfl := h; exact .inl rfl

/-- A command that answers leaves every plane byte but the one PLANE_WR writes and the twelve that ENC_CHAR or ENC_END stores. -/
theorem exec_byteAt_cases (h : exec i s = .next t) (a : Nat) :
    t.plane.byteAt a = s.plane.byteAt a ∨
      (∃ k pos c, i = .planeWr k pos c ∧ a = planeAddr k.toNat pos.toNat) ∨
      ((i = .encEnd ∨ ∃ c, i = .encChar c) ∧ ∃ k : Fin 12, a = planeAddr k.val s.nbyte.toNat) := by
  rcases exec_next_cases_of_registers h with ⟨p, e, rfl⟩ | ⟨-, heff⟩
  case inl => exact .inl rfl
  rcases ownEffect_plane_cases heff with hkeep | ⟨k, pos, c, hi, hwrite⟩ | ⟨hi, bytes, hstore⟩
  · exact .inl (congrArg (·.byteAt a) hkeep)
  · by_cases ha : a = planeAddr k.toNat pos.toNat
    · exact .inr (.inl ⟨k, pos, c, hi, ha⟩)
    · exact .inl (by rw [hwrite, byteAt_write_of_ne _ _ ha])
  · by_cases ha : ∃ k : Fin 12, a = planeAddr k.val s.nbyte.toNat
    · exact .inr (.inr ⟨hi, ha⟩)
    · exact .inl (by rw [hstore, byteAt_writeGroup_of_ne _ _ _ _ fun k _ heq => ha ⟨k, heq⟩])

/-! The partial group (R135). -/

/-- The left shift fills the low bits of the final byte with 0 (R55, R132). -/
theorem getLsbD_leftAlign_of_lt (acc : Vector Byte 12) (ecnt : BitVec 3) (k : Fin 12) {j : Nat} (hj : j < 8 - ecnt.toNat) :
    (leftAlign acc ecnt)[k].getLsbD j = false := by
  simp [leftAlign, BitVec.getLsbD_shiftLeft, hj]

end Machine

/-- In an encode pass NBYTE counts the groups of N characters and ECNT the rest (R31). -/
theorem Safety.Invariant.div_mod_n {s : State} (h : Invariant s) (hp : s.phase = .encoding) :
    s.n.toNat / 8 = s.nbyte.toNat ∧ s.n.toNat % 8 = s.ecnt.toNat := by
  have hcount := h.encCount hp
  have hlt := s.ecnt.isLt
  omega

/-- Settles O9: the step takes the head of the host's list and runs it. -/
theorem stepRunsDecodedCommand : Obligations.StepRunsDecodedCommand :=
  ⟨fun _ _ _ _ hport hdec => step_of_command hport hdec,
    fun s rest hport => by simp [step_of_reset hport, popEvent, hport],
    fun _ hport => step_of_port_nil hport⟩

/-- Settles O48: an address that changed is the location PLANE_WR names or one of the twelve at the starting NBYTE. -/
theorem memoryFrame : Obligations.MemoryFrame := by
  intro i s t hexec
  refine ⟨?planeWr, ?group, ?other⟩
  case planeWr =>
    rintro k pos c rfl a ha
    rcases exec_byteAt_cases hexec a with hkeep | ⟨k', pos', c', hi, heq⟩ | ⟨hi, -⟩
    · exact hkeep
    · cases hi
      exact absurd heq ha
    · simp at hi
  case group =>
    intro hi a ha
    rcases exec_byteAt_cases hexec a with hkeep | ⟨k, pos, c, rfl, -⟩ | ⟨-, k, heq⟩
    · exact hkeep
    · simp at hi
    · exact absurd heq (ha k)
  case other =>
    intro hwr hend hchar a
    rcases exec_byteAt_cases hexec a with hkeep | ⟨k, pos, c, hi, -⟩ | ⟨hi | ⟨c, hi⟩, -⟩
    · exact hkeep
    · exact absurd hi (hwr k pos c)
    · exact absurd hi hend
    · exact absurd hi (hchar c)

/-- Settles O37: the pending group is stored shifted left by `8 - r`, so its low `8 - r` bits are 0. -/
theorem paddingBitsAreZero : Obligations.PaddingBitsAreZero := by
  intro s h hp hr
  obtain ⟨hdiv, hmod⟩ := h.div_mod_n hp
  rw [hmod] at hr
  have hpend : s.ecnt ≠ 0#3 := fun heq => hr (by rw [heq]; rfl)
  have hroom := h.nbyte_lt_of_pending hp hpend
  refine ⟨_, (exec_encEnd_eq_next hp).2 (.inr ⟨hpend, hroom, rfl⟩), fun k => ?_⟩
  rw [hdiv, hmod]
  exact ⟨_, readPlane_writeGroup_self rfl k, fun j hj => getLsbD_leftAlign_of_lt s.acc s.ecnt k hj⟩

end Sys2Proof
end

section
/-! PROOFS. The encoding (30_encoding.md R71 to R75): each format reads back the fields it was packed from, a row of the opcode
map fixes the fields its mask covers, and so the words of the map are the words of the commands. -/

namespace Sys2Proof

/-! Each format accepts a word whose reserved fields are 0 and reads the operands from the others (R73). -/

section Formats

variable (op k : BitVec 4) (pos : BitVec 16) (d : Byte)

@[simp] theorem formatZ_packWord (i : Instr) : formatZ (packWord op 0#4 0#16 0#8) i = .ok i := by
  simp [formatZ, acceptIf]

@[simp] theorem formatD_packWord (i : Byte → Instr) : formatD (packWord op 0#4 0#16 d) i = .ok (i d) := by
  simp [formatD, acceptIf]

@[simp] theorem formatM_packWord (m : Parity) (i : Parity → Instr) :
    formatM (packWord op 0#4 0#16 (modeByte m)) i = .ok (i m) := by
  cases m <;> simp [formatM, acceptIf, modeByte]

@[simp] theorem formatQD_packWord (i : Quad → Byte → Instr) : formatQD (packWord op k 0#16 d) i = .ok (i k d) := by
  simp [formatQD, acceptIf]

@[simp] theorem formatL_packWord (i : BitVec 16 → Instr) : formatL (packWord op 0#4 pos 0#8) i = .ok (i pos) := by
  simp [formatL, acceptIf]

@[simp] theorem formatKP_packWord (i : BitVec 4 → BitVec 16 → Instr) :
    formatKP (packWord op k pos 0#8) i = .ok (i k pos) := by
  simp [formatKP, acceptIf]

@[simp] theorem formatKPD_packWord (i : BitVec 4 → BitVec 16 → Byte → Instr) :
    formatKPD (packWord op k pos d) i = .ok (i k pos d) := by
  simp [formatKPD]

end Formats

/-- The OP of a command's word selects the format the word was packed in (R73, R74). -/
@[simp] theorem decode_encode (i : Instr) : decode (encode i) = .ok i := by
  cases i <;> simp [decode, encode]

/-- The words that decode to a command are its one word. -/
theorem decode_eq_ok_iff {w : Word} {i : Instr} : decode w = .ok i ↔ encode i = w :=
  ⟨encode_of_decode, fun h => h ▸ decode_encode i⟩

/-! The rows of the opcode map (R74). -/

/-- The map lists the rows of the commands. -/
theorem mem_opcodeMap {r : OpcodeRow} : r ∈ opcodeMap ↔ ∃ i, opcodeRow i = r := by
  constructor
  · revert r
    simp [opcodeMap]
  · rintro ⟨i, rfl⟩
    cases i <;> simp [opcodeMap, opcodeRow]

/-- A word agrees with a packed match under a packed mask exactly when each field does. -/
theorem and_packWord_eq {w : Word} {mop mk : BitVec 4} {mpos : BitVec 16} {md : Byte} {op k : BitVec 4}
    {pos : BitVec 16} {d : Byte} :
    w &&& packWord mop mk mpos md = packWord op k pos d ↔
      opField w &&& mop = op ∧ kField w &&& mk = k ∧ posField w &&& mpos = pos ∧ dField w &&& md = d := by
  conv_lhs => rw [← packWord_fields w]
  rw [packWord_and, packWord_inj]

/-- The word of a command agrees with the command's row. -/
theorem encode_and_mask (i : Instr) : encode i &&& (opcodeRow i).maskBits = (opcodeRow i).matchBits := by
  cases i with
  | nop => exact Laws.EncodeMatchesRow.nop
  | setMode m => exact Laws.EncodeMatchesRow.setMode m
  | encBegin => exact Laws.EncodeMatchesRow.encBegin
  | encChar c => exact Laws.EncodeMatchesRow.encChar c
  | encEnd => exact Laws.EncodeMatchesRow.encEnd
  | decBegin nbyte => exact Laws.EncodeMatchesRow.decBegin nbyte
  | decChar => exact Laws.EncodeMatchesRow.decChar
  | decEnd => exact Laws.EncodeMatchesRow.decEnd
  | hamEnc c => exact Laws.EncodeMatchesRow.hamEnc c
  | hamDec q c => exact Laws.EncodeMatchesRow.hamDec q c
  | planeWr k pos c => exact Laws.EncodeMatchesRow.planeWr k pos c
  | planeRd k pos => exact Laws.EncodeMatchesRow.planeRd k pos
  | clear => exact Laws.EncodeMatchesRow.clear

/-- A byte that agrees with SETMODE's match under its mask has bits 7 to 1 at 0 (R73, R74). -/
theorem high_zero_of_and_mask {d : Byte} (h : d &&& 0xFE#8 = 0#8) : d.extractLsb' 1 7 = 0#7 := by
  have hhigh : d.extractLsb' 1 7 &&& .allOnes 7 = 0#7 := by
    simpa [BitVec.extractLsb'_and] using congrArg (BitVec.extractLsb' 1 7) h
  rwa [BitVec.and_allOnes] at hhigh

/-- What a word that agrees with a row shows: the row's OP, and 0 where the mask covers the other fields (R74). -/
theorem fields_of_and_mask {w maskBits matchBits : Word} (op mk : BitVec 4) (mpos : BitVec 16) (md : Byte)
    (hmask : maskBits = packWord (.allOnes 4) mk mpos md) (hmatch : matchBits = packWord op 0#4 0#16 0#8)
    (h : w &&& maskBits = matchBits) :
    opField w = op ∧ kField w &&& mk = 0#4 ∧ posField w &&& mpos = 0#16 ∧ dField w &&& md = 0#8 := by
  rw [hmask, hmatch, and_packWord_eq, BitVec.and_allOnes] at h
  exact h

/-- A word that agrees with a row is the word of a command of that row: the mask fixes OP and the reserved fields, and every other
field is an operand's (R73, R74). -/
theorem exists_encode_of_and_mask {w : Word} (i : Instr) (h : w &&& (opcodeRow i).maskBits = (opcodeRow i).matchBits) :
    ∃ j, encode j = w ∧ opcodeRow j = opcodeRow i := by
  cases i with
  | nop | encBegin | encEnd | decChar | decEnd | clear =>
    refine ⟨_, ?_, rfl⟩
    exact (BitVec.and_allOnes.symm.trans h).symm
  | setMode m =>
    obtain ⟨hop, hk, hpos, hd⟩ := fields_of_and_mask 0x1#4 (.allOnes 4) (.allOnes 16) 0xFE#8 rfl rfl h
    rw [BitVec.and_allOnes] at hk hpos
    exact ⟨.setMode _, packWord_eq hop hk hpos (modeByte_of_dField (high_zero_of_and_mask hd)).symm, rfl⟩
  | encChar c =>
    obtain ⟨hop, hk, hpos, -⟩ := fields_of_and_mask 0x3#4 (.allOnes 4) (.allOnes 16) 0#8 rfl rfl h
    rw [BitVec.and_allOnes] at hk hpos
    exact ⟨.encChar (dField w), packWord_eq hop hk hpos rfl, rfl⟩
  | decBegin nbyte =>
    obtain ⟨hop, hk, -, hd⟩ := fields_of_and_mask 0x5#4 (.allOnes 4) 0#16 (.allOnes 8) rfl rfl h
    rw [BitVec.and_allOnes] at hk hd
    exact ⟨.decBegin (posField w), packWord_eq hop hk rfl hd, rfl⟩
  | hamEnc c =>
    obtain ⟨hop, hk, hpos, -⟩ := fields_of_and_mask 0x8#4 (.allOnes 4) (.allOnes 16) 0#8 rfl rfl h
    rw [BitVec.and_allOnes] at hk hpos
    exact ⟨.hamEnc (dField w), packWord_eq hop hk hpos rfl, rfl⟩
  | hamDec q c =>
    obtain ⟨hop, -, hpos, -⟩ := fields_of_and_mask 0x9#4 0#4 (.allOnes 16) 0#8 rfl rfl h
    rw [BitVec.and_allOnes] at hpos
    exact ⟨.hamDec (kField w) (dField w), packWord_eq hop rfl hpos rfl, rfl⟩
  | planeWr k pos c =>
    obtain ⟨hop, -, -, -⟩ := fields_of_and_mask 0xA#4 0#4 0#16 0#8 rfl rfl h
    exact ⟨.planeWr (kField w) (posField w) (dField w), packWord_eq hop rfl rfl rfl, rfl⟩
  | planeRd k pos =>
    obtain ⟨hop, -, -, hd⟩ := fields_of_and_mask 0xB#4 0#4 0#16 (.allOnes 8) rfl rfl h
    rw [BitVec.and_allOnes] at hd
    exact ⟨.planeRd (kField w) (posField w), packWord_eq hop rfl rfl hd, rfl⟩

/-- A command's OP is the OP of its row, which is at most 0xC (R74). -/
theorem opField_encode (i : Instr) :
    opField (opcodeRow i).matchBits = opField (encode i) ∧ (opField (encode i)).toNat ≤ 12 := by
  cases i <;> simp only [encode, opField_packWord, opcodeRow] <;> decide

/-- Words with OP 0xD to 0xF are illegal (R75, R77). -/
theorem decode_of_reserved_op {w : Word} (h : 13 ≤ (opField w).toNat) : ∃ e, decode w = .error e := by
  cases hdec : decode w with
  | error e => exact ⟨e, rfl⟩
  | ok i =>
    have hop := (opField_encode i).2
    rw [encode_of_decode hdec] at hop
    omega

namespace Machine

/-- A word that does not decode is taken, and answered as an illegal word (R75). -/
theorem step_of_illegal {s : State} {w : Word} {rest : List HostEvent} {e : Reject} (h : s.port = .command w :: rest)
    (hdec : decode w = .error e) : step s = illegalWord { s with port := rest } := by
  simp [step, nextEvent, popEvent, h, hdec]

/-! No command is refused: the phase check refuses only where a command's own effect does, and none does (R74). -/

theorem packChar_ne_refused (c : Byte) (s : State) (r : Refusal) : packChar c s ≠ .refused r := by
  unfold packChar
  split
  · exact storeGroup_ne_refused _ _ r
  · simp

theorem finishEncode_ne_refused (s : State) (r : Refusal) : finishEncode s ≠ .refused r := by
  unfold finishEncode
  split
  · simp
  · exact storeGroup_ne_refused _ _ r

theorem decodeSlot_ne_refused (s : State) (r : Refusal) : decodeSlot s ≠ .refused r := by
  unfold decodeSlot
  split <;> simp

theorem fetchPlane_ne_refused (k pos : Nat) (s : State) (r : Refusal) : fetchPlane k pos s ≠ .refused r := by
  unfold fetchPlane
  split <;> simp

theorem inPhases_ne_refused {ps : List Phase} {s : State} {run : Result} {r : Refusal} (h : run ≠ .refused r) :
    inPhases ps s run ≠ .refused r := fun heq => h (inPhases_eq_refused.1 heq).2.2

theorem exec_ne_refused (i : Instr) (s : State) (r : Refusal) : exec i s ≠ .refused r := by
  cases i with
  | clear => simp
  | nop | setMode _ | encBegin | decEnd | hamEnc _ | hamDec _ _ => exact inPhases_ne_refused (by simp)
  | encEnd => exact inPhases_ne_refused (finishEncode_ne_refused s r)
  | decBegin nbyte =>
    refine inPhases_ne_refused ?_
    split <;> simp
  | encChar c =>
    refine inPhases_ne_refused ?_
    split
    · simp
    · exact packChar_ne_refused c s r
  | decChar =>
    refine inPhases_ne_refused ?_
    split
    · simp
    · exact decodeSlot_ne_refused s r
  | planeWr k pos c =>
    refine inPhases_ne_refused ?_
    split <;> simp
  | planeRd k pos =>
    refine inPhases_ne_refused ?_
    split
    · exact fetchPlane_ne_refused k.toNat pos.toNat s r
    · simp

end Machine

open Machine

/-- Settles O4: a command's word selects the command's format, which reads every operand back. -/
theorem decodeOfEncode : Obligations.DecodeOfEncode := fun i _ => decode_encode i

/-- Settles O5: the reserved fields of a word that decodes are 0 and every other field is an operand's. -/
theorem encodeOfDecode : Obligations.EncodeOfDecode := fun _ _ => encode_of_decode

/-- Settles O6: the words that agree with a row are the words of the commands of that row. -/
theorem decodeFollowsOpcodeMap : Obligations.DecodeFollowsOpcodeMap := by
  refine ⟨fun w i hdec => ?_, fun w r hr hw => ?_⟩
  · rw [← encode_of_decode hdec]
    exact encode_and_mask i
  · obtain ⟨i, rfl⟩ := mem_opcodeMap.1 hr
    obtain ⟨j, hj, hrow⟩ := exists_encode_of_and_mask i hw
    exact ⟨j, decode_eq_ok_iff.2 hj, hrow⟩

/-- Settles O7: a word that decodes has the OP and the row of its command, and every other word is answered as illegal. -/
theorem illegalWordsAreTheRest : Obligations.IllegalWordsAreTheRest := by
  obtain ⟨hmatches, hdecodes⟩ := decodeFollowsOpcodeMap
  refine ⟨fun w => ⟨?valid, ?legal⟩, fun w => decode_of_reserved_op, ?illegal⟩
  case valid =>
    rintro ⟨i, hdec⟩
    obtain ⟨hrow, hop⟩ := opField_encode i
    rw [encode_of_decode hdec] at hrow hop
    exact ⟨hop, opcodeRow i, mem_opcodeMap.2 ⟨i, rfl⟩, hrow, hmatches w i hdec⟩
  case legal =>
    rintro ⟨-, r, hr, -, hw⟩
    obtain ⟨i, hdec, -⟩ := hdecodes w r hr hw
    exact ⟨i, hdec⟩
  case illegal =>
    intro s w rest e hport hdec
    rw [step_of_illegal hport hdec, illegalWord_eq]
    exact ⟨fun hp => by rw [if_neg hp]; rfl, fun hp => by rw [if_pos hp]⟩

/-- Settles O8: each sample word is the word of its command, or is outside the map. -/
theorem sampleWordsDecode : Obligations.SampleWordsDecode := by
  unfold Obligations.SampleWordsDecode
  simp only [decode_eq_ok_iff]
  decide

/-- Settles O10: a step refuses only where the command it runs does. -/
theorem nothingIsRefused : Obligations.NothingIsRefused := by
  refine ⟨exec_ne_refused, fun s r hstep => ?_⟩
  rcases hport : s.port with _ | ⟨w | _, rest⟩
  case nil => simp [step_of_port_nil hport] at hstep
  case cons.reset => simp [step_of_reset hport] at hstep
  case cons.command =>
    cases hdec : decode w with
    | ok i => exact exec_ne_refused i _ r ((step_of_command hport hdec).symm.trans hstep)
    | error e => simp [step_of_illegal hport hdec, illegalWord_eq] at hstep

end Sys2Proof
end

section
/-! PROOFS. The assembler (30_encoding.md R78, R79): a word as its fields shifted into place, what each operand form accepts, the
operands each line takes, and the expansions of the pseudo-instructions. -/

namespace Sys2Proof

/-- A word is its fields, each shifted to its place (R71). -/
theorem packWord_eq_or (op k : BitVec 4) (pos : BitVec 16) (d : Byte) :
    packWord op k pos d =
      op.setWidth 32 <<< 28 ||| k.setWidth 32 <<< 24 ||| pos.setWidth 32 <<< 8 ||| d.setWidth 32 := by
  refine BitVec.eq_of_getLsbD_eq fun i hi => ?_
  simp only [getLsbD_packWord, BitVec.getLsbD_or, BitVec.getLsbD_shiftLeft, BitVec.getLsbD_setWidth]
  by_cases h8 : i < 8
  · simp [h8, hi, show i < 24 by omega, show i < 28 by omega]
  have hd : d.getLsbD i = false := BitVec.getLsbD_of_ge d i (by omega)
  by_cases h24 : i < 24
  · simp [h8, h24, hd, hi, show i < 28 by omega, show i - 8 < 32 by omega]
  have hpos : pos.getLsbD (i - 8) = false := BitVec.getLsbD_of_ge pos (i - 8) (by omega)
  by_cases h28 : i < 28
  · simp [h8, h24, h28, hd, hpos, hi, show i - 24 < 32 by omega]
  have hk : k.getLsbD (i - 24) = false := BitVec.getLsbD_of_ge k (i - 24) (by omega)
  simp [h8, h24, h28, hd, hpos, hk, hi, show i - 28 < 32 by omega]

/-- The word of fields given as numbers that fit (R71, R78). -/
theorem packWord_ofNat (op : BitVec 4) {k pos c : Nat} (hk : k < 16) (hpos : pos < 65536) (hc : c < 256) :
    packWord op (BitVec.ofNat 4 k) (BitVec.ofNat 16 pos) (BitVec.ofNat 8 c) =
      op.setWidth 32 <<< 28 ||| BitVec.ofNat 32 k <<< 24 ||| BitVec.ofNat 32 pos <<< 8 ||| BitVec.ofNat 32 c := by
  rw [packWord_eq_or, BitVec.setWidth_ofNat_of_le_of_lt (by decide) hk, BitVec.setWidth_ofNat_of_le_of_lt (by decide) hpos,
    BitVec.setWidth_ofNat_of_le_of_lt (by decide) hc]

namespace Machine

/-! The operand forms: what each accepts, and that it rejects the rest (R78). -/

theorem fieldOperand_num {width n : Nat} (h : n < 2 ^ width) :
    fieldOperand width (.num n) = some (BitVec.ofNat width n) := by
  simp [fieldOperand, fitsField, h]

theorem fieldOperand_eq_none {width : Nat} {a : AsmToken} (h : ¬ ∃ n < 2 ^ width, a = .num n) :
    fieldOperand width a = none := by
  cases a with
  | num n =>
    have hn : ¬ n < 2 ^ width := fun hn => h ⟨n, hn, rfl⟩
    simp [fieldOperand, fitsField, hn]
  | word _ | chr _ | str _ | comma => rfl

/-- A byte is a number or a character code below 256. -/
theorem byteOperand_eq_some {a : AsmToken} {c : Nat} (hc : c < 256) (ha : a = .num c ∨ a = .chr c) :
    byteOperand a = some (BitVec.ofNat 8 c) := by
  rcases ha with rfl | rfl <;> simp [byteOperand, fitsField, hc]

theorem byteOperand_eq_none {a : AsmToken} (h : ¬ ∃ c < 256, a = .num c ∨ a = .chr c) : byteOperand a = none := by
  cases a with
  | num n =>
    have hn : ¬ n < 256 := fun hn => h ⟨n, hn, .inl rfl⟩
    simp [byteOperand, fitsField, hn]
  | chr n =>
    have hn : ¬ n < 256 := fun hn => h ⟨n, hn, .inr rfl⟩
    simp [byteOperand, fitsField, hn]
  | word _ | str _ | comma => rfl

theorem modeOperand_eq_none {a : AsmToken} (h : a ∉ [.word "even".toList, .word "odd".toList, .num 0, .num 1]) :
    modeOperand a = none := by
  cases a with
  | word cs =>
    obtain ⟨heven, hodd⟩ : cs ≠ "even".toList ∧ cs ≠ "odd".toList := by simpa using h
    rw [modeOperand, if_neg heven, if_neg hodd]
  | num n =>
    obtain ⟨hzero, hone⟩ : n ≠ 0 ∧ n ≠ 1 := by simpa using h
    rw [modeOperand, if_neg hzero, if_neg hone]
  | chr _ | str _ | comma => rfl

/-! The lines with operands (R78). -/

theorem expand_encChar (a : AsmToken) : expand "enc.char".toList [a] = (byteOperand a).map fun c => [.encChar c] := rfl

theorem expand_hamEnc (a : AsmToken) : expand "ham.enc".toList [a] = (byteOperand a).map fun c => [.hamEnc c] := rfl

theorem expand_decBegin (a : AsmToken) :
    expand "dec.begin".toList [a] = (fieldOperand 16 a).map fun nbyte => [.decBegin nbyte] := rfl

theorem expand_hamDec (a b : AsmToken) :
    expand "ham.dec".toList [a, b] = (byteOperand a).bind fun c => (fieldOperand 4 b).map fun q => [.hamDec q c] := by
  change binaryCommand "ham.dec".toList a b = _
  simp only [binaryCommand]
  cases byteOperand a <;> cases fieldOperand 4 b <;> rfl

theorem expand_planeRd (a b : AsmToken) :
    expand "plane.rd".toList [a, b] = (fieldOperand 4 a).bind fun k => (fieldOperand 16 b).map fun pos => [.planeRd k pos] := by
  change binaryCommand "plane.rd".toList a b = _
  simp only [binaryCommand]
  cases fieldOperand 4 a <;> cases fieldOperand 16 b <;> rfl

theorem expand_planeWr (a b c : AsmToken) :
    expand "plane.wr".toList [a, b, c] =
      (fieldOperand 4 a).bind fun k => (fieldOperand 16 b).bind fun pos => (byteOperand c).map fun v => [.planeWr k pos v] := by
  change planeWrite a b c = _
  simp only [planeWrite]
  cases fieldOperand 4 a <;> cases fieldOperand 16 b <;> cases byteOperand c <;> rfl

/-- SETMODE takes one operand, of four forms. -/
theorem expand_setmode_eq_none {operands : List AsmToken}
    (h : operands ∉ [[.word "even".toList], [.word "odd".toList], [.num 0], [.num 1]]) :
    expand "setmode".toList operands = none := by
  rcases operands with _ | ⟨a, _ | ⟨b, _ | ⟨c, _ | ⟨d, rest⟩⟩⟩⟩
  case cons.nil =>
    have ha : modeOperand a = none := modeOperand_eq_none (by simpa using h)
    change (modeOperand a).map _ = none
    rw [ha, Option.map_none]
  all_goals rfl

/-! The pseudo-instructions (R79). -/

theorem expand_decRun (a : AsmToken) : expand "dec.run".toList [a] = (fieldOperand 16 a).map decodeRun := rfl

theorem expand_planeDump (a b : AsmToken) :
    expand "plane.dump".toList [a, b] = (fieldOperand 4 a).bind fun k => (fieldOperand 16 b).map (dumpPlane k) := by
  change binaryCommand "plane.dump".toList a b = _
  simp only [binaryCommand]
  cases fieldOperand 4 a <;> cases fieldOperand 16 b <;> rfl

/-- `plane.load` takes a plane and at least one byte. -/
theorem expand_planeLoad (a b : AsmToken) (rest : List AsmToken) :
    expand "plane.load".toList (a :: b :: rest) =
      (fieldOperand 4 a).bind fun k => (byteOperands (b :: rest)).bind fun bytes => loadFrom k 0 bytes := by
  change planeLoad a (b :: rest) = _
  simp only [planeLoad]
  cases fieldOperand 4 a <;> cases byteOperands (b :: rest) <;> rfl

/-- Where the positions fit POS, the expansion of `plane.load` is the load of the bytes. -/
theorem loadFrom_eq (k : BitVec 4) {pos : Nat} {bytes : List Byte} (h : pos + bytes.length ≤ 65536) :
    loadFrom k pos bytes = some (loadPlane k pos bytes) := by
  induction bytes generalizing pos with
  | nil => rfl
  | cons b bytes ih =>
    rw [List.length_cons] at h
    have hfits : fitsField 16 pos = true := by simp [fitsField]; omega
    simp [loadFrom, loadPlane, hfits, ih (pos := pos + 1) (by omega)]

theorem byteOperands_eq_some {operands : List AsmToken} {bytes : List Byte}
    (h : List.Forall₂ (fun a (b : Byte) => a = .num b.toNat ∨ a = .chr b.toNat) operands bytes) :
    byteOperands operands = some bytes := by
  induction h with
  | nil => rfl
  | cons ha _ ih => simp [byteOperands, byteOperand_eq_some (BitVec.isLt _) ha, ih]

end Machine

open Machine

/-- Settles O58: a line's operands are accepted exactly when each is of its form, and the word is their fields shifted into
place. -/
theorem assemblerWords : Obligations.AssemblerWords := by
  unfold Obligations.AssemblerWords
  intro words byteFits fieldFits
  refine ⟨rfl, rfl, rfl, rfl, rfl, rfl, rfl, rfl, rfl, rfl, ?byte, ?decBegin, ?planeRd, ?badByte, ?badHamDec, ?badPlaneWr,
    ?badPlaneRd, ?badDecBegin, ?badSetmode⟩
  case byte =>
    intro c hc a ha
    have hbyte := byteOperand_eq_some hc (by simpa using ha)
    refine ⟨?encChar, ?hamEnc, fun q hq => ?hamDec, fun k hk pos hpos => ?planeWr⟩
    case encChar =>
      simp only [words, expand_encChar, hbyte, Option.map_some]
      simpa [encode] using packWord_ofNat 0x3#4 (k := 0) (pos := 0) (by decide) (by decide) hc
    case hamEnc =>
      simp only [words, expand_hamEnc, hbyte, Option.map_some]
      simpa [encode] using packWord_ofNat 0x8#4 (k := 0) (pos := 0) (by decide) (by decide) hc
    case hamDec =>
      simp only [words, expand_hamDec, hbyte, fieldOperand_num (width := 4) hq, Option.bind_some, Option.map_some]
      simpa [encode] using packWord_ofNat 0x9#4 (pos := 0) hq (by decide) hc
    case planeWr =>
      simp only [words, expand_planeWr, hbyte, fieldOperand_num (width := 4) hk,
        fieldOperand_num (width := 16) hpos, Option.bind_some, Option.map_some]
      simpa [encode] using packWord_ofNat 0xA#4 hk hpos hc
  case decBegin =>
    intro nbyte h
    simp only [words, expand_decBegin, fieldOperand_num (width := 16) h, Option.map_some]
    simpa [encode] using packWord_ofNat 0x5#4 (k := 0) (c := 0) (by decide) h (by decide)
  case planeRd =>
    intro k hk pos hpos
    simp only [words, expand_planeRd, fieldOperand_num (width := 4) hk, fieldOperand_num (width := 16) hpos,
      Option.bind_some, Option.map_some]
    simpa [encode] using packWord_ofNat 0xB#4 (c := 0) hk hpos (by decide)
  case badByte =>
    intro a ha
    simp only [words, expand_encChar, expand_hamEnc, byteOperand_eq_none ha, Option.map_none, and_self]
  case badHamDec =>
    rintro a b (ha | hb) <;> simp only [words, expand_hamDec]
    · simp [byteOperand_eq_none ha]
    · simp [fieldOperand_eq_none hb]
  case badPlaneWr =>
    rintro a b c (ha | hb | hc) <;> simp only [words, expand_planeWr]
    · simp [fieldOperand_eq_none ha]
    · simp [fieldOperand_eq_none hb]
    · simp [byteOperand_eq_none hc]
  case badPlaneRd =>
    rintro a b (ha | hb) <;> simp only [words, expand_planeRd]
    · simp [fieldOperand_eq_none ha]
    · simp [fieldOperand_eq_none hb]
  case badDecBegin =>
    intro a ha
    simp only [words, expand_decBegin, fieldOperand_eq_none ha, Option.map_none]
  case badSetmode =>
    intro operands h
    simp only [words, expand_setmode_eq_none h, Option.map_none]

/-- Settles O59: each expansion is a function of the operands' values, and where the positions fit POS `plane.load` is the loads
of its bytes in order. -/
theorem pseudoInstructionExpansions : Obligations.PseudoInstructionExpansions := by
  refine ⟨fun codes => ⟨rfl, rfl⟩, fun n hn => ?decRun, fun k hk n hn => ?planeDump, ?planeLoad⟩
  case decRun => rw [expand_decRun, fieldOperand_num hn, Option.map_some, decodeRun, BitVec.toNat_ofNat, Nat.mod_eq_of_lt hn]; rfl
  case planeDump =>
    rw [expand_planeDump, fieldOperand_num hk, fieldOperand_num hn, Option.bind_some, Option.map_some, dumpPlane,
      BitVec.toNat_ofNat, Nat.mod_eq_of_lt hn]
  case planeLoad =>
    intro k operands bytes hk hpos hlen hbytes
    cases hbytes with
    | nil => simp at hpos
    | cons ha hrest =>
      rw [expand_planeLoad, fieldOperand_num hk, byteOperands_eq_some (.cons ha hrest), Option.bind_some, Option.bind_some,
        loadFrom_eq _ (by omega), loadPlane_eq]

end Sys2Proof
end

section
/-! PROOFS. The Hamming datapath (40_hamming_datapath.md R100 to R117): the bits of the syndrome word, its linearity, and that the
failing checks of a corrupted character are the column masks of the corruption, whatever the byte and the mode. -/

namespace Sys2Proof

namespace Machine

/-! ### BitExtractor (R100 to R102) -/

theorem bitsOf_get (c : Byte) (i : Fin 8) : (bitsOf c)[i] = c.getMsbD i.val := by simp [bitsOf]

theorem byteOf_bitsOf (c : Byte) : byteOf (bitsOf c) = c :=
  BitVec.eq_of_getMsbD_eq fun i hi => (getMsbD_byteOf _ ⟨i, hi⟩).trans (bitsOf_get c ⟨i, hi⟩)

theorem bitsOf_byteOf (v : Vector Bool 8) : bitsOf (byteOf v) = v :=
  Vector.ext fun i hi => (bitsOf_get _ ⟨i, hi⟩).trans (getMsbD_byteOf v ⟨i, hi⟩)

/-! ### The bits of the syndrome word (R103, R104) -/

/-- Two quads with the same four bits are equal. -/
theorem quad_ext {p q : Quad} (h0 : p.getLsbD 0 = q.getLsbD 0) (h1 : p.getLsbD 1 = q.getLsbD 1)
    (h2 : p.getLsbD 2 = q.getLsbD 2) (h3 : p.getLsbD 3 = q.getLsbD 3) : p = q := by
  refine BitVec.eq_of_getLsbD_eq fun i hi => ?_
  interval_cases i <;> assumption

/-- The bits of a quad are p1, p2, p4 and p8 (R15). -/
theorem getLsbD_quadOf (p1 p2 p4 p8 : Bool) :
    (quadOf p1 p2 p4 p8).getLsbD 0 = p1 ∧ (quadOf p1 p2 p4 p8).getLsbD 1 = p2 ∧
    (quadOf p1 p2 p4 p8).getLsbD 2 = p4 ∧ (quadOf p1 p2 p4 p8).getLsbD 3 = p8 := by
  revert p1 p2 p4 p8
  decide

/-- The bits of S are the four check sums, here over the byte's own bit numbers (R103, R104). -/
theorem getLsbD_rawSyndrome (c : Byte) :
    (rawSyndrome c).getLsbD 0 = (c.getLsbD 7 ^^ c.getLsbD 6 ^^ c.getLsbD 4 ^^ c.getLsbD 3 ^^ c.getLsbD 1) ∧
    (rawSyndrome c).getLsbD 1 = (c.getLsbD 7 ^^ c.getLsbD 5 ^^ c.getLsbD 4 ^^ c.getLsbD 2 ^^ c.getLsbD 1) ∧
    (rawSyndrome c).getLsbD 2 = (c.getLsbD 6 ^^ c.getLsbD 5 ^^ c.getLsbD 4 ^^ c.getLsbD 0) ∧
    (rawSyndrome c).getLsbD 3 = (c.getLsbD 3 ^^ c.getLsbD 2 ^^ c.getLsbD 1 ^^ c.getLsbD 0) := by
  obtain ⟨h0, h1, h2, h3⟩ :=
    getLsbD_quadOf (checkSum1 (bitsOf c)) (checkSum2 (bitsOf c)) (checkSum4 (bitsOf c)) (checkSum8 (bitsOf c))
  refine ⟨h0.trans ?_, h1.trans ?_, h2.trans ?_, h3.trans ?_⟩
  · simp [checkSum1, bitsOf, BitVec.getMsbD]
  · simp [checkSum2, bitsOf, BitVec.getMsbD]
  · simp [checkSum4, bitsOf, BitVec.getMsbD]
  · simp [checkSum8, bitsOf, BitVec.getMsbD]

/-- S is linear: each of its bits is a sum of bits (R114). -/
theorem rawSyndrome_xor (c d : Byte) : rawSyndrome (c ^^^ d) = rawSyndrome c ^^^ rawSyndrome d := by
  obtain ⟨h0, h1, h2, h3⟩ := getLsbD_rawSyndrome (c ^^^ d)
  obtain ⟨hc0, hc1, hc2, hc3⟩ := getLsbD_rawSyndrome c
  obtain ⟨hd0, hd1, hd2, hd3⟩ := getLsbD_rawSyndrome d
  apply quad_ext
  all_goals
    simp only [h0, h1, h2, h3, hc0, hc1, hc2, hc3, hd0, hd1, hd2, hd3, BitVec.getLsbD_xor]
    simp only [Bool.xor_assoc, Bool.xor_left_comm]

@[simp] theorem rawSyndrome_zero : rawSyndrome 0x00#8 = 0x0#4 := by decide

/-- The number of elements that meet `p` is odd exactly when the exclusive or of `p` over them is true. -/
theorem countP_mod_two_eq_one {α : Type} (p : α → Bool) (l : List α) :
    l.countP p % 2 = 1 ↔ (l.map p).foldr (· ^^ ·) false = true := by
  induction l with
  | nil => simp
  | cons x l ih =>
    rw [List.map_cons, List.foldr_cons]
    cases hx : p x
    · simpa [hx] using ih
    · rw [List.countP_cons_of_pos hx, Bool.true_xor, Bool.not_eq_true', ← Bool.not_eq_true, ← ih]
      omega

/-- The parity of a byte under a mask is the exclusive or of the masked bits (R104). -/
theorem popcount_and_mod_two (c mask : Byte) :
    popcount (c &&& mask) % 2 = 1 ↔
      ((c.getLsbD 0 && mask.getLsbD 0) ^^ (c.getLsbD 1 && mask.getLsbD 1) ^^ (c.getLsbD 2 && mask.getLsbD 2) ^^
       (c.getLsbD 3 && mask.getLsbD 3) ^^ (c.getLsbD 4 && mask.getLsbD 4) ^^ (c.getLsbD 5 && mask.getLsbD 5) ^^
       (c.getLsbD 6 && mask.getLsbD 6) ^^ (c.getLsbD 7 && mask.getLsbD 7)) = true := by
  simp only [popcount, countP_mod_two_eq_one, List.range, List.range.loop, List.map_cons, List.map_nil, List.foldr_cons,
    List.foldr_nil, BitVec.getLsbD_and, Bool.xor_false, Bool.xor_assoc]

/-- S is the exclusive or of the column masks of the set bits (R104): each check takes the bits whose column has it. -/
theorem rawSyndrome_eq_columns (c : Byte) :
    rawSyndrome c =
      (if c.getLsbD 7 then 0x3#4 else 0#4) ^^^ (if c.getLsbD 6 then 0x5#4 else 0#4) ^^^
      (if c.getLsbD 5 then 0x6#4 else 0#4) ^^^ (if c.getLsbD 4 then 0x7#4 else 0#4) ^^^
      (if c.getLsbD 3 then 0x9#4 else 0#4) ^^^ (if c.getLsbD 2 then 0xA#4 else 0#4) ^^^
      (if c.getLsbD 1 then 0xB#4 else 0#4) ^^^ (if c.getLsbD 0 then 0xC#4 else 0#4) := by
  have hcolumn (b : Bool) (column : Quad) (j : Nat) :
      (if b then column else 0#4).getLsbD j = (b && column.getLsbD j) := by cases b <;> simp
  obtain ⟨h0, h1, h2, h3⟩ := getLsbD_rawSyndrome c
  apply quad_ext
  all_goals
    simp only [h0, h1, h2, h3, BitVec.getLsbD_xor, hcolumn]
    simp

/-! ### The emitted quad (R105) -/

theorem parityOf_even (c : Byte) : parityOf c .even = rawSyndrome c := by simp [parityOf, modeMask]

theorem parityOf_odd (c : Byte) : parityOf c .odd = rawSyndrome c ^^^ 0xF#4 := rfl

/-- The other mode inverts the emitted quad (R105, R114). -/
theorem parityOf_of_ne (c : Byte) {m m' : Parity} (h : m ≠ m') : parityOf c m' = parityOf c m ^^^ 0xF#4 := by
  cases m <;> cases m' <;> simp_all [parityOf, modeMask]

/-! ### The failing checks (R106) -/

/-- A flip of the data bits `d` changes the emitted quad by their columns (R104, R105). -/
theorem parityOf_xor (c d : Byte) (m : Parity) : parityOf (c ^^^ d) m = parityOf c m ^^^ rawSyndrome d := by
  rw [parityOf, parityOf, rawSyndrome_xor]
  ac_rfl

/-- The checks that fail for a character with the data bits `d` and the parity bits `e` flipped are those of the flipped
positions' columns, whatever the byte and the mode (R115). -/
theorem failMask_corrupted (c d : Byte) (e : Quad) (m : Parity) :
    failMask (c ^^^ d) (parityOf c m ^^^ e) m = rawSyndrome d ^^^ e := by
  rw [failMask, parityOf_xor]
  calc parityOf c m ^^^ rawSyndrome d ^^^ (parityOf c m ^^^ e)
      = parityOf c m ^^^ parityOf c m ^^^ (rawSyndrome d ^^^ e) := by ac_rfl
    _ = rawSyndrome d ^^^ e := by rw [BitVec.xor_self, BitVec.zero_xor]

theorem failMask_of_dataFlip (c d : Byte) (m : Parity) : failMask (c ^^^ d) (parityOf c m) m = rawSyndrome d := by
  simpa using failMask_corrupted c d 0x0#4 m

theorem failMask_of_quadFlip (c : Byte) (e : Quad) (m : Parity) : failMask c (parityOf c m ^^^ e) m = e := by
  simpa using failMask_corrupted c 0x00#8 e m

@[simp] theorem failMask_parityOf (c : Byte) (m : Parity) : failMask c (parityOf c m) m = 0x0#4 := BitVec.xor_self

/-- Under the other mode every check answers the other way (R117). -/
theorem failMask_of_ne (c : Byte) (q : Quad) {m m' : Parity} (h : m ≠ m') :
    failMask c q m' = 0xF#4 ^^^ failMask c q m := by
  rw [failMask, failMask, parityOf_of_ne c h]
  ac_rfl

/-! ### What `correct` returns, by the number of failing checks (R107 to R110) -/

section Correct

variable {c : Byte} {q f : Quad} {m : Parity}

@[simp] theorem correct_fail (c : Byte) (q : Quad) (m : Parity) : (correct c q m).fail = failMask c q m := rfl

@[simp] theorem correct_errors (c : Byte) (q : Quad) (m : Parity) : (correct c q m).errors = popcount (failMask c q m) := rfl

/-- Two failing checks: the bit of their row is flipped, and the character is not flagged (R108, R109). -/
theorem correct_of_two (hf : failMask c q m = f) (h : popcount f = 2) : correct c q m = ⟨c ^^^ flipMask f, f, 2, false⟩ := by
  simp [correct, hf, h, flaggedBy]

theorem correct_byte_of_two (h : popcount f = 2) (hf : (correct c q m).fail = f) :
    (correct c q m).byte = c ^^^ flipMask f := by
  rw [correct_of_two hf h]

/-- Any other number of failing checks: the byte is unmodified (R108). -/
theorem correct_of_ne_two (hf : failMask c q m = f) (h : popcount f ≠ 2) :
    correct c q m = ⟨c, f, popcount f, flaggedBy (popcount f)⟩ := by
  simp [correct, hf, h]

/-- The six pairs of failing checks (R108). -/
theorem popcount_eq_two_iff : popcount f = 2 ↔ f.toNat ∈ [0x3, 0x5, 0x9, 0x6, 0xA, 0xC] := by
  revert f
  decide

theorem flipMask_ne_zero (h : popcount f = 2) : flipMask f ≠ 0x00#8 := by
  revert f
  decide

/-- A number of failing checks that is neither none nor two is flagged (R109). -/
theorem flaggedBy_of_ne_two (h0 : f ≠ 0x0#4) (h2 : popcount f ≠ 2) : flaggedBy (popcount f) = true := by
  revert f
  decide

theorem popcount_mem_of_ne_zero (h : f ≠ 0x0#4) : popcount f ∈ [1, 2, 3, 4] := by
  revert f
  decide

/-- Two other checks fail when every check answers the other way, and they flip another bit (R117). -/
theorem complement_of_two (h : popcount f = 2) :
    popcount (0xF#4 ^^^ f) = 2 ∧ flipMask (0xF#4 ^^^ f) ≠ flipMask f := by
  revert f
  decide

end Correct

/-! ### The twelve positions of a code word (R115, R116) -/

/-- The data bits whose flip is corrected, b0, b1, b2, b4, b5 and b7, each as its byte mask with its column mask. -/
def correctedFlips : List (Byte × Quad) :=
  [(0x80#8, 0x3#4), (0x40#8, 0x5#4), (0x20#8, 0x6#4), (0x08#8, 0x9#4), (0x04#8, 0xA#4), (0x01#8, 0xC#4)]

/-- The data bits whose flip is flagged, b3 and b6, each as its byte mask with its column mask. -/
def flaggedFlips : List (Byte × Quad) := [(0x10#8, 0x7#4), (0x02#8, 0xB#4)]

theorem correctedFlips_spec :
    ∀ p ∈ correctedFlips, rawSyndrome p.1 = p.2 ∧ popcount p.2 = 2 ∧ flipMask p.2 = p.1 := by
  intro p hp
  unfold correctedFlips at hp
  fin_cases hp <;> decide

theorem flaggedFlips_spec : ∀ p ∈ flaggedFlips, rawSyndrome p.1 = p.2 ∧ popcount p.2 = 3 := by
  intro p hp
  unfold flaggedFlips at hp
  fin_cases hp <;> decide

/-- The data bit at a position of the code word: b0 to b7 at positions 0 to 7, and none at the parity bits' positions. -/
def dataFlip (p : Fin 12) : Byte := if p.val < 8 then 0x80#8 >>> p.val else 0x00#8

/-- The parity bit at a position of the code word: p1, p2, p4 and p8 at positions 8 to 11. -/
def quadFlip (p : Fin 12) : Quad := if p.val < 8 then 0x0#4 else 0x1#4 <<< (p.val - 8)

/-- The checks that fail when the bit at a position is flipped. -/
def column (p : Fin 12) : Quad := rawSyndrome (dataFlip p) ^^^ quadFlip p

theorem column_ne_zero (p : Fin 12) : column p ≠ 0x0#4 := by
  revert p
  decide

theorem column_injective : Function.Injective column := by
  unfold Function.Injective
  decide

/-- Two flips make the checks fail that exactly one of the two columns has. -/
theorem failMask_of_two_flips (c : Byte) (m : Parity) (i j : Fin 12) :
    failMask (c ^^^ dataFlip i ^^^ dataFlip j) (parityOf c m ^^^ quadFlip i ^^^ quadFlip j) m = column i ^^^ column j := by
  rw [BitVec.xor_assoc, BitVec.xor_assoc, failMask_corrupted, rawSyndrome_xor, column, column]
  ac_rfl

theorem column_xor_ne_zero {i j : Fin 12} (h : i ≠ j) : column i ^^^ column j ≠ 0x0#4 :=
  fun heq => h (column_injective (BitVec.xor_eq_zero_iff.1 heq))

/-- What is left of two flips after a correction is one to three bits, and never none (R116). -/
theorem two_flips_corrected : ∀ i j : Fin 12, i < j → popcount (column i ^^^ column j) = 2 →
    dataFlip i ^^^ dataFlip j ^^^ flipMask (column i ^^^ column j) ≠ 0x00#8 ∧
      popcount (dataFlip i ^^^ dataFlip j ^^^ flipMask (column i ^^^ column j)) ≤ 3 := by
  decide

end Machine

open Machine

/-- Settles O17: position i of the vector is bit i of the byte counted from the MSB, in both directions. -/
theorem bitExtractorInverse : Obligations.BitExtractorInverse :=
  ⟨fun c i => (bitsOf_get c i).trans (by simp [BitVec.getMsbD]), byteOf_bitsOf, bitsOf_byteOf, by decide⟩

/-- Settles O18: a masked bit count is odd exactly when the exclusive or of the masked bits, which is the check sum, is 1. -/
theorem checkSumsAsMasks : Obligations.CheckSumsAsMasks := by
  intro c
  obtain ⟨h0, h1, h2, h3⟩ := getLsbD_rawSyndrome c
  refine ⟨?_, ?_, ?_, ?_, rawSyndrome_eq_columns c⟩
  all_goals
    simp only [h0, h1, h2, h3, popcount_and_mod_two]
    simp [Bool.xor_comm]

/-- Settles O19: the bits of S are the four formulas, and ODD inverts each of them. -/
theorem parityEmission : Obligations.ParityEmission := by
  intro c
  obtain ⟨h0, h1, h2, h3⟩ := getLsbD_rawSyndrome c
  refine ⟨h0, h1, h2, h3, fun j => ?_, fun j => ?_⟩
  · rw [parityOf_even]
  · rw [parityOf_odd, BitVec.getLsbD_xor]
    fin_cases j <;> simp

/-- Settles O20: two failing checks select one row of the table, and any other number leaves the byte. -/
theorem correctionFollowsTable : Obligations.CorrectionFollowsTable := by
  intro c q m
  refine ⟨fun j => ?failing, rfl, popcount_le _, popcount_eq_two_iff, correct_byte_of_two (by decide),
    correct_byte_of_two (by decide), correct_byte_of_two (by decide), correct_byte_of_two (by decide),
    correct_byte_of_two (by decide), correct_byte_of_two (by decide), fun h => by rw [correct_of_ne_two rfl h], ?flag⟩
  case failing =>
    rw [correct_fail, failMask, BitVec.getLsbD_xor]
    simp
  case flag => exact (flaggedBy_iff _).trans (by simp)

/-- Settles O21: S is linear, and a character's own quad leaves no check failing. -/
theorem cleanCharacterLaws : Obligations.CleanCharacterLaws :=
  ⟨fun c => parityOf_of_ne c (by decide), rawSyndrome_xor, rawSyndrome_zero,
    fun c m => correct_of_ne_two (failMask_parityOf c m) (by decide)⟩

/-- Settles O22: the failing checks of one flip are its position's column, whose weight decides the outcome. -/
theorem singleBitErrors : Obligations.SingleBitErrors := by
  intro c m
  refine ⟨fun p hp => ?corrected, fun p hp => ?flagged, fun e he => ?parity⟩
  case corrected =>
    obtain ⟨hcolumn, htwo, hflip⟩ := correctedFlips_spec p hp
    rw [correct_of_two ((failMask_of_dataFlip c p.1 m).trans hcolumn) htwo, hflip, BitVec.xor_assoc, BitVec.xor_self,
      BitVec.xor_zero]
  case flagged =>
    obtain ⟨hcolumn, hthree⟩ := flaggedFlips_spec p hp
    rw [correct_of_ne_two ((failMask_of_dataFlip c p.1 m).trans hcolumn) (by omega), hthree]
    rfl
  case parity =>
    have hone : popcount e = 1 := by revert e; decide
    rw [correct_of_ne_two (failMask_of_quadFlip c e m) (by omega), hone]
    rfl

/-- Settles O23: the failing checks of two flips are the exclusive or of two different columns, which is not 0; its weight decides
between a correction, which leaves one to three of the bits wrong, and the flag. -/
theorem twoBitErrors : Obligations.TwoBitErrors := by
  intro c m i j hij data check received r column'
  have hF : r.fail = column i ^^^ column j := failMask_of_two_flips c m i j
  have hne : column i ^^^ column j ≠ 0x0#4 := column_xor_ne_zero hij.ne
  refine ⟨column_ne_zero i, column_ne_zero j, column_injective.ne hij.ne, hF ▸ hne,
    popcount_mem_of_ne_zero (f := r.fail) (hF ▸ hne), fun h => ?corrected, fun h => ?flagged⟩
  case corrected =>
    have h2 : popcount (column i ^^^ column j) = 2 := hF ▸ h
    obtain ⟨hleft, hcount⟩ := two_flips_corrected i j hij h2
    have hr : r = _ := correct_of_two hF h2
    have hbyte : r.byte = c ^^^ (dataFlip i ^^^ dataFlip j ^^^ flipMask (column i ^^^ column j)) := by
      rw [hr]
      simp only [received, data, dataFlip, BitVec.xor_assoc]
    refine ⟨by rw [hr], ?_, ?_, ?_⟩
    · rw [hbyte]
      simpa using hleft
    · rw [hr]
      simpa using flipMask_ne_zero h2
    · rwa [hbyte, BitVec.xor_comm c, BitVec.xor_assoc, BitVec.xor_self, BitVec.xor_zero]
  case flagged =>
    rw [show r = _ from correct_of_ne_two hF (hF ▸ h)]
    exact ⟨flaggedBy_of_ne_two hne (hF ▸ h), rfl⟩

/-- Settles O24: the other mode complements the failing checks, and the complement of a pair is another pair. -/
theorem modeMismatch : Obligations.ModeMismatch := by
  intro c q m m' hm
  refine ⟨failMask_of_ne c q hm, ?uncorrupted, fun h => ?weightTwo⟩
  case uncorrupted =>
    refine correct_of_ne_two ?_ (by decide)
    rw [failMask_of_ne c _ hm, failMask_parityOf, BitVec.xor_zero]
  case weightTwo =>
    obtain ⟨h2, hflip⟩ := complement_of_two h
    rw [correct_of_two (failMask_of_ne c q hm) h2, correct_of_two rfl h]
    simpa using ⟨hflip, flipMask_ne_zero h2⟩

end Sys2Proof
end

section
/-! PROOFS. HAM_ENC and HAM_DEC (40_hamming_datapath.md R112, R113): their words, the words their formats reject, and the fields
of RES that each leaves. -/

namespace Sys2Proof

/-- K and POS of a word together are its bits 27 to 8 (R71). -/
theorem extractLsb'_packWord_k_pos (op k : BitVec 4) (pos : BitVec 16) (d : Byte) :
    (packWord op k pos d).extractLsb' 8 20 = k ++ pos := by
  refine BitVec.eq_of_getLsbD_eq fun i hi => ?_
  change _ = BitVec.getLsbD (k ++ pos) i
  rw [BitVec.getLsbD_extractLsb', getLsbD_packWord, BitVec.getLsbD_append]
  by_cases h : i < 16
  · simp [hi, h, show 8 + i < 24 by omega]
  · simp [hi, h, show ¬8 + i < 24 by omega, show 8 + i < 28 by omega, show 8 + i - 24 = i - 16 by omega]

/-- The commands with OP 0x8 are HAM_ENC (R74). -/
theorem eq_hamEnc_of_opField {i : Instr} (h : opField (encode i) = 0x8#4) : ∃ c, i = .hamEnc c := by
  cases i <;> simp [encode] at h ⊢

/-- The commands with OP 0x9 are HAM_DEC (R74). -/
theorem eq_hamDec_of_opField {i : Instr} (h : opField (encode i) = 0x9#4) : ∃ q c, i = .hamDec q c := by
  cases i <;> simp [encode] at h ⊢

theorem encode_hamEnc (c : Byte) : encode (.hamEnc c) = 0x80000000#32 ||| c.setWidth 32 := by
  rw [encode, packWord_eq_or]
  simp

theorem encode_hamDec (q : Quad) (c : Byte) :
    encode (.hamDec q c) = 0x90000000#32 ||| q.setWidth 32 <<< 24 ||| c.setWidth 32 := by
  rw [encode, packWord_eq_or]
  simp

/-- A word that is no command's word raises ILLEGAL_COMMAND and does nothing else (R75). -/
theorem Safety.raisesIllegal_of_encode_ne {w : Word} (h : ∀ i, encode i ≠ w) : RaisesIllegal w := by
  intro s rest hp hport
  cases hdec : decode w with
  | ok i => exact absurd (encode_of_decode hdec) (h i)
  | error e =>
    rw [Machine.step_of_illegal hport hdec, Machine.illegalWord_eq, if_neg hp]
    rfl

namespace Machine

variable {s : State}

/-- The three phases outside FAULT (R20). -/
theorem mem_phases_of_ne_fault (h : s.phase ≠ .fault) : s.phase ∈ [Phase.idle, .encoding, .decoding] := by
  cases hp : s.phase <;> simp_all

/-- Outside FAULT, HAM_ENC writes RES and nothing else (R112). -/
theorem exec_hamEnc (h : s.phase ≠ .fault) (c : Byte) : exec (.hamEnc c) s = .next (setRes (encodedRes c s.mode) s) :=
  inPhases_of_mem h (mem_phases_of_ne_fault h)

/-- Outside FAULT, HAM_DEC writes RES and nothing else (R113). -/
theorem exec_hamDec (h : s.phase ≠ .fault) (q : Quad) (c : Byte) :
    exec (.hamDec q c) s = .next (setRes (decodedRes (correct c q s.mode) q) s) :=
  inPhases_of_mem h (mem_phases_of_ne_fault h)

/-- In FAULT a command other than CLEAR has no effect (R195). -/
theorem inPhases_of_fault (ps : List Phase) (run : Result) (h : s.phase = .fault) : inPhases ps s run = .next s :=
  inPhases_eq_next.2 (.inl ⟨h, rfl⟩)

/-- RERRS holds the number of failing checks (R27, R113). -/
theorem toNat_ofNat_popcount (f : Quad) : (BitVec.ofNat 3 (popcount f)).toNat = popcount f := by
  have := popcount_le f
  rw [BitVec.toNat_ofNat]
  omega

end Machine

open Machine Safety

/-- Settles O26: outside FAULT the packed result has the byte, its quad and its printability, and every other field 0. -/
theorem hamEncWritesQuad : Obligations.HamEncWritesQuad := by
  refine ⟨fun c => decode_eq_ok_iff.2 (encode_hamEnc c),
    fun w hop hres => raisesIllegal_of_encode_ne fun i hi => ?reserved,
    fun s c hp => inPhases_of_fault _ _ hp, fun s c hp => ⟨_, exec_hamEnc hp c, rfl, ?fields⟩⟩
  case reserved =>
    subst hi
    obtain ⟨c, rfl⟩ := eq_hamEnc_of_opField hop
    exact hres (extractLsb'_packWord_k_pos _ _ _ _)
  case fields => exact packRes_fields (printable c) false 0 0#4 (parityOf c s.mode) c

/-- Settles O27: outside FAULT the packed result has the received quad and what `correct` returns. -/
theorem hamDecWritesCorrection : Obligations.HamDecWritesCorrection := by
  refine ⟨fun q c => decode_eq_ok_iff.2 (encode_hamDec q c),
    fun w hop hres => raisesIllegal_of_encode_ne fun i hi => ?reserved,
    fun s q c hp => inPhases_of_fault _ _ hp, fun s q c hp => ⟨_, exec_hamDec hp q c, rfl, ?fields⟩⟩
  case reserved =>
    subst hi
    obtain ⟨q, c, rfl⟩ := eq_hamDec_of_opField hop
    exact hres (posField_packWord _ _ _ _)
  case fields =>
    let r := correct c q s.mode
    obtain ⟨hbyte, hquad, hfail, herrs, hflag, hprint, hhigh⟩ :=
      packRes_fields (printable r.byte) r.flagged r.errors r.fail q r.byte
    exact ⟨hbyte, hquad, hfail, (congrArg BitVec.toNat herrs).trans (toNat_ofNat_popcount _), hflag, hprint, hhigh⟩

end Sys2Proof
end

section
/-! PROOFS. The commands of the encode pass (41_plane_packer.md R130 to R135): their words, the phases they are legal in, the
twelve bits of a character, and what a group leaves in the planes, a partial one included. -/

namespace Sys2Proof

/-! The words of the encode pass (R73, R74). -/

/-- The one command with OP 0x2 is ENC_BEGIN (R74). -/
theorem eq_encBegin_of_opField {i : Instr} (h : opField (encode i) = 0x2#4) : i = .encBegin := by
  cases i <;> simp [encode] at h ⊢

/-- The commands with OP 0x3 are ENC_CHAR (R74). -/
theorem eq_encChar_of_opField {i : Instr} (h : opField (encode i) = 0x3#4) : ∃ c, i = .encChar c := by
  cases i <;> simp [encode] at h ⊢

/-- The one command with OP 0x4 is ENC_END (R74). -/
theorem eq_encEnd_of_opField {i : Instr} (h : opField (encode i) = 0x4#4) : i = .encEnd := by
  cases i <;> simp [encode] at h ⊢

theorem encode_encChar (c : Byte) : encode (.encChar c) = 0x30000000#32 ||| c.setWidth 32 := by
  rw [encode, packWord_eq_or]
  simp

namespace Machine

variable {s : State}

/-! The phases (R192). -/

/-- Outside FAULT, in a phase in which it is not legal, a command raises SEQUENCE and does nothing else (R191, R192). -/
theorem exec_of_not_mem_gatePhases {i : Instr} (hp : s.phase ≠ .fault) (hgate : s.phase ∉ gatePhases i) :
    exec i s = .next (raiseFault .sequence s) := by
  cases i with
  | clear => cases hphase : s.phase <;> simp [gatePhases, hphase] at hgate
  | _ => exact inPhases_eq_next.2 (.inr (.inr ⟨hp, hgate, rfl⟩))

/-- The same, where the phase is one of two that are not legal. -/
theorem exec_of_phase_or {i : Instr} {p q : Phase} (hs : s.phase = p ∨ s.phase = q) (hp : p ≠ .fault ∧ p ∉ gatePhases i)
    (hq : q ≠ .fault ∧ q ∉ gatePhases i) : exec i s = .next (raiseFault .sequence s) := by
  rcases hs with rfl | rfl
  · exact exec_of_not_mem_gatePhases hp.1 hp.2
  · exact exec_of_not_mem_gatePhases hq.1 hq.2

/-- At the bound ENC_CHAR raises SIZE_EXCEEDED and does nothing else (R134). -/
theorem exec_encChar_of_full (hp : s.phase = .encoding) (hn : s.n.toNat = s.maxN) (c : Byte) :
    exec (.encChar c) s = .next (raiseFault .sizeExceeded s) := by
  change inPhases [.encoding] s _ = _
  rw [inPhases_of_mem (by simp [hp]) (by simp [hp]), if_pos hn]

/-! The twelve bits of a character (R130, R151). -/

theorem planeBits_of_lt (c : Byte) (m : Parity) (k : Fin 12) (hk : k.val < 8) : (planeBits c m)[k] = c.getMsbD k.val := by
  simp [planeBits, hk]

theorem planeBits_of_ge (c : Byte) (m : Parity) (k : Fin 12) (hk : 8 ≤ k.val) :
    (planeBits c m)[k] = (parityOf c m).getLsbD (k.val - 8) := by
  simp [planeBits, Nat.not_lt.2 hk]

/-- Bit j of a slot's byte, counted from the MSB, is the slot's bit of plane j (R151). -/
theorem getMsbD_slotByte (g : Vector Bool 12) (j : Fin 8) : (slotByte g).getMsbD j.val = g[j.val] := by
  rw [slotByte, getMsbD_byteOf]
  fin_cases j <;> rfl

/-- A character's own slot gives the character back. -/
theorem slotByte_planeBits (c : Byte) (m : Parity) : slotByte (planeBits c m) = c :=
  BitVec.eq_of_getMsbD_eq fun j hj =>
    (getMsbD_slotByte _ ⟨j, hj⟩).trans (planeBits_of_lt c m ⟨j, by omega⟩ hj)

/-- A character's own slot gives the emitted quad back. -/
theorem slotQuad_planeBits (c : Byte) (m : Parity) : slotQuad (planeBits c m) = parityOf c m := by
  obtain ⟨h0, h1, h2, h3⟩ :=
    getLsbD_quadOf (planeBits c m)[8] (planeBits c m)[9] (planeBits c m)[10] (planeBits c m)[11]
  exact quad_ext (h0.trans (planeBits_of_ge c m 8 (by decide))) (h1.trans (planeBits_of_ge c m 9 (by decide)))
    (h2.trans (planeBits_of_ge c m 10 (by decide))) (h3.trans (planeBits_of_ge c m 11 (by decide)))

/-! The group (R134, R135). -/

/-- The bit that a character brings to its plane's accumulator (R134). -/
theorem setWidth_ofBool (b : Bool) : (BitVec.ofBool b).setWidth 8 = if b then 0x01#8 else 0x00#8 := by
  cases b <;> rfl

theorem leftAlign_get (acc : Vector Byte 12) (ecnt : BitVec 3) (k : Fin 12) :
    (leftAlign acc ecnt)[k] = acc[k] <<< (8 - ecnt.toNat) := by
  simp [leftAlign]

end Machine

namespace Safety

open Machine

/-! The packing at its two ends (R131 to R135). -/

/-- A slot at or beyond the end of the message is a padding slot (R132). -/
theorem slotOf_of_length_le {message : List Byte} {i : Nat} (h : message.length ≤ i) (m : Parity) (k : Fin 12) :
    slotOf message m k i = false := by
  simp [slotOf, h]

/-- Aligned left, the pending bits of a plane are the byte of R131: the bits the shift fills with 0 are padding slots. -/
theorem pending_leftAlign (message : List Byte) (m : Parity) (k : Fin 12) :
    (packedByte message m k (message.length / 8) >>> (8 - message.length % 8)) <<< (8 - message.length % 8) =
      packedByte message m k (message.length / 8) := by
  refine BitVec.eq_of_getLsbD_eq fun i hi => ?_
  rw [BitVec.getLsbD_shiftLeft, BitVec.getLsbD_ushiftRight]
  by_cases hpad : i < 8 - message.length % 8
  case pos =>
    rw [getLsbD_packedByte message m k _ hi, slotOf_of_length_le (by omega)]
    simp [hpad]
  case neg =>
    rw [Nat.add_sub_cancel' (Nat.not_lt.1 hpad)]
    simp [hi, hpad]

/-- ENC_BEGIN leaves the packing of the empty message (R133). -/
theorem packing_beginEncode {s : State} (h : s.maxN ≤ 524280) : Packing [] (beginEncode s) where
  phase := rfl
  bound := ⟨h, Nat.zero_le _⟩
  count := rfl
  groups := rfl
  pending := rfl
  planes := fun _ pos hpos => absurd hpos (Nat.not_lt_zero pos)
  group k := by
    rw [beginEncode_acc, emptyAcc_get, List.length_nil, BitVec.ushiftRight_eq_zero (Nat.le_refl 8)]

section Packing

variable {message : List Byte} {s : State} (h : Packing message s)
include h

/-- A pending group has room in the buffers (R52, R135). -/
theorem Packing.nbyte_lt (hpend : message.length % 8 ≠ 0) : s.nbyte.toNat < planeBytes s := by
  have hbound := h.bound.2
  rw [h.groups, planeBytes_eq]
  omega

/-- The pending group, stored left-aligned, holds the rest of the message (R131, R135). -/
theorem Packing.planesHold_partial {t : State}
    (ht : t.plane = Memory.writeGroup s.nbyte.toNat (leftAlign s.acc s.ecnt) planeIndices s.plane) :
    PlanesHold message s.mode (message.length / 8 + 1) t := by
  intro k pos hpos
  have hgroups := h.groups
  rcases Nat.lt_succ_iff_lt_or_eq.1 hpos with hlt | rfl
  · rw [readPlane_writeGroup_of_lt ht s.nbyte.isLt (by omega)]
    exact h.planes k pos hlt
  · rw [← hgroups, readPlane_writeGroup_self ht, leftAlign_get, h.group k, h.pending, pending_leftAlign, hgroups]

end Packing

end Safety

open Machine Safety

/-- Settles O25: the slot's bits are the byte's and the quad's own bits, which make them up again. -/
theorem planeBitsOfCharacter : Obligations.PlaneBitsOfCharacter := by
  refine fun c m => ⟨fun k hk => ?_, planeBits_of_ge c m, slotByte_planeBits c m, slotQuad_planeBits c m⟩
  rw [planeBits_of_lt c m k hk, BitVec.getMsbD_eq_getLsbD]
  simp [hk]

/-- Settles O30: in IDLE the command has its own effect, which writes the five registers of a pass. -/
theorem encBeginStartsPass : Obligations.EncBeginStartsPass := by
  refine ⟨decode_encode .encBegin, fun w hop hne => raisesIllegal_of_encode_ne fun i hi => ?illegal,
    fun s => ⟨fun hp => ?idle, fun hp => ?pass⟩⟩
  case illegal =>
    subst hi
    obtain rfl := eq_encBegin_of_opField hop
    exact hne rfl
  case idle => exact ⟨_, exec_of_ownEffect (i := .encBegin) (by simp [gatePhases, hp]) rfl, emptyAcc_get, rfl⟩
  case pass => exact exec_of_phase_or hp (by simp [gatePhases]) (by simp [gatePhases])

/-- Settles O33: the pass that ENC_BEGIN starts has taken no character. -/
theorem encBeginPacksEmptyMessage : Obligations.EncBeginPacksEmptyMessage := fun _ hp hmax =>
  ⟨_, exec_of_ownEffect (i := .encBegin) (by simp [gatePhases, hp]) rfl, packing_beginEncode hmax, rfl⟩

/-- Settles O31: below the bound the character is shifted in, and the eighth one stores the shifted group and no other byte. -/
theorem encCharPacksCharacter : Obligations.EncCharPacksCharacter := by
  refine ⟨fun c => decode_eq_ok_iff.2 (encode_encChar c), fun w hop hres => raisesIllegal_of_encode_ne fun i hi => ?illegal,
    fun s c hp => ?sequence, ?encoding⟩
  case illegal =>
    subst hi
    obtain ⟨c, rfl⟩ := eq_encChar_of_opField hop
    exact hres (extractLsb'_packWord_k_pos _ _ _ _)
  case sequence => exact exec_of_phase_or hp (by simp [gatePhases]) (by simp [gatePhases])
  case encoding =>
    intro s c hp shifted
    have hgate : s.phase ∈ gatePhases (.encChar c) := by simp [gatePhases, hp]
    have hshifted (k : Fin 12) : (shiftIn s.acc (planeBits c s.mode))[k] = shifted k := by
      rw [shiftIn_get, setWidth_ofBool]
    refine ⟨fun hn => exec_encChar_of_full hp hn c, fun hn hopen => ?join, fun hn hfull hroom => ?store⟩
    case join => exact ⟨_, exec_of_ownEffect hgate ⟨hn, .inl ⟨hopen, rfl⟩⟩, rfl, hshifted⟩
    case store =>
      rw [← planeBytes_eq] at hroom
      refine ⟨_, exec_of_ownEffect hgate ⟨hn, .inr ⟨hfull, hroom, rfl⟩⟩, rfl, emptyAcc_get, fun k => ?_,
        fun a ha => byteAt_writeGroup_of_ne _ _ _ _ fun k _ => ha k⟩
      rw [readPlane_writeGroup_self (s := s) rfl, hshifted]

/-- Settles O32: a pending group is stored left-aligned and no other byte is, and the pass ends with nothing pending. -/
theorem encEndStoresPartialGroup : Obligations.EncEndStoresPartialGroup := by
  refine ⟨decode_encode .encEnd, fun w hop hne => raisesIllegal_of_encode_ne fun i hi => ?illegal, fun s hp => ?sequence,
    fun s hp => ⟨fun hzero => ?whole, fun hpend hroom => ?part⟩⟩
  case illegal =>
    subst hi
    obtain rfl := eq_encEnd_of_opField hop
    exact hne rfl
  case sequence => exact exec_of_phase_or hp (by simp [gatePhases]) (by simp [gatePhases])
  case whole =>
    exact ⟨_, (exec_encEnd_eq_next hp).2 (.inl ⟨hzero, rfl⟩), by simp only [hzero], emptyAcc_get⟩
  case part =>
    rw [← planeBytes_eq] at hroom
    refine ⟨_, (exec_encEnd_eq_next hp).2 (.inr ⟨hpend, hroom, rfl⟩), rfl, emptyAcc_get, fun k => ?_,
      fun a ha => byteAt_writeGroup_of_ne _ _ _ _ fun k _ => ha k⟩
    rw [readPlane_writeGroup_self (s := s) rfl, leftAlign_get]

/-- Settles O35: the completed groups are in the planes, and the pending one, if there is one, is stored as their last byte. -/
theorem encEndLeavesPackedPlanes : Obligations.EncEndLeavesPackedPlanes := by
  intro s message h
  have hgroups := h.groups
  have hpending := h.pending
  by_cases hzero : s.ecnt = 0#3
  case pos =>
    have hmod : message.length % 8 = 0 := by rw [← hpending, hzero]; rfl
    have hceil : (message.length + 7) / 8 = message.length / 8 := by omega
    rw [hceil]
    exact ⟨_, (exec_encEnd_eq_next h.phase).2 (.inl ⟨hzero, rfl⟩), rfl, hgroups, h.count, rfl, h.planes⟩
  case neg =>
    have hmod : message.length % 8 ≠ 0 := fun heq => hzero (BitVec.eq_of_toNat_eq (hpending.trans heq))
    have hceil : (message.length + 7) / 8 = message.length / 8 + 1 := by omega
    rw [hceil]
    refine ⟨_, (exec_encEnd_eq_next h.phase).2 (.inr ⟨hzero, h.nbyte_lt hmod, rfl⟩), rfl, ?nbyte, h.count, rfl,
      h.planesHold_partial rfl⟩
    have hmax := h.bound
    simp only [BitVec.toNat_add, BitVec.toNat_ofNat]
    omega

end Sys2Proof
end

section
/-! PROOFS. The decode pass (42_plane_unpacker.md R150 to R158): the words of its commands, DEC_BEGIN's operand check, the slot
that DEC_CHAR reads, and what it gives of a packed message, padding slots included. -/

namespace Sys2Proof

/-! The words of the decode pass (R73, R74). -/

/-- The commands with OP 0x5 are DEC_BEGIN (R74). -/
theorem eq_decBegin_of_opField {i : Instr} (h : opField (encode i) = 0x5#4) : ∃ nbyte, i = .decBegin nbyte := by
  cases i <;> simp [encode] at h ⊢

/-- The one command with OP 0x6 is DEC_CHAR (R74). -/
theorem eq_decChar_of_opField {i : Instr} (h : opField (encode i) = 0x6#4) : i = .decChar := by
  cases i <;> simp [encode] at h ⊢

/-- The one command with OP 0x7 is DEC_END (R74). -/
theorem eq_decEnd_of_opField {i : Instr} (h : opField (encode i) = 0x7#4) : i = .decEnd := by
  cases i <;> simp [encode] at h ⊢

theorem encode_decBegin (nbyte : BitVec 16) : encode (.decBegin nbyte) = 0x50000000#32 ||| nbyte.setWidth 32 <<< 8 := by
  rw [encode, packWord_eq_or]
  simp

namespace Machine

variable {s : State}

/-! DEC_BEGIN's operand check (R153). -/

theorem lengthFault_of_zero {nbyte : BitVec 16} (h : nbyte.toNat = 0) : lengthFault s nbyte = .emptyInput :=
  if_pos (BitVec.eq_of_toNat_eq h)

theorem lengthFault_of_planeBytes_lt {nbyte : BitVec 16} (h : planeBytes s < nbyte.toNat) :
    lengthFault s nbyte = .planeRange := by
  have hne : nbyte ≠ 0#16 := by
    rintro rfl
    exact Nat.not_lt_zero _ h
  rw [lengthFault, if_neg hne, if_pos h]

/-- In IDLE, DEC_BEGIN raises what its operand check finds and does nothing else (R153, R194). -/
theorem exec_decBegin_of_lengthFault {nbyte : BitVec 16} {code : ErrCode} (hp : s.phase = .idle)
    (hfault : lengthFault s nbyte = code) (hcode : code ≠ .none) :
    exec (.decBegin nbyte) s = .next (raiseFault code s) := by
  change inPhases [.idle] s _ = _
  rw [inPhases_of_mem (by simp [hp]) (by simp [hp]), hfault, if_neg hcode]

/-! DEC_CHAR at the end of the pass and on a slot of it (R150, R154). -/

/-- Past the last slot DEC_CHAR raises DECODE_OVERRUN and does nothing else (R154). -/
theorem exec_decChar_of_overrun (hp : s.phase = .decoding) (hend : s.dpos.toNat = 8 * s.nbyte.toNat) :
    exec .decChar s = .next (raiseFault .decodeOverrun s) := by
  change inPhases [.decoding] s _ = _
  rw [inPhases_of_mem (by simp [hp]) (by simp [hp]), if_pos hend]

/-- On a slot that can be read DEC_CHAR delivers it (R154). -/
theorem exec_decChar_of_readSlot {g : Vector Bool 12} (hp : s.phase = .decoding) (hd : s.dpos.toNat ≠ 8 * s.nbyte.toNat)
    (hslot : readSlot s s.dpos.toNat = .ok g) : exec .decChar s = .next (deliverSlot g s) :=
  exec_of_ownEffect (i := .decChar) (by simp [gatePhases, hp]) ⟨hd, g, hslot, rfl⟩

/-- The bits of a group's twelve bytes at place j, counted from the MSB: one slot of the group (R150). -/
def groupSlot (bytes : Vector Byte 12) (j : Nat) : Vector Bool 12 := Vector.ofFn fun k => bytes[k].getMsbD j

theorem groupSlot_get (bytes : Vector Byte 12) {j : Nat} (hj : j < 8) (k : Fin 12) :
    (groupSlot bytes j)[k] = bytes[k].getLsbD (7 - j) := by
  simp [groupSlot, BitVec.getMsbD_eq_getLsbD, hj]

/-- A slot whose twelve bytes are written is read as their slot `i mod 8` (R150). -/
theorem readSlot_of_written {i : Nat} {bytes : Vector Byte 12} (hpos : i / 8 < planeBytes s)
    (hbytes : ∀ k : Fin 12, readPlane s k.val (i / 8) = some bytes[k]) : readSlot s i = .ok (groupSlot bytes (i % 8)) :=
  readSlot_eq_ok.2 ⟨bytes, readGroup_eq_ok.2 ⟨hpos, hbytes⟩, rfl⟩

/-! The character and the quad of a slot, bit by bit (R151). -/

theorem slotByte_eq {g : Vector Bool 12} {c : Byte} (h : ∀ k : Fin 12, k.val < 8 → c.getMsbD k.val = g[k]) :
    slotByte g = c :=
  BitVec.eq_of_getMsbD_eq fun j hj => (getMsbD_slotByte g ⟨j, hj⟩).trans (h ⟨j, by omega⟩ hj).symm

theorem slotQuad_eq {g : Vector Bool 12} {q : Quad} (h : ∀ k : Fin 12, 8 ≤ k.val → q.getLsbD (k.val - 8) = g[k]) :
    slotQuad g = q := by
  obtain ⟨h0, h1, h2, h3⟩ := getLsbD_quadOf g[8] g[9] g[10] g[11]
  exact quad_ext (h0.trans (h 8 (by decide)).symm) (h1.trans (h 9 (by decide)).symm) (h2.trans (h 10 (by decide)).symm)
    (h3.trans (h 11 (by decide)).symm)

/-- In a padding slot all twelve bits are 0, and so are the character and the quad (R157). -/
theorem slotByte_padding : slotByte (Vector.replicate 12 false) = 0x00#8 := by decide

theorem slotQuad_padding : slotQuad (Vector.replicate 12 false) = 0x0#4 := by decide

/-! What a decoded slot leaves (R27, R154, R156). -/

/-- Every field of RES after a decoded character (R27, R154). -/
theorem decodedRes_fields (c : Byte) (q : Quad) (m : Parity) :
    let r := correct c q m
    (decodedRes r q).extractLsb' 0 8 = r.byte ∧ (decodedRes r q).extractLsb' 8 4 = q ∧
      (decodedRes r q).extractLsb' 12 4 = r.fail ∧ ((decodedRes r q).extractLsb' 16 3).toNat = r.errors ∧
      (decodedRes r q).getLsbD 19 = r.flagged ∧ (decodedRes r q).getLsbD 20 = printable r.byte ∧
      (decodedRes r q).extractLsb' 21 11 = 0#11 := by
  intro r
  obtain ⟨hbyte, hquad, hfail, herrs, hflag, hprint, hhigh⟩ :=
    packRes_fields (printable r.byte) r.flagged r.errors r.fail q r.byte
  exact ⟨hbyte, hquad, hfail, (congrArg BitVec.toNat herrs).trans (toNat_ofNat_popcount _), hflag, hprint, hhigh⟩

theorem printable_iff {c : Byte} : printable c = true ↔ 0x20 ≤ c.toNat ∧ c.toNat ≤ 0x7E := by
  simp [printable]

/-- The host prints RBYTE exactly when RPRINT says that it is printable (R111, R156). -/
theorem printedByte_decodedRes (r : Corrected) (q : Quad) :
    printedByte (decodedRes r q) = if 0x20 ≤ r.byte.toNat ∧ r.byte.toNat ≤ 0x7E then some r.byte else none := by
  obtain ⟨hbyte, -, -, -, -, hprint, -⟩ := packRes_fields (printable r.byte) r.flagged r.errors r.fail q r.byte
  simp only [printedByte, decodedRes, hbyte, hprint, printable_iff]

/-- The warning is due exactly when FLAG_ANY is set (R24, R156). -/
theorem warningDue_eq (s : State) : warningDue s = s.flagAny := statusWord_flagAny s

/-- An uncorrupted character fails no check (R114). -/
theorem correct_parityOf (c : Byte) (m : Parity) : correct c (parityOf c m) m = ⟨c, 0x0#4, 0, false⟩ :=
  correct_of_ne_two (failMask_parityOf c m) (by decide)

/-- What a slot leaves when its character and its quad are known: RES, FLAG_ANY and DPOS alone (R154). -/
theorem deliverSlot_eq {g : Vector Bool 12} {c : Byte} {q : Quad} (hbyte : slotByte g = c) (hquad : slotQuad g = q) :
    deliverSlot g s =
      { s with
        res := decodedRes (correct c q s.mode) q, flagAny := s.flagAny || (correct c q s.mode).flagged,
        dpos := s.dpos + 1#20 } := by
  subst hbyte hquad
  rfl

/-- A character's own slot leaves that character with no failing check, and FLAG_ANY as it was (R114, R154). -/
theorem deliverSlot_planeBits (c : Byte) (s : State) :
    deliverSlot (planeBits c s.mode) s =
      { s with res := decodedRes ⟨c, 0x0#4, 0, false⟩ (parityOf c s.mode), dpos := s.dpos + 1#20 } := by
  rw [deliverSlot_eq (slotByte_planeBits c s.mode) (slotQuad_planeBits c s.mode), correct_parityOf, Bool.or_false]

/-- Under EVEN a padding slot leaves RES 0 and FLAG_ANY as it was (R157). -/
theorem deliverSlot_padding_even (hmode : s.mode = .even) :
    deliverSlot (Vector.replicate 12 false) s = { s with res := 0x00000000#32, dpos := s.dpos + 1#20 } := by
  have hcorrect : correct 0x00#8 0x0#4 .even = ⟨0x00#8, 0x0#4, 0, false⟩ := by decide
  have hres : decodedRes ⟨0x00#8, 0x0#4, 0, false⟩ 0x0#4 = 0x00000000#32 := by decide
  rw [deliverSlot_eq slotByte_padding slotQuad_padding, hmode, hcorrect, hres, Bool.or_false]

/-- Under ODD all four checks of a padding slot fail, and it is flagged (R157). -/
theorem deliverSlot_padding_odd (hmode : s.mode = .odd) :
    deliverSlot (Vector.replicate 12 false) s =
      { s with res := 0x000CF000#32, flagAny := true, dpos := s.dpos + 1#20 } := by
  have hcorrect : correct 0x00#8 0x0#4 .odd = ⟨0x00#8, 0xF#4, 4, true⟩ := by decide
  have hres : decodedRes ⟨0x00#8, 0xF#4, 4, true⟩ 0x0#4 = 0x000CF000#32 := by decide
  rw [deliverSlot_eq slotByte_padding slotQuad_padding, hmode, hcorrect, hres, Bool.or_true]

end Machine

namespace Safety

open Machine

/-! The slots of planes that hold a message (R131, R150, R157). -/

/-- The twelve bits of slot i when the planes hold `message` under mode m (R130, R132). -/
def messageSlot (message : List Byte) (m : Parity) (i : Nat) : Vector Bool 12 := Vector.ofFn fun k => slotOf message m k i

/-- The slot of a character carries its plane bits (R130). -/
theorem messageSlot_of_getElem? {message : List Byte} {i : Nat} {c : Byte} (h : message[i]? = some c) (m : Parity) :
    messageSlot message m i = planeBits c m := by
  ext k hk
  simp [messageSlot, slotOf, h]

/-- A padding slot carries zeros (R157). -/
theorem messageSlot_of_length_le {message : List Byte} {i : Nat} (h : message.length ≤ i) (m : Parity) :
    messageSlot message m i = Vector.replicate 12 false := by
  ext k hk
  simp [messageSlot, slotOf_of_length_le h]

/-- The planes' slot i is the message's slot i: the unpacking of R150 undoes the packing of R131. -/
theorem PlanesHold.readSlot_eq {message : List Byte} {m : Parity} {count i : Nat} {s : State}
    (h : PlanesHold message m count s) (hcount : count ≤ planeBytes s) (hi : i < 8 * count) :
    readSlot s i = .ok (messageSlot message m i) := by
  have hpos : i / 8 < count := by omega
  rw [readSlot_of_written (bytes := Vector.ofFn fun k => packedByte message m k (i / 8)) (hpos.trans_le hcount)
    fun k => by simpa using h k _ hpos]
  congr 1
  ext k hk
  simp [groupSlot, messageSlot, getMsbD_packedByte _ _ _ _ (Nat.mod_lt i (by decide)), Nat.div_add_mod]

/-- In a pass over the planes of a message DEC_CHAR delivers the message's slot at DPOS (R154). -/
theorem PlanesHold.exec_decChar {message : List Byte} {s : State} (h : PlanesHold message s.mode s.nbyte.toNat s)
    (hp : s.phase = .decoding) (hmax : message.length ≤ s.maxN) (hnbyte : s.nbyte.toNat = (message.length + 7) / 8)
    (hd : s.dpos.toNat < 8 * s.nbyte.toNat) :
    exec .decChar s = .next (deliverSlot (messageSlot message s.mode s.dpos.toNat) s) := by
  have hcount : s.nbyte.toNat ≤ planeBytes s := by
    rw [hnbyte, planeBytes_eq]
    omega
  exact exec_decChar_of_readSlot hp hd.ne (h.readSlot_eq hcount hd)

end Safety

open Machine Safety

/-- Settles O38: in IDLE the operand check raises its fault, or the command has its own effect. -/
theorem decBeginStartsPass : Obligations.DecBeginStartsPass := by
  refine ⟨fun nbyte => decode_eq_ok_iff.2 (encode_decBegin nbyte),
    fun w hop hres => raisesIllegal_of_encode_ne fun i hi => ?illegal,
    fun s nbyte => ⟨fun hp hzero => ?empty, fun hp hlong => ?range, fun hp hpos hle => ?begin, fun hp => ?pass⟩⟩
  case illegal =>
    subst hi
    obtain ⟨nbyte, rfl⟩ := eq_decBegin_of_opField hop
    exact hres.elim (absurd (kField_packWord _ _ _ _)) (absurd (dField_packWord _ _ _ _))
  case empty => exact exec_decBegin_of_lengthFault hp (lengthFault_of_zero hzero) (by decide)
  case range =>
    rw [← planeBytes_eq] at hlong
    exact exec_decBegin_of_lengthFault hp (lengthFault_of_planeBytes_lt hlong) (by decide)
  case begin =>
    rw [← planeBytes_eq] at hle
    have hne : nbyte ≠ 0#16 := by
      rintro rfl
      exact absurd hpos (by decide)
    exact exec_of_ownEffect (i := .decBegin nbyte) (by simp [gatePhases, hp]) ⟨lengthFault_eq_none.2 ⟨hne, hle⟩, rfl⟩
  case pass => exact exec_of_phase_or hp (by simp [gatePhases]) (by simp [gatePhases])

/-- Settles O39: the slot that is read is the one whose bits make up the character and the quad. -/
theorem decCharDecodesSlot : Obligations.DecCharDecodesSlot := by
  refine ⟨decode_encode .decChar, fun w hop hne => raisesIllegal_of_encode_ne fun i hi => ?illegal, fun s hp => ?sequence,
    fun s hp => ⟨exec_decChar_of_overrun hp, fun bytes c q hd hpos hbytes hc hq => ?slot⟩⟩
  case illegal =>
    subst hi
    obtain rfl := eq_decChar_of_opField hop
    exact hne rfl
  case sequence => exact exec_of_phase_or hp (by simp [gatePhases]) (by simp [gatePhases])
  case slot =>
    rw [← planeBytes_eq] at hpos
    have hmod : s.dpos.toNat % 8 < 8 := Nat.mod_lt _ (by decide)
    have hbyte : slotByte (groupSlot bytes (s.dpos.toNat % 8)) = c := slotByte_eq fun k hk => by
      rw [groupSlot_get _ hmod, ← hc k hk, BitVec.getMsbD_eq_getLsbD]
      simp [hk]
    have hquad : slotQuad (groupSlot bytes (s.dpos.toNat % 8)) = q := slotQuad_eq fun k hk => by
      rw [groupSlot_get _ hmod, hq k hk]
    have hexec := exec_decChar_of_readSlot hp hd (readSlot_of_written hpos hbytes)
    rw [deliverSlot_eq hbyte hquad] at hexec
    exact ⟨_, hexec, rfl, decodedRes_fields c q s.mode⟩

/-- Settles O40: DEC_END has its own effect wherever it is legal, with no check of DPOS. -/
theorem decEndEndsPass : Obligations.DecEndEndsPass := by
  refine ⟨decode_encode .decEnd, fun w hop hne => raisesIllegal_of_encode_ne fun i hi => ?illegal,
    fun s => ⟨fun hp => ?decoding, fun hp => ?sequence⟩⟩
  case illegal =>
    subst hi
    obtain rfl := eq_decEnd_of_opField hop
    exact hne rfl
  case decoding => exact exec_of_ownEffect (i := .decEnd) (by simp [gatePhases, hp]) rfl
  case sequence => exact exec_of_phase_or hp (by simp [gatePhases]) (by simp [gatePhases])

/-- Settles O41: the slot at DPOS carries the character's own plane bits, which fail no check. -/
theorem decCharRecoversMessage : Obligations.DecCharRecoversMessage := by
  intro s message c hp hmax hnbyte hplanes hchar
  obtain ⟨hlt, -⟩ := List.getElem?_eq_some_iff.1 hchar
  have hexec := hplanes.exec_decChar hp hmax hnbyte (by omega)
  rw [messageSlot_of_getElem? hchar, deliverSlot_planeBits] at hexec
  obtain ⟨hbyte, -, -, -, hflag, -, -⟩ := packRes_fields (printable c) false 0 0x0#4 (parityOf c s.mode) c
  exact ⟨_, hexec, rfl, rfl, hbyte, hflag, printedByte_decodedRes _ _⟩

/-- Settles O42: a padding slot's zeros are the character 0x00's own bits under EVEN, and fail all four checks under ODD. -/
theorem paddingSlotsUnderEachMode : Obligations.PaddingSlotsUnderEachMode := by
  intro s message hp hmax hnbyte hplanes hpad hd
  have hexec := hplanes.exec_decChar hp hmax hnbyte hd
  rw [messageSlot_of_length_le hpad] at hexec
  cases hmode : s.mode
  case even =>
    have hprint : printedByte 0x00000000#32 = none := by decide
    rw [deliverSlot_padding_even hmode] at hexec
    exact ⟨_, hexec, rfl, hprint, fun _ => ⟨rfl, rfl⟩, nofun⟩
  case odd =>
    have hprint : printedByte 0x000CF000#32 = none := by decide
    rw [deliverSlot_padding_odd hmode] at hexec
    exact ⟨_, hexec, rfl, hprint, nofun, fun _ => ⟨rfl, rfl, warningDue_eq _⟩⟩

/-- Settles O53: RPRINT is the byte's printability and RBYTE the byte. -/
theorem outputFilterPrintsPrintable : Obligations.OutputFilterPrintsPrintable := printedByte_decodedRes

end Sys2Proof
end

section
/-! PROOFS. The host's access to the planes and the control commands (43_buffer_and_control.md R170 to R174): their words, the
location check that PLANE_WR and PLANE_RD share, and the byte each moves. -/

namespace Sys2Proof

/-! The words of the buffer and control commands (R73, R74). -/

/-- The one command with OP 0x0 is NOP (R74). -/
theorem eq_nop_of_opField {i : Instr} (h : opField (encode i) = 0x0#4) : i = .nop := by
  cases i <;> simp [encode] at h ⊢

/-- The commands with OP 0x1 are SETMODE (R74). -/
theorem eq_setMode_of_opField {i : Instr} (h : opField (encode i) = 0x1#4) : ∃ m, i = .setMode m := by
  cases i <;> simp [encode] at h ⊢

/-- The commands with OP 0xB are PLANE_RD (R74). -/
theorem eq_planeRd_of_opField {i : Instr} (h : opField (encode i) = 0xB#4) : ∃ k pos, i = .planeRd k pos := by
  cases i <;> simp [encode] at h ⊢

/-- The one command with OP 0xC is CLEAR (R74). -/
theorem eq_clear_of_opField {i : Instr} (h : opField (encode i) = 0xC#4) : i = .clear := by
  cases i <;> simp [encode] at h ⊢

/-- SETMODE's word is 0 between OP and the mode's bit (R73). -/
theorem extractLsb'_encode_setMode (m : Parity) : (encode (.setMode m)).extractLsb' 1 27 = 0#27 := by
  cases m <;> decide

theorem encode_planeWr (k : BitVec 4) (pos : BitVec 16) (c : Byte) :
    encode (.planeWr k pos c) =
      0xA0000000#32 ||| k.setWidth 32 <<< 24 ||| pos.setWidth 32 <<< 8 ||| c.setWidth 32 := by
  rw [encode, packWord_eq_or]
  simp

theorem encode_planeRd (k : BitVec 4) (pos : BitVec 16) :
    encode (.planeRd k pos) = 0xB0000000#32 ||| k.setWidth 32 <<< 24 ||| pos.setWidth 32 <<< 8 := by
  rw [encode, packWord_eq_or]
  simp

/-- PLANE_WR's format reserves no bit: a word with OP 0xA is PLANE_WR of its own fields (R73). -/
theorem decode_of_opField_planeWr {w : Word} (h : opField w = 0xA#4) :
    decode w = .ok (.planeWr (kField w) (posField w) (dField w)) :=
  decode_eq_ok_iff.2 (packWord_eq h rfl rfl rfl)

namespace Machine

variable {s : State}

/-- A word that is no command's word is taken, and answered as an illegal word (R75). -/
theorem step_of_encode_ne {w : Word} {rest : List HostEvent} (hport : s.port = .command w :: rest)
    (h : ∀ i, encode i ≠ w) : step s = illegalWord { s with port := rest } := by
  cases hdec : decode w with
  | ok i => exact absurd (encode_of_decode hdec) (h i)
  | error e => exact step_of_illegal hport hdec

/-- NOP changes nothing: in FAULT it has no effect, and in every other phase its effect is none (R173, R195). -/
theorem exec_nop (s : State) : exec .nop s = .next s := by
  by_cases hp : s.phase = .fault
  · exact inPhases_of_fault _ _ hp
  · exact inPhases_of_mem hp (mem_phases_of_ne_fault hp)

/-! The location check (R191). -/

/-- In IDLE a command with a location check that fails raises PLANE_RANGE, whatever it does at a location that exists. -/
theorem inPhases_of_outside {k : BitVec 4} {pos : BitVec 16} (run : Result) (hp : s.phase = .idle)
    (hout : 12 ≤ k.toNat ∨ (s.maxN + 7) / 8 ≤ pos.toNat) :
    inPhases [.idle] s (if locationInRange s k pos then run else .next (raiseFault .planeRange s)) =
      .next (raiseFault .planeRange s) := by
  have hrange : ¬locationInRange s k pos = true := by
    rw [locationInRange_iff]
    omega
  rw [inPhases_of_mem (by simp [hp]) (by simp [hp]), if_neg hrange]

/-! The byte PLANE_WR writes and the byte PLANE_RD reads (R52, R170, R171). -/

theorem readPlane_writePlane_self (k pos : Nat) (v : Byte) (s : State) : readPlane (writePlane k pos v s) k pos = some v := by
  rw [readPlane, writePlane_plane, byteAt_write_self]

/-- RES[31:8] is 0 after PLANE_RD (R171). -/
theorem byteRes_high (b : Byte) : (byteRes b).extractLsb' 8 24 = 0#24 := by
  refine BitVec.eq_of_getLsbD_eq fun i hi => ?_
  simp [byteRes]

/-- In IDLE, PLANE_RD of a byte that was never written stops the model there (R36, R171). -/
theorem exec_planeRd_of_unwritten {k : BitVec 4} {pos : BitVec 16} (hp : s.phase = .idle)
    (hrange : locationInRange s k pos = true) (hnone : readPlane s k.toNat pos.toNat = none) :
    exec (.planeRd k pos) s = .fault (.neverWritten k.toNat pos.toNat) := by
  refine inPhases_eq_fault.2 ⟨by simp [hp], by simp [hp], ?_⟩
  rw [if_pos hrange, fetchPlane, hnone]

end Machine

open Machine Safety

/-- Settles O12: CLEAR passes no phase check and resets the registers only; its word is the one word of its OP that decodes. -/
theorem clearKeepsPlanes : Obligations.ClearKeepsPlanes := by
  refine ⟨decode_encode .clear, fun w hop hne => ?illegal, fun s => ?clear⟩
  case illegal =>
    have hword (i : Instr) : encode i ≠ w := by
      rintro rfl
      obtain rfl := eq_clear_of_opField hop
      exact hne rfl
    refine ⟨raisesIllegal_of_encode_ne hword, fun s rest hp hport => ?_⟩
    rw [step_of_encode_ne hport hword, illegalWord_eq, if_pos hp]
  case clear => exact ⟨_, exec_clear s, atReset_resetRegisters s, by simp⟩

/-- Settles O28: NOP has no effect in any phase, and its word is the one word of its OP that decodes. -/
theorem nopChangesNothing : Obligations.NopChangesNothing := by
  refine ⟨decode_encode .nop, fun w hop hne => raisesIllegal_of_encode_ne fun i hi => ?_, exec_nop⟩
  subst hi
  obtain rfl := eq_nop_of_opField hop
  exact hne rfl

/-- Settles O29: in IDLE the command has its own effect, which writes MODE. -/
theorem setModeWritesMode : Obligations.SetModeWritesMode := by
  refine ⟨decode_encode (.setMode .even), decode_encode (.setMode .odd),
    fun w hop hres => raisesIllegal_of_encode_ne fun i hi => ?reserved, fun s m => ⟨fun hp => ?idle, fun hp => ?pass⟩⟩
  case reserved =>
    subst hi
    obtain ⟨m, rfl⟩ := eq_setMode_of_opField hop
    exact hres (extractLsb'_encode_setMode m)
  case idle => exact exec_of_ownEffect (i := .setMode m) (by simp [gatePhases, hp]) rfl
  case pass => exact exec_of_phase_or hp (by simp [gatePhases]) (by simp [gatePhases])

/-- Settles O45: in IDLE the location check raises PLANE_RANGE, or the command has its own effect, the write of one byte. -/
theorem planeWrWritesOneByte : Obligations.PlaneWrWritesOneByte := by
  refine ⟨fun k pos c => decode_eq_ok_iff.2 (encode_planeWr k pos c),
    fun w hop => ⟨_, _, _, decode_of_opField_planeWr hop⟩,
    fun s k pos c => ⟨fun hp hout => inPhases_of_outside _ hp hout, fun hp hk hpos => ?write, fun hp => ?pass⟩⟩
  case write =>
    have hexec : exec (.planeWr k pos c) s = .next (writePlane k.toNat pos.toNat c s) :=
      exec_of_ownEffect (by simp [gatePhases, hp]) ⟨locationInRange_iff.2 ⟨hk, hpos⟩, rfl⟩
    exact ⟨_, hexec, rfl, readPlane_writePlane_self _ _ c s, fun a ha => byteAt_write_of_ne s.plane c ha⟩
  case pass => exact exec_of_phase_or hp (by simp [gatePhases]) (by simp [gatePhases])

/-- Settles O46: in IDLE the location check raises PLANE_RANGE, a written byte goes into RES, and any other byte stops the
model. -/
theorem planeRdReadsOneByte : Obligations.PlaneRdReadsOneByte := by
  refine ⟨fun k pos => decode_eq_ok_iff.2 (encode_planeRd k pos),
    fun w hop hres => raisesIllegal_of_encode_ne fun i hi => ?reserved,
    fun s k pos => ⟨fun hp hout => inPhases_of_outside _ hp hout, fun b hp hk hpos hb => ?read, fun hp hk hpos hnone => ?stop,
      fun hp => ?pass⟩⟩
  case reserved =>
    subst hi
    obtain ⟨k, pos, rfl⟩ := eq_planeRd_of_opField hop
    exact hres (dField_packWord _ _ _ _)
  case read =>
    have hexec : exec (.planeRd k pos) s = .next (setRes (byteRes b) s) :=
      exec_of_ownEffect (by simp [gatePhases, hp]) ⟨locationInRange_iff.2 ⟨hk, hpos⟩, b, hb, rfl⟩
    exact ⟨_, hexec, rfl, byteRes_byte b, byteRes_high b⟩
  case stop => exact exec_planeRd_of_unwritten hp (locationInRange_iff.2 ⟨hk, hpos⟩) hnone
  case pass => exact exec_of_phase_or hp (by simp [gatePhases]) (by simp [gatePhases])

end Sys2Proof
end

section
/-! PROOFS. The exceptions (60_exceptions.md R191 to R196): the phase table and the checks as the machine runs them, the phase
that each command's own effect leaves, and what a step can do of which fault entry is one case. -/

namespace Sys2Proof

open Machine Safety

namespace Machine

variable {i : Instr} {s t : State}

/-! The phase table (R192). -/

/-- Outside FAULT the table's phases are those in which `exec` runs the command; CLEAR alone also runs in FAULT (R174, R192). -/
theorem mem_legalPhases_iff {p : Phase} : p ∈ legalPhases i ↔ p ≠ .fault ∧ p ∈ gatePhases i := by
  cases i with
  | clear => cases p <;> decide
  | _ =>
    refine ⟨fun hlegal => ⟨?_, hlegal⟩, fun h => h.2⟩
    rintro rfl
    simp [legalPhases] at hlegal

/-- In FAULT every command but CLEAR has no effect (R195). -/
theorem exec_of_fault (hp : s.phase = .fault) (hclear : i ≠ .clear) : exec i s = .next s := by
  cases i with
  | clear => exact absurd rfl hclear
  | _ => exact inPhases_of_fault _ _ hp

/-! The phase that a command's own effect leaves (R193). -/

/-- The phase after a command's own effect: the arrows of R193 outside fault entry and reset. -/
def phaseAfter : Instr → Phase → Phase
  | .encBegin, _ => .encoding
  | .encEnd, _ => .idle
  | .decBegin _, _ => .decoding
  | .decEnd, _ => .idle
  | .clear, _ => .idle
  | _, p => p

theorem ownEffect_phase (h : ownEffect i s t) : t.phase = phaseAfter i s.phase := by
  cases i with
  | encChar c => obtain ⟨-, ⟨-, rfl⟩ | ⟨-, -, rfl⟩⟩ := h <;> rfl
  | encEnd => obtain ⟨-, rfl⟩ | ⟨-, -, rfl⟩ := h <;> rfl
  | decBegin _ | planeWr _ _ _ => obtain ⟨-, rfl⟩ := h; rfl
  | decChar | planeRd _ _ => obtain ⟨-, _, -, rfl⟩ := h; rfl
  | nop | setMode _ | encBegin | decEnd | hamEnc _ | hamDec _ _ | clear => obtain rfl := h; rfl

/-- No command's own effect ends in FAULT: CLEAR is the one that runs there, and it leaves IDLE (R194, R196). -/
theorem phaseAfter_ne_fault {p : Phase} (hgate : p ∈ gatePhases i) : phaseAfter i p ≠ .fault := by
  intro hfault
  cases i with
  | encBegin | encEnd | decBegin _ | decEnd | clear => exact nomatch hfault
  | _ =>
    obtain rfl : p = .fault := hfault
    simp [gatePhases] at hgate

theorem ownEffect_phase_ne_fault (hgate : s.phase ∈ gatePhases i) (h : ownEffect i s t) : t.phase ≠ .fault :=
  ownEffect_phase h ▸ phaseAfter_ne_fault hgate

/-! The checks (R191). -/

/-- The checks do not read the host's list. -/
theorem firstFault_setPort (i : Instr) (s : State) (rest : List HostEvent) :
    firstFault i { s with port := rest } = firstFault i s := by
  cases i <;> rfl

/-- The checks all pass exactly in a legal phase with no operand or capacity fault. -/
theorem firstFault_eq_none : firstFault i s = .none ↔ s.phase ∈ legalPhases i ∧ operandFault i s = .none := by
  unfold firstFault
  split <;> simp_all

theorem lengthFault_eq_operandFault (nbyte : BitVec 16) (s : State) :
    lengthFault s nbyte = operandFault (.decBegin nbyte) s := by
  simp only [lengthFault, operandFault, planeBytes_eq, ← BitVec.toNat_inj, BitVec.toNat_ofNat, Nat.zero_mod]

/-- A location passes the machine's check exactly where R191's check of PLANE_RD, which is PLANE_WR's too, finds no fault. -/
theorem locationInRange_iff_operandFault {k : BitVec 4} {pos : BitVec 16} :
    locationInRange s k pos = true ↔ operandFault (.planeRd k pos) s = .none := by
  simp [locationInRange_iff, operandFault]

/-- An operand or capacity check that fails raises its fault and the command does nothing else (R191). -/
theorem exec_of_operandFault (hlegal : s.phase ∈ legalPhases i) (h : operandFault i s ≠ .none) :
    exec i s = .next (raiseFault (operandFault i s) s) := by
  cases i with
  | encChar c =>
    have hn : s.n.toNat = s.maxN := of_not_not fun hn => h (if_neg hn)
    rw [exec_encChar_of_full (List.mem_singleton.1 hlegal) hn, operandFault, if_pos hn]
  | decBegin nbyte =>
    exact exec_decBegin_of_lengthFault (List.mem_singleton.1 hlegal) (lengthFault_eq_operandFault nbyte s) h
  | decChar =>
    have hend : s.dpos.toNat = 8 * s.nbyte.toNat := of_not_not fun hend => h (if_neg hend)
    rw [exec_decChar_of_overrun (List.mem_singleton.1 hlegal) hend, operandFault, if_pos hend]
  | planeWr k pos _ | planeRd k pos =>
    have hout : 12 ≤ k.toNat ∨ (s.maxN + 7) / 8 ≤ pos.toNat := of_not_not fun hin => h (if_neg hin)
    rw [operandFault, if_pos hout]
    exact inPhases_of_outside _ (List.mem_singleton.1 hlegal) hout
  | nop | setMode _ | encBegin | encEnd | decEnd | hamEnc _ | hamDec _ _ | clear => exact absurd rfl h

/-- Outside FAULT the first check that fails raises its fault and the command does nothing else (R191). -/
theorem exec_of_firstFault (hp : s.phase ≠ .fault) (h : firstFault i s ≠ .none) :
    exec i s = .next (raiseFault (firstFault i s) s) := by
  by_cases hlegal : s.phase ∈ legalPhases i
  · rw [firstFault, if_pos hlegal] at h ⊢
    exact exec_of_operandFault hlegal h
  · rw [firstFault, if_neg hlegal]
    exact exec_of_not_mem_gatePhases hp fun hgate => hlegal (mem_legalPhases_iff.2 ⟨hp, hgate⟩)

/-- A command that passes the checks and answers has had its own effect: the converse of `exec_of_ownEffect`. -/
theorem ownEffect_of_firstFault_none (h : firstFault i s = .none) (hexec : exec i s = .next t) : ownEffect i s t := by
  obtain ⟨hlegal, hop⟩ := firstFault_eq_none.1 h
  obtain ⟨hp, hgate⟩ := mem_legalPhases_iff.1 hlegal
  have hdet {u : State} (hu : ownEffect i s u) : t = u :=
    Host.Outcome.next.inj (hexec.symm.trans (exec_of_ownEffect hgate hu))
  cases i with
  | encChar c =>
    have hn : s.n.toNat ≠ s.maxN := fun hn => by simp [operandFault, hn] at hop
    have hrun := (inPhases_of_mem hp hgate).symm.trans hexec
    rw [if_neg hn] at hrun
    exact (packChar_eq_next hn).1 hrun
  | encEnd => exact (exec_encEnd_eq_next (List.mem_singleton.1 hgate)).1 hexec
  | decChar =>
    have hd : s.dpos.toNat ≠ 8 * s.nbyte.toNat := fun hd => by simp [operandFault, hd] at hop
    have hrun := (inPhases_of_mem hp hgate).symm.trans hexec
    rw [if_neg hd] at hrun
    exact ⟨hd, decodeSlot_eq_next.1 hrun⟩
  | planeRd k pos =>
    have hrange := locationInRange_iff_operandFault.2 hop
    have hrun := (inPhases_of_mem hp hgate).symm.trans hexec
    rw [if_pos hrange] at hrun
    exact ⟨hrange, fetchPlane_eq_next.1 hrun⟩
  | planeWr k pos c =>
    have hrange := locationInRange_iff_operandFault.2 hop
    exact ⟨hrange, hdet ⟨hrange, rfl⟩⟩
  | decBegin nbyte =>
    have hlength := (lengthFault_eq_operandFault nbyte s).trans hop
    exact ⟨hlength, hdet ⟨hlength, rfl⟩⟩
  | nop | setMode _ | encBegin | decEnd | hamEnc _ | hamDec _ _ | clear => exact hdet rfl

/-! A step (R193, R194). -/

/-- What a step can do, by its effect: take the input and nothing else, enter FAULT, reset, or run a command's own effect. -/
theorem step_effect_cases (h : step s = .next t) :
    t = { s with port := s.port.tail } ∨
    (∃ w rest code, s.port = .command w :: rest ∧ s.phase ≠ .fault ∧ code ≠ .none ∧
      t = raiseFault code { s with port := rest }) ∨
    (∃ rest, s.port = .reset :: rest ∧ t = resetRegisters { s with port := rest }) ∨
    (∃ i rest, s.port = .command (encode i) :: rest ∧ s.phase ∈ gatePhases i ∧ ownEffect i { s with port := rest } t) := by
  rcases step_next_cases h with ⟨hport, rfl⟩ | hreset | ⟨w, rest, hport, ⟨i, hdec, hexec⟩ | ⟨e, -, rfl⟩⟩
  · exact .inl (by rw [hport, List.tail_nil, ← hport])
  · exact .inr (.inr (.inl hreset))
  · obtain rfl := encode_of_decode hdec
    rcases exec_next_cases hexec with ⟨-, rfl, -⟩ | ⟨hp, code, hcode, rfl, -⟩ | ⟨hgate, heff⟩
    · exact .inl (by simp [hport])
    · exact .inr (.inl ⟨_, rest, code, hport, hp, hcode, rfl⟩)
    · exact .inr (.inr (.inr ⟨i, rest, hport, hgate, heff⟩))
  · split
    · exact .inl (by simp [hport])
    · rename_i hp
      exact .inr (.inl ⟨w, rest, _, hport, hp, by decide, rfl⟩)

end Machine

/-- Settles O13: the machine's phase check is the table's, FAULT stops every command but CLEAR, and no other check raises
SEQUENCE. -/
theorem phaseTableDecidesLegality : Obligations.PhaseTableDecidesLegality := by
  refine ⟨fun i s hp hillegal => ?illegal, fun i s hp hclear => exec_of_fault hp hclear,
    fun s => ⟨_, exec_clear s, atReset_resetRegisters s⟩, fun i s t hlegal hexec herr => ?legal⟩
  case illegal => exact exec_of_not_mem_gatePhases hp fun hgate => hillegal (mem_legalPhases_iff.2 ⟨hp, hgate⟩)
  case legal =>
    obtain ⟨hp, hgate⟩ := mem_legalPhases_iff.1 hlegal
    rcases exec_next_cases hexec with ⟨hfault, -⟩ | ⟨-, code, -, rfl, -, hcode⟩ | ⟨-, heff⟩
    · exact absurd hfault hp
    · exact absurd herr (hcode hgate)
    · by_cases hclear : i = .clear
      · subst hclear
        obtain rfl := heff
        exact nomatch herr
      · obtain ⟨-, hkeep | ⟨-, hfault⟩, -⟩ := registerFrame i s t hexec hclear
        · exact hkeep.symm.trans herr
        · exact absurd hfault (ownEffect_phase_ne_fault hgate heff)

/-- Settles O14: of what a step can do, fault entry, reset and the own effects of five commands write PHASE. -/
theorem phaseChangesOnlyAsListed : Obligations.PhaseChangesOnlyAsListed := by
  intro s t hstep
  rcases step_effect_cases hstep with rfl | ⟨w, rest, code, hport, hp, hcode, rfl⟩ | ⟨rest, hport, rfl⟩ |
    ⟨i, rest, hport, hgate, heff⟩
  case inl => exact .inl rfl
  case inr.inl => exact .inr ⟨_, rest, hport, .inr (.inr (.inr (.inr (.inl ⟨⟨w, rfl⟩, hp, rfl, hcode⟩))))⟩
  case inr.inr.inl => exact .inr ⟨_, rest, hport, .inr (.inr (.inr (.inr (.inr (.inr ⟨rfl, rfl⟩)))))⟩
  case inr.inr.inr =>
    have hphase := ownEffect_phase heff
    cases i with
    | encBegin => exact .inr ⟨_, rest, hport, .inl ⟨rfl, List.mem_singleton.1 hgate, hphase⟩⟩
    | encEnd => exact .inr ⟨_, rest, hport, .inr (.inl ⟨rfl, List.mem_singleton.1 hgate, hphase⟩)⟩
    | decBegin nbyte =>
      exact .inr ⟨_, rest, hport, .inr (.inr (.inl ⟨⟨nbyte, rfl⟩, List.mem_singleton.1 hgate, hphase⟩))⟩
    | decEnd => exact .inr ⟨_, rest, hport, .inr (.inr (.inr (.inl ⟨rfl, List.mem_singleton.1 hgate, hphase⟩)))⟩
    | clear => exact .inr ⟨_, rest, hport, .inr (.inr (.inr (.inr (.inr (.inl ⟨rfl, hphase⟩)))))⟩
    | _ => exact .inl hphase

/-- Settles O15: of what a step can do from outside FAULT, only fault entry leads there. -/
theorem faultEntryIsPrecise : Obligations.FaultEntryIsPrecise := by
  intro s t hstep hp ht
  rcases step_effect_cases hstep with rfl | ⟨w, rest, code, hport, -, hcode, rfl⟩ | ⟨rest, -, rfl⟩ |
    ⟨i, rest, -, hgate, heff⟩
  · exact absurd ht hp
  · exact ⟨hcode, by rw [hport]; rfl⟩
  · exact nomatch ht
  · exact absurd ht (ownEffect_phase_ne_fault (s := { s with port := rest }) hgate heff)

/-- Settles O16: a word of no row is no command's word, and a command raises its first fault or has its own effect. -/
theorem checksRunInOrder : Obligations.ChecksRunInOrder := by
  intro s w rest hp hport
  refine ⟨fun hrows => ?illegal, fun i hi hfault => ?fault, fun i t hi hnone hstep => ?pass⟩
  case illegal =>
    refine raisesIllegal_of_encode_ne (fun i hi => ?_) s rest hp hport
    exact hrows (opcodeRow i) (mem_opcodeMap.2 ⟨i, rfl⟩) (hi ▸ encode_and_mask i)
  case fault =>
    rw [← firstFault_setPort i s rest] at hfault ⊢
    rw [step_of_command hport (decode_eq_ok_iff.2 hi)]
    exact exec_of_firstFault hp hfault
  case pass =>
    rw [step_of_command hport (decode_eq_ok_iff.2 hi)] at hstep
    rw [← firstFault_setPort i s rest] at hnone
    have hgate := (mem_legalPhases_iff.1 (firstFault_eq_none.1 hnone).1).2
    exact ownEffect_phase_ne_fault hgate (ownEffect_of_firstFault_none hnone hstep)

/-- Where the bytes that it reads are written, no command stops the model in a state that meets the invariant (R36). -/
theorem exec_ne_fault_of_written {i : Instr} {s : State} (h : Invariant s)
    (hrd : ∀ k pos, i = .planeRd k pos → (readPlane s k.toNat pos.toNat).isSome)
    (hchar : i = .decChar → ∀ k : Fin 12, (readPlane s k.val (s.dpos.toNat / 8)).isSome) (f : Fault) :
    exec i s ≠ .fault f := by
  intro hexec
  obtain ⟨k, pos, hf, hk, -, hnone, rfl | ⟨p, rfl, rfl⟩⟩ := exec_fault_of_invariant h hexec
  case inl =>
    obtain ⟨-, -, ⟨_, _, hi, -⟩ | ⟨-, -, hread⟩ | ⟨⟨_, hi⟩, -⟩ | ⟨hi, -⟩⟩ := exec_fault_cases hexec
    case inr.inl =>
      rcases readGroup_eq_error hread with ⟨-, k', -, hnone'⟩ | ⟨-, hbeyond⟩
      · simpa [hnone'] using hchar rfl k'
      · exact nomatch hf.symm.trans hbeyond
    all_goals exact nomatch hi
  case inr =>
    have hsome := hrd _ p rfl
    rw [BitVec.toNat_ofNat, Nat.mod_eq_of_lt (by omega), hnone] at hsome
    exact nomatch hsome

/-- Settles O57: the command neither stops nor is refused, so it has its own effect, which keeps the invariant. -/
theorem checkedCommandsComplete : Obligations.CheckedCommandsComplete := by
  intro i s h hp hnone hrd hchar
  cases hexec : exec i s with
  | next t =>
    have heff := ownEffect_of_firstFault_none hnone hexec
    have hgate := (mem_legalPhases_iff.1 (firstFault_eq_none.1 hnone).1).2
    have ht := ownEffect_phase_ne_fault hgate heff
    exact ⟨t, rfl, ht, (h.ownEffect hgate heff).err_none ht⟩
  | fault f => exact absurd hexec (exec_ne_fault_of_written h hrd hchar f)
  | refused r => exact absurd hexec (exec_ne_refused i s r)

/-- Settles O11: in FAULT a command other than CLEAR and an illegal word are taken alike, and STATUS shows the phase and the
code. -/
theorem faultPhaseHoldsUntilClear : Obligations.FaultPhaseHoldsUntilClear := by
  refine ⟨fun s w rest hp hport hne => ?other, fun s rest _ hport => ?clear, fun s hp => ?status⟩
  case other =>
    cases hdec : decode w with
    | ok i =>
      rw [step_of_command hport hdec]
      refine exec_of_fault hp ?_
      rintro rfl
      exact hne (encode_of_decode hdec).symm
    | error e => rw [step_of_illegal hport hdec, illegalWord_eq, if_pos hp]
  case clear =>
    rw [step_of_command hport (decode_encode .clear), exec_clear]
    exact ⟨_, rfl, atReset_resetRegisters _⟩
  case status =>
    rw [readPort_status, statusWord_phase, statusWord_err, hp]
    exact ⟨rfl, rfl⟩

end Sys2Proof
end

section
/-! PROOFS. The plane bytes and the invariant at reset (10_state.md R36, 70_reset_and_hazards.md R220, R221): no byte is written
at power-on, a read of one that is not stops the model, and a power-on state meets the invariant. -/

namespace Sys2Proof

open Machine Safety

namespace Machine

variable {s : State}

/-- A group with an unwritten byte is not read: the read names one of its unwritten planes (R36, R150). -/
theorem readGroup_of_unwritten {pos : Nat} (hpos : pos < planeBytes s) (h : ∃ k : Fin 12, readPlane s k.val pos = none) :
    ∃ k : Fin 12, readPlane s k.val pos = none ∧ readGroup s pos = .error (.neverWritten k.val pos) := by
  obtain ⟨k, hk⟩ := h
  cases hread : readGroup s pos with
  | ok bytes =>
    obtain ⟨-, hbytes⟩ := readGroup_eq_ok.1 hread
    exact nomatch hk.symm.trans (hbytes k)
  | error f =>
    rcases readGroup_eq_error hread with ⟨-, j, rfl, hj⟩ | ⟨hbeyond, -⟩
    · exact ⟨j, hj, rfl⟩
    · omega

/-- On a slot whose group cannot be read DEC_CHAR stops where the read does (R36, R150). -/
theorem exec_decChar_of_readGroup_error {f : Fault} (hp : s.phase = .decoding) (hd : s.dpos.toNat ≠ 8 * s.nbyte.toNat)
    (hread : readGroup s (s.dpos.toNat / 8) = .error f) : exec .decChar s = .fault f := by
  refine inPhases_eq_fault.2 ⟨by simp [hp], by simp [hp], ?_⟩
  rw [if_neg hd, decodeSlot, readSlot_eq_error.2 hread]

end Machine

/-- Nothing is written, packed or recorded at power-on, so only the parameter's range is left to ask for (R220, R221). -/
theorem Safety.invariant_powerOn {maxN : Nat} (hpos : 1 ≤ maxN) (hmax : maxN ≤ 524280) : Invariant (State.powerOn maxN) where
  param := ⟨hpos, hmax⟩
  memWf := powerOn_plane_wf maxN
  memIn := by simp
  nBound := Nat.zero_le _
  nbyteBound := Nat.zero_le _
  dposBound := Nat.zero_le _
  encCount := nofun
  encAcc := nofun
  encWritten := nofun
  groupEmpty := fun _ => ⟨rfl, (atReset_powerOn maxN).acc⟩
  decPos := nofun
  errPhase := by simp
  resHigh := resAgrees_zero.1
  resErrs := resAgrees_zero.2.1
  resFlag := resAgrees_zero.2.2

/-- Settles O2: the empty memory lists no byte, resetting the registers keeps it, and both reads stop on an unlisted byte. -/
theorem neverWrittenBytesFault : Obligations.NeverWrittenBytesFault := by
  refine ⟨fun _ => rfl, ?laterReset, fun s => ⟨_, exec_clear s, resetRegisters_plane s⟩, ?planeRd, ?decChar⟩
  case laterReset => exact fun s rest hport => ⟨_, step_of_reset hport, by simp⟩
  case planeRd =>
    exact fun s k pos hp hk hpos hnone => exec_planeRd_of_unwritten hp (locationInRange_iff.2 ⟨hk, hpos⟩) hnone
  case decChar =>
    intro s hp hd hpos hnone
    rw [← planeBytes_eq] at hpos
    obtain ⟨k, hk, hread⟩ := readGroup_of_unwritten hpos hnone
    exact ⟨k, hk, exec_decChar_of_readGroup_error hp hd hread⟩

/-- Settles O3: `Config`'s parameter is in the range that a power-on state needs. -/
theorem resetMeetsInvariant : Obligations.ResetMeetsInvariant := by
  obtain ⟨hpos, hmax⟩ := Config.maxN_bounds
  exact ⟨invariant_powerOn hpos hmax, fun _ => invariant_powerOn⟩

end Sys2Proof
end

section
/-! PROOFS. The host (70_reset_and_hazards.md R224, R225, R232): the commands that it plans from the option and its files, the
reports of its runs, and the plane files, which the dump reads as they stand in the buffers. -/

namespace Sys2Proof

open Machine Safety

namespace Machine

variable {s : State} {text : List Char} {m : Parity} {files : Vector (Option (List Byte)) 12}

/-! What the host reads through the port (R29). -/

theorem toNat_readPort_nbyte (s : State) : (readPort s 0x03#5).toNat = s.nbyte.toNat := BitVec.toNat_setWidth_of_le (by decide)

theorem passOpening_eq (s : State) : passOpening s = if s.phase = .fault then [.clear] else [] := by
  simp [passOpening, faultSeen_iff]

/-! What an encode run sends (R224, R232). -/

theorem resolveParity_eq_none (heven : text ≠ "even".toList) (hodd : text ≠ "odd".toList) : resolveParity text = none := by
  rw [resolveParity, if_neg heven, if_neg hodd]

/-- A message that fits is sent after the opening, and a longer one not at all. -/
theorem hostEncode_of_resolved (h : resolveParity text = some m) (s : State) (input : List Byte) :
    hostEncode s text input =
      if input.dropLast.length ≤ (readPort s 0x06#5).toNat then
        ⟨passOpening s ++ encodeProcedure (openingMode s) m input.dropLast, none⟩
      else ⟨[], some .overBound⟩ := by
  simp only [hostEncode, h, messageOf, ← Nat.not_le, ite_not]

/-! What a decode run sends (R225, R232). -/

/-- The loads of the bytes below `nbyte` of each file. -/
theorem loadPlanes_take_eq (planes : List (List Byte)) (nbyte : Nat) :
    loadPlanes 0 (planes.map (·.take nbyte)) = planes.zipIdx.flatMap fun f =>
      (f.1.take nbyte).zipIdx.map fun p => .planeWr (BitVec.ofNat 4 f.2) (BitVec.ofNat 16 p.2) p.1 := by
  simp [loadPlanes_eq, loadPlane_eq, List.zipIdx_map, List.flatMap_map]

theorem readableFiles_map_some (planes : List (List Byte)) : readableFiles (planes.map some) = planes := by
  induction planes with
  | nil => rfl
  | cons f planes ih => simp [readableFiles, ih]

theorem readableFiles_until_none (planes : List (List Byte)) (rest : List (Option (List Byte))) :
    readableFiles (planes.map some ++ none :: rest) = planes := by
  induction planes with
  | nil => rfl
  | cons f planes ih => simp [readableFiles, ih]

theorem hostDecode_of_unreadable (h : resolveParity text = some m) (h0 : files[0] = none) (s : State) :
    hostDecode s text files = ⟨passOpening s ++ [.setMode m], some .io⟩ := by
  simp only [hostDecode, h, h0]

/-- Of a plane 0 that the POS field cannot reach whole, as many bytes are sent as it reaches. -/
theorem hostDecode_of_long {f : List Byte} (h : resolveParity text = some m) (h0 : files[0] = some f) (hlen : 65535 < f.length)
    (s : State) :
    hostDecode s text files = ⟨passOpening s ++ [.setMode m] ++ loadPlanes 0 ([f].map (·.take 65536)), some .overBound⟩ := by
  have hfits : fitsField 16 f.length = false := decide_eq_false (by omega)
  simp [hostDecode, h, h0, hfits, loadPlanes]

theorem hostDecode_of_fits {f : List Byte} (h : resolveParity text = some m) (h0 : files[0] = some f) (hlen : f.length ≤ 65535)
    (s : State) :
    hostDecode s text files =
      if (readableFiles files.toList).length = 12 then
        ⟨passOpening s ++ decodeProcedure m (readableFiles files.toList), none⟩
      else ⟨passOpening s ++ [.setMode m] ++ loadPlanes 0 ((readableFiles files.toList).map (·.take f.length)), some .io⟩ := by
  have hfits : fitsField 16 f.length = true := decide_eq_true (by omega)
  simp only [hostDecode, h, h0, hfits, if_true]

/-- A later file that cannot be read ends the run after the loads of those before it. -/
theorem hostDecode_until_none {f : List Byte} {planes : List (List Byte)} {rest : List (Option (List Byte))}
    (h : resolveParity text = some m) (hfiles : files.toList = (f :: planes).map some ++ none :: rest) (hlen : f.length ≤ 65535)
    (s : State) :
    hostDecode s text files =
      ⟨passOpening s ++ [.setMode m] ++ loadPlanes 0 ((f :: planes).map (·.take f.length)), some .io⟩ := by
  have h0 : files[0] = some f := by
    rw [← Vector.getElem_toList (by simp)]
    simp [hfiles]
  have htotal : planes.length + (rest.length + 1) = 11 := by simpa using congrArg List.length hfiles
  have hcount : (f :: planes).length ≠ 12 := by
    rw [List.length_cons]
    omega
  rw [hostDecode_of_fits h h0 hlen, hfiles, readableFiles_until_none, if_neg hcount]

/-- Twelve files that can be read are all loaded, and the pass runs over plane 0's length. -/
theorem hostDecode_of_readable {planes : Vector (List Byte) 12} (h : resolveParity text = some m)
    (hlen : planes[0].length ≤ 65535) (s : State) :
    hostDecode s text (planes.map some) =
      ⟨passOpening s ++ [.setMode m] ++ loadPlanes 0 (planes.toList.map (·.take planes[0].length)) ++
        decodePass planes[0].length, none⟩ := by
  have hread : readableFiles (planes.map some).toList = planes.toList := by
    rw [Vector.toList_map, readableFiles_map_some]
  have hhead : planes.toList.headD [] = planes[0] := by
    rw [List.headD_eq_head?_getD, List.head?_eq_getElem?, Vector.getElem?_toList]
    simp
  rw [hostDecode_of_fits h (by simp) hlen, hread, if_pos (by simp), decodeProcedure, hhead]
  simp

/-! What a run reads and reports (R156, R225, R232). -/

/-- RES is read after DEC_CHAR and PLANE_RD, and after no other command. -/
theorem resReads_eq (i : Instr) (t : State) :
    (i = .decChar ∨ (∃ k pos, i = .planeRd k pos) → resReads i t = [t.res]) ∧
      (i ≠ .decChar → (∀ k pos, i ≠ .planeRd k pos) → resReads i t = []) := by
  constructor
  · rintro (rfl | ⟨k, pos, rfl⟩) <;> rfl
  · intro hchar hrd
    cases i
    case decChar => exact absurd rfl hchar
    case planeRd k pos => exact absurd rfl (hrd k pos)
    all_goals rfl

theorem passEnded_iff {plan : HostPlan} {r : HostRecord} : passEnded plan r = true ↔ plan.stop = none ∧ r.faulted = false := by
  simp [passEnded]

theorem decodeRunReport_of_hostRun {r : HostRecord} (h : hostRun (hostDecode s text files).commands s = .next r) :
    decodeRunReport s text files =
      .next ⟨r.reads.filterMap printedByte, passEnded (hostDecode s text files) r && warningDue r.final,
        hostStop (hostDecode s text files) r, r.faulted, r.final⟩ := by
  simp only [decodeRunReport, h, decodeOutput]

/-- A run that does not reach the end of its pass writes no file. -/
theorem encodeRunReport_of_not_passEnded {input : List Byte} {r : HostRecord}
    (h : hostRun (hostEncode s text input).commands s = .next r) (hend : ¬passEnded (hostEncode s text input) r = true) :
    encodeRunReport s text input = .next ⟨none, hostStop (hostEncode s text input) r, r.faulted, r.final⟩ := by
  simp only [encodeRunReport, h, if_neg hend]

/-- A run that does dumps the planes, and writes the files where the dump does not fault. -/
theorem encodeRunReport_of_passEnded {input : List Byte} {r d : HostRecord}
    (h : hostRun (hostEncode s text input).commands s = .next r) (hend : passEnded (hostEncode s text input) r = true)
    (hdump : hostRun (dumpProcedure r.final.nbyte.toNat) r.final = .next d) :
    encodeRunReport s text input =
      .next ⟨if d.faulted then none else some ((List.range 12).map (dumpedFile r.final.nbyte.toNat d.reads)), none, d.faulted,
        d.final⟩ := by
  simp only [encodeRunReport, h, if_pos hend, toNat_readPort_nbyte, hdump]

/-! The plane files (R224, R229, R230). -/

theorem planeFile_of_not_idle (h : s.phase ≠ .idle) (k : Fin 12) : planeFile s k = none := by
  rw [planeFile, if_neg (mt (idleSeen_iff s).1 h)]

/-- In IDLE the file is the plane's bytes below NBYTE, in order. -/
theorem planeFile_eq_some {k : Fin 12} {bytes : List Byte} (h : s.phase = .idle) :
    planeFile s k = some bytes ↔ (List.range s.nbyte.toNat).map (fun pos => readPlane s k.val pos) = bytes.map some := by
  rw [planeFile, if_pos ((idleSeen_iff s).2 h), allSome_eq_some, toNat_readPort_nbyte]

/-- The values of `f` below n are a list's elements exactly when the list has n elements and each is the value of its place. -/
theorem map_range_eq_map_some {α : Type} {n : Nat} {f : Nat → Option α} {xs : List α} :
    (List.range n).map f = xs.map some ↔ xs.length = n ∧ ∀ i < n, f i = xs[i]? := by
  constructor
  · intro h
    have hlen : xs.length = n := by simpa using (congrArg List.length h).symm
    refine ⟨hlen, fun i hi => ?_⟩
    simpa [hi, hlen] using congrArg (·[i]?) h
  · rintro ⟨rfl, h⟩
    refine List.ext_getElem (by simp) fun i _ hi => ?_
    rw [List.length_map] at hi
    simp [h i hi, hi]

/-! The dump reads the planes block by block (R224 step 6). -/

/-- The locations that the dump reads, in order. -/
def dumpCells (nbyte : Nat) : List (BitVec 4 × BitVec 16) :=
  planeOperands.flatMap fun k => (positions nbyte).map fun pos => (k, pos)

theorem dumpProcedure_eq (nbyte : Nat) : dumpProcedure nbyte = (dumpCells nbyte).map fun c => .planeRd c.1 c.2 := by
  simp [dumpProcedure, dumpCells, List.map_flatMap, Function.comp_def]

theorem lt_of_mem_dumpCells {nbyte : Nat} {c : BitVec 4 × BitVec 16} (h : c ∈ dumpCells nbyte) :
    c.1.toNat < 12 ∧ c.2.toNat < nbyte := by
  simp only [dumpCells, planeOperands, positions, List.mem_flatMap, List.mem_map, List.mem_range] at h
  obtain ⟨_, ⟨k, hk, rfl⟩, _, ⟨pos, hpos, rfl⟩, rfl⟩ := h
  exact ⟨(Nat.mod_le k _).trans_lt hk, (Nat.mod_le pos _).trans_lt hpos⟩

/-- Where all blocks have one length, the k-th block of a concatenation is the k-th element's. -/
theorem take_drop_flatMap {α β : Type} {f : α → List β} {n : Nat} (hf : ∀ a, (f a).length = n) {l : List α} {k : Nat} {a : α}
    (h : l[k]? = some a) : ((l.flatMap f).drop (k * n)).take n = f a := by
  induction l generalizing k with
  | nil => simp at h
  | cons b l ih =>
    cases k with
    | zero =>
      obtain rfl : b = a := by simpa using h
      simp [hf]
    | succ k =>
      have hdrop : (f b ++ l.flatMap f).drop ((k + 1) * n) = (l.flatMap f).drop (k * n) := by
        rw [Nat.succ_mul, Nat.add_comm, ← hf b, List.drop_length_add_append]
      rw [List.flatMap_cons, hdrop]
      exact ih (by simpa using h)

theorem dumpCells_block (nbyte : Nat) (k : Fin 12) :
    ((dumpCells nbyte).drop (k.val * nbyte)).take nbyte = (positions nbyte).map fun pos => (BitVec.ofNat 4 k.val, pos) :=
  take_drop_flatMap (by simp [positions]) (by simp [planeOperands])

/-- Plane k's block of the dump's locations, read, is plane k below `nbyte`. -/
theorem map_readPlane_dumpCells {nbyte : Nat} (hn : nbyte ≤ 65536) (s : State) (k : Fin 12) :
    (((dumpCells nbyte).drop (k.val * nbyte)).take nbyte).map (fun c => readPlane s c.1.toNat c.2.toNat) =
      (List.range nbyte).map fun pos => readPlane s k.val pos := by
  rw [dumpCells_block, positions, List.map_map, List.map_map]
  refine List.map_congr_left fun pos hpos => ?_
  have hpos' : pos < 65536 := (List.mem_range.1 hpos).trans_le hn
  have hk : k.val < 16 := by omega
  simp [Nat.mod_eq_of_lt hk, Nat.mod_eq_of_lt hpos']

/-- Where every plane is written below `nbyte`, the dump does not fault, and plane k's part of it is those bytes. -/
theorem hostRun_dumpProcedure {nbyte : Nat} (hp : s.phase = .idle) (hn : nbyte ≤ 65536) (hB : nbyte ≤ (s.maxN + 7) / 8)
    (hwritten : ∀ k : Fin 12, ∀ pos < nbyte, (readPlane s k.val pos).isSome) :
    ∃ d, hostRun (dumpProcedure nbyte) s = .next d ∧ d.faulted = false ∧
      ∀ k : Fin 12, (List.range nbyte).map (fun pos => readPlane s k.val pos) = (dumpedFile nbyte d.reads k.val).map some := by
  have hcells : ∀ c ∈ dumpCells nbyte,
      locationInRange s c.1 c.2 = true ∧ (readPlane s c.1.toNat c.2.toNat).isSome := fun c hc => by
    obtain ⟨hk, hpos⟩ := lt_of_mem_dumpCells hc
    exact ⟨locationInRange_iff.2 ⟨hk, hpos.trans_le hB⟩, hwritten ⟨_, hk⟩ _ hpos⟩
  obtain ⟨d, hrun, hfaulted, hreads, -⟩ := hostRun_planeRd hp hcells
  refine ⟨d, (congrArg (hostRun · s) (dumpProcedure_eq nbyte)).trans hrun, hfaulted, fun k => ?_⟩
  rw [← map_readPlane_dumpCells hn, List.map_take, List.map_drop, ← hreads, ← List.map_drop, ← List.map_take, dumpedFile,
    List.map_map]
  rfl

end Machine

/-- Settles O60: each clause is what one of the host's functions gives; the plane files are what the dump reads. -/
theorem hostKeepsItsDuties : Obligations.HostKeepsItsDuties := by
  unfold Obligations.HostKeepsItsDuties
  simp only [← loadPlanes_take_eq, ← passOpening_eq]
  refine ⟨fun _ _ => resolveParity_eq_some, ?usage, ?encode, fun s _ _ _ h h0 => hostDecode_of_unreadable h h0 s,
    fun s _ _ _ _ _ _ h hfiles hlen => hostDecode_until_none h hfiles hlen s,
    fun s _ _ _ _ h h0 hlen => hostDecode_of_long h h0 hlen s, ?decode, fun _ => rfl,
    fun i rest s t h hf => hostRun_of_fault h hf rest,
    fun i rest s t r h hf hr => ⟨_, hostRun_of_no_fault h hf hr, resReads_eq i t⟩, ?decodeReport, ?noFiles, ?files,
    fun s k hp => planeFile_of_not_idle hp k, fun s k bytes hp => (planeFile_eq_some hp).trans map_range_eq_map_some, ?dump⟩
  case usage =>
    intro s text heven hodd
    have hnone := resolveParity_eq_none heven hodd
    exact ⟨fun input => by rw [hostEncode, hnone], fun files => by rw [hostDecode, hnone]⟩
  case encode =>
    intro s text m input h
    rw [hostEncode_of_resolved h, openingMode_eq]
    simp only [encodeProcedure, List.append_assoc]
  case decode =>
    intro s text m planes h hlen
    rw [hostDecode_of_readable h hlen]
    simp only [decodePass, List.append_assoc]
  case decodeReport =>
    intro s text files r hrun
    refine ⟨_, decodeRunReport_of_hostRun hrun, rfl, rfl, rfl, ?_⟩
    rw [Bool.and_eq_true, passEnded_iff, warningDue_eq, and_assoc]
  case noFiles =>
    intro s text input r hrun hstop
    have hend : ¬passEnded (hostEncode s text input) r = true := by
      rw [passEnded_iff]
      rintro ⟨hnone, hfaulted⟩
      exact hstop.elim (· hnone) fun h => nomatch hfaulted.symm.trans h
    exact ⟨_, encodeRunReport_of_not_passEnded hrun hend, rfl, rfl⟩
  case files =>
    intro s text input r d hrun hstop hfaulted hdump hd
    exact ⟨_, encodeRunReport_of_passEnded hrun (passEnded_iff.2 ⟨hstop, hfaulted⟩) hdump, rfl, by simp [hd]⟩
  case dump =>
    intro s hp hB hwritten
    obtain ⟨d, hrun, hfaulted, hfiles⟩ := hostRun_dumpProcedure hp s.nbyte.isLt.le hB hwritten
    exact ⟨d, hrun, hfaulted, fun k => (planeFile_eq_some hp).2 (hfiles k)⟩

end Sys2Proof
end
